-- ==== Sys2Proof/Word.lean ====
section
/-!
DEFINITION. Sys2Proof/Word.lean: the word types of the PDC and the named variants of the spec (register names, permissions,
settings, states). Plain data only; every computation on them stands in Decode.lean or under Machine/.
-/

namespace Sys2Proof

/-- A register word and a bus address: 32 bits (R7 `WORD`, `ADDR_W`; R10). -/
abbrev Word := BitVec 32

/-- A byte (R65 payload, R111 transmit unit). -/
abbrev Byte := BitVec 8

/-- A command word: 64 bits (R63). -/
abbrev CmdWord := BitVec 64

/-- Register permission (R12 `RegisterDescriptor`, R45). -/
inductive Perm where
  | readOnly
  | writeOnly
  | readWrite
  deriving DecidableEq, Repr

/-- The registers of the GPIO block, in the order of R24 (`idx` 0 to 13). -/
inductive GpioReg where
  | fsel0 | fsel1 | fsel2 | fsel3 | fsel4 | fsel5
  | set0 | set1 | clr0 | clr1 | lev0 | lev1 | eds0 | eds1
  deriving DecidableEq, Repr

/-- The registers of the UART block, in the order of R30 (`idx` 0 to 5). -/
inductive UartReg where
  | dr | fr | ibrd | fbrd | lcrh | cr
  deriving DecidableEq, Repr

/-- The registers of the I2C block, in the order of R36 (`idx` 0 to 6). -/
inductive I2cReg where
  | c | s | dlen | a | fifo | div | clkt
  deriving DecidableEq, Repr

/-- A register as a command names it (R69): by block and name, never by address. `pend i` is `PEND[i]` (R43). -/
inductive Reg where
  | gpio (r : GpioReg)
  | uart (r : UartReg)
  | i2c (r : I2cReg)
  | pend (i : Nat)
  | secstat
  deriving DecidableEq, Repr

/-- The four banked register kinds of R90. -/
inductive BankKind where
  | set | clr | lev | eds
  deriving DecidableEq, Repr

/-- Driver types that have a manager (R19, R68 `type`). -/
inductive DriverType where
  | uart
  | i2c
  deriving DecidableEq, Repr

/-- Pin function (R15, R68). -/
inductive PinFunction where
  | input | output | alt0 | alt1 | alt2 | alt3 | alt4 | alt5
  deriving DecidableEq, Repr

/-- Pull setting (R15, R88). -/
inductive Pull where
  | none | up | down
  deriving DecidableEq, Repr

/-- Pin level (R15). -/
inductive Level where
  | low | high
  deriving DecidableEq, Repr

/-- Pin FSM state (R16). -/
inductive PinFsm where
  | unconfigured | functionSelected | driven | released
  deriving DecidableEq, Repr

/-- UART parity (R17, R68). -/
inductive Parity where
  | none | odd | even
  deriving DecidableEq, Repr

/-- UART word length (R17, R68). -/
inductive WordLength where
  | five | six | seven | eight
  deriving DecidableEq, Repr

/-- UART stop bits (R17, R68). -/
inductive StopBits where
  | one | two
  deriving DecidableEq, Repr

/-- I2C transfer direction (R18, R68). -/
inductive Direction where
  | write | read
  deriving DecidableEq, Repr

/-- I2C sequencer state (R18, R121). -/
inductive I2cFsm where
  | idle | configured | transferring
  deriving DecidableEq, Repr

/-- Interrupt families of bank 3 (R135: `UART, I2C, SPI, AUX` or another name). -/
inductive IrqFamily where
  | uart | i2c | spi | aux
  | other (name : String)
  deriving DecidableEq, Repr

end Sys2Proof
end

