-- ==== Sys2Proof/Config.lean ====
section
/-!
DEFINITION. Sys2Proof/Config.lean: what is fixed for a run. The addresses the source fixes are constants (R8); every
parameter of R7 is a field of `Params`, which a run takes as an argument (State.params); `Params.default` is the
default or suggestion the spec gives for each. The two free values have no body, so nothing can be proved of them.
-/

namespace Sys2Proof

/-- `NPIN` (R7, R14): valid pin indices are 0 to 57. -/
abbrev npin : Nat := 58

/-- `GPIO_BASE` (R8). -/
def gpioBase : Word := 0xFE200000#32
/-- `UART_BASE` (R8). -/
def uartBase : Word := 0xFE201000#32
/-- `I2C_BASE` (R8). -/
def i2cBase : Word := 0xFE804000#32
/-- `SECSTAT_ADDR` (R8). -/
def secstatAddr : Word := 0xFE204E00#32
/-- `UART_DEFAULT_CLOCK`, 48 MHz (R7, R110). -/
def uartDefaultClock : Word := 48000000#32
/-- `IRQ_SUMMARY_BANK` (R7): the label of the bank whose bits are family summary bits. -/
def irqSummaryBank : Nat := 3

/-- Free value: the word the environment answers to its `n`-th unscripted read, at address `a` (R52, U5; log 1). -/
opaque Config.envWord : Nat → Word → Word

/-- Free value: bits 31:2 of the address of the pending word of bank 3 that the reset parameters use (R43, R135: the
address is OPEN and must be a multiple of 4; log 3). -/
opaque Config.summaryBankWord : BitVec 30

/-- A register descriptor: byte offset and permission (R12, R45). In the IRQ block, which has no base, `offset` is the
absolute address (R43). -/
structure Desc where
  offset : Word
  perm : Perm
  deriving DecidableEq, Repr

/-- The GPIO register table (R24). An entry is `none` where a parameterised table omits the register (R98). -/
structure GpioTable where
  fsel0 : Option Desc
  fsel1 : Option Desc
  fsel2 : Option Desc
  fsel3 : Option Desc
  fsel4 : Option Desc
  fsel5 : Option Desc
  set0 : Option Desc
  set1 : Option Desc
  clr0 : Option Desc
  clr1 : Option Desc
  lev0 : Option Desc
  lev1 : Option Desc
  eds0 : Option Desc
  eds1 : Option Desc
  deriving DecidableEq, Repr

/-- The UART register table (R30). -/
structure UartTable where
  dr : Desc
  fr : Desc
  ibrd : Desc
  fbrd : Desc
  lcrh : Desc
  cr : Desc
  deriving DecidableEq, Repr

/-- The I2C register table (R36). -/
structure I2cTable where
  c : Desc
  s : Desc
  dlen : Desc
  a : Desc
  fifo : Desc
  div : Desc
  clkt : Desc
  deriving DecidableEq, Repr

/-- `FSEL_CODE`: the 3-bit code of each function (R70). -/
structure FselCodes where
  input : BitVec 3
  output : BitVec 3
  alt0 : BitVec 3
  alt1 : BitVec 3
  alt2 : BitVec 3
  alt3 : BitVec 3
  alt4 : BitVec 3
  alt5 : BitVec 3
  deriving DecidableEq, Repr

/-- Line-control layout (R34, R71, D17): the low bit of each field and the codes that are not the source's. The codes of
8 bits, no parity and one stop bit (`0b11`, `0b00`, `0`) are the source's own and no parameters. -/
structure LcrhLayout where
  parShift : Nat
  stpShift : Nat
  fenShift : Nat
  wlenShift : Nat
  parOdd : BitVec 2
  parEven : BitVec 2
  wlen5 : BitVec 2
  wlen6 : BitVec 2
  wlen7 : BitVec 2
  stpTwo : BitVec 1
  deriving DecidableEq, Repr

/-- One entry of `IRQ_BANKS` (R43, R135): label, absolute address, permission. -/
structure IrqBank where
  label : Nat
  address : Word
  perm : Perm
  deriving DecidableEq, Repr

/-- One entry of `IRQ_KNOWN` (R135). -/
structure IrqKnown where
  label : Nat
  bit : Nat
  name : String
  deriving DecidableEq, Repr

/-- One entry of `IRQ_FAMILY_BIT` (R135). -/
structure IrqFamilyBit where
  bit : Nat
  family : IrqFamily
  deriving DecidableEq, Repr

/-- One sub-variant of a family in `SECSTAT` (R135, R138). -/
structure IrqVariant where
  mask : Word
  name : String
  deriving DecidableEq, Repr

/-- One entry of `IRQ_SUBVARIANT` (R135). -/
structure IrqSubvariants where
  family : IrqFamily
  variants : List IrqVariant
  deriving DecidableEq, Repr

/-- The parameters of R7. -/
structure Params where
  gpio : GpioTable
  uart : UartTable
  i2c : I2cTable
  fselCode : FselCodes
  uartFifoDepth : Nat
  uartFrTxPending : Word
  uartFrRxPending : Word
  uartFrTxff : Word
  uartTxPoll : Bool
  lcrh : LcrhLayout
  uartCrEnable : Word
  /-- `I2C_CORE_CLOCK_HZ`: R7 gives no width, and R123 takes the quotient `mod 2^32`; DESIGN CHOICE: a natural number with no
  bound (log 23). -/
  i2cCoreClockHz : Nat
  i2cCRead : Word
  i2cCClearMask : Word
  i2cCSt : Word
  i2cCI2cen : Word
  i2cSClearMask : Word
  i2cSRxd : Word
  i2cRxPoll : Bool
  i2cRxbufSize : Nat
  i2cProbeAddr : Byte
  i2cProbeBytes : List Byte
  irqBanks : List IrqBank
  secstatPerm : Perm
  irqKnown : List IrqKnown
  irqFamilyBit : List IrqFamilyBit
  irqSubvariant : List IrqSubvariants
  deriving DecidableEq, Repr

/-- Table of R24. -/
def GpioTable.default : GpioTable where
  fsel0 := some ⟨0x00#32, .readWrite⟩
  fsel1 := some ⟨0x04#32, .readWrite⟩
  fsel2 := some ⟨0x08#32, .readWrite⟩
  fsel3 := some ⟨0x0C#32, .readWrite⟩
  fsel4 := some ⟨0x10#32, .readWrite⟩
  fsel5 := some ⟨0x14#32, .readWrite⟩
  set0 := some ⟨0x1C#32, .writeOnly⟩
  set1 := some ⟨0x20#32, .writeOnly⟩
  clr0 := some ⟨0x28#32, .writeOnly⟩
  clr1 := some ⟨0x2C#32, .writeOnly⟩
  lev0 := some ⟨0x34#32, .readOnly⟩
  lev1 := some ⟨0x38#32, .readOnly⟩
  eds0 := some ⟨0x40#32, .readWrite⟩
  eds1 := some ⟨0x44#32, .readWrite⟩

/-- Table of R30. -/
def UartTable.default : UartTable where
  dr := ⟨0x00#32, .readWrite⟩
  fr := ⟨0x18#32, .readOnly⟩
  ibrd := ⟨0x24#32, .readWrite⟩
  fbrd := ⟨0x28#32, .readWrite⟩
  lcrh := ⟨0x2C#32, .readWrite⟩
  cr := ⟨0x30#32, .readWrite⟩

/-- Table of R36. -/
def I2cTable.default : I2cTable where
  c := ⟨0x00#32, .readWrite⟩
  s := ⟨0x04#32, .readWrite⟩
  dlen := ⟨0x08#32, .readWrite⟩
  a := ⟨0x0C#32, .readWrite⟩
  fifo := ⟨0x10#32, .readWrite⟩
  div := ⟨0x14#32, .readWrite⟩
  clkt := ⟨0x1C#32, .readWrite⟩

/-- Table of R70. -/
def FselCodes.default : FselCodes where
  input := 0b000#3
  output := 0b001#3
  alt0 := 0b100#3
  alt1 := 0b101#3
  alt2 := 0b110#3
  alt3 := 0b111#3
  alt4 := 0b011#3
  alt5 := 0b010#3

/-- Table of R71. -/
def LcrhLayout.default : LcrhLayout where
  parShift := 1
  stpShift := 3
  fenShift := 4
  wlenShift := 5
  parOdd := 0b01#2
  parEven := 0b11#2
  wlen5 := 0b00#2
  wlen6 := 0b01#2
  wlen7 := 0b10#2
  stpTwo := 1#1

/-- The defaults and suggestions of R7, R24, R30, R36, R70 to R74. The last group has none in the spec (log 3): the probe is
the one of the spec's example (R132), the one pending word is the bank R135 demands, at a free aligned address, and the
three classification tables are empty. -/
def Params.default : Params where
  gpio := .default
  uart := .default
  i2c := .default
  fselCode := .default
  uartFifoDepth := 16
  uartFrTxPending := 0x08#32
  uartFrRxPending := 0x40#32
  uartFrTxff := 0x20#32
  uartTxPoll := true
  lcrh := .default
  uartCrEnable := 0x00000301#32
  i2cCoreClockHz := 150000000
  i2cCRead := 0x00000001#32
  i2cCClearMask := 0x00000010#32
  i2cCSt := 0x00000080#32
  i2cCI2cen := 0x00008000#32
  i2cSClearMask := 0x00000302#32
  i2cSRxd := 0x00000020#32
  i2cRxPoll := true
  i2cRxbufSize := 16
  secstatPerm := .readOnly
  i2cProbeAddr := 0x50#8
  i2cProbeBytes := [0x00#8]
  irqBanks := [⟨3, Config.summaryBankWord ++ 0#2, .readOnly⟩]
  irqKnown := []
  irqFamilyBit := []
  irqSubvariant := []

/-- Descriptor of a GPIO register (R24), `none` where the table omits it (R98). -/
def GpioTable.desc (t : GpioTable) : GpioReg → Option Desc
  | .fsel0 => t.fsel0
  | .fsel1 => t.fsel1
  | .fsel2 => t.fsel2
  | .fsel3 => t.fsel3
  | .fsel4 => t.fsel4
  | .fsel5 => t.fsel5
  | .set0 => t.set0
  | .set1 => t.set1
  | .clr0 => t.clr0
  | .clr1 => t.clr1
  | .lev0 => t.lev0
  | .lev1 => t.lev1
  | .eds0 => t.eds0
  | .eds1 => t.eds1

/-- Descriptor of a UART register (R30). -/
def UartTable.desc (t : UartTable) : UartReg → Desc
  | .dr => t.dr
  | .fr => t.fr
  | .ibrd => t.ibrd
  | .fbrd => t.fbrd
  | .lcrh => t.lcrh
  | .cr => t.cr

/-- Descriptor of an I2C register (R36). -/
def I2cTable.desc (t : I2cTable) : I2cReg → Desc
  | .c => t.c
  | .s => t.s
  | .dlen => t.dlen
  | .a => t.a
  | .fifo => t.fifo
  | .div => t.div
  | .clkt => t.clkt

/-- Whether the tables of a run contain a register: R69 for the IRQ block (`idx` 255 is `SECSTAT`, so only the first 255
pending words have an `idx`, log 21), R24 for the GPIO block. -/
def Params.hasReg (p : Params) : Reg → Bool
  | .gpio r => (p.gpio.desc r).isSome
  | .uart _ => true
  | .i2c _ => true
  | .pend i => decide (i < p.irqBanks.length ∧ i < 255)
  | .secstat => true

end Sys2Proof
end

