-- ==== Sys2Proof/Machine/State.lean ====
section
/-!
DEFINITION. Sys2Proof/Machine/State.lean: the state of the PDC as plain data, its reset, and the reasons a step can stop.
R13 keeps three classes apart: PDC state, the environment, the logs; the inputs of a run (R155) stand beside them, and
`progress` is the model's own (log 5).
-/

namespace Sys2Proof.Machine

/-! ## PDC state (R14 to R21) -/

/-- A live or released pin unit (R15, R16). -/
structure PinUnit where
  index : BitVec 6
  function : PinFunction
  pull : Pull
  level : Level
  fsm : PinFsm
  deriving DecidableEq, Repr

/-- The UART unit (R17). -/
structure UartUnit where
  parity : Parity
  wordLength : WordLength
  stopBits : StopBits
  baudRate : Word
  charsWritten : BitVec 64
  released : Bool
  deriving DecidableEq, Repr

/-- The process-wide UART clock rate `UCLK` (R17). -/
inductive Uclk where
  | unresolved
  | resolved (hz : Word)
  deriving DecidableEq, Repr

/-- The I2C unit (R18). -/
structure I2cUnit where
  clockRateHz : Word
  timeoutTicks : BitVec 16
  slaveAddress : BitVec 7
  transferDirection : Direction
  dataLength : BitVec 16
  fsm : I2cFsm
  rxbuf : List Byte
  released : Bool
  deriving DecidableEq, Repr

/-- A driver manager (R19). -/
inductive Manager where
  | empty
  | registered
  deriving DecidableEq, Repr

/-- The console binding (R19). -/
inductive Console where
  | unbound
  | bound
  deriving DecidableEq, Repr

/-- The fatal-condition codes of R142. -/
inductive FatalCode where
  | invalidPin
  | i2cAddress
  | divisorOverflow
  | baudUnattainable
  | permissionViolation
  | i2cNotEnabled
  | unmappedRegister
  deriving DecidableEq, Repr

/-- The halt record (R21): the code and the value of `CP` when it was raised. -/
structure HaltRecord where
  code : FatalCode
  cp : Nat
  deriving DecidableEq, Repr

/-! ## Logs (R22, R23) -/

/-- The class of a dispatched interrupt (R140). -/
inductive IrqClass where
  | known (name : String)
  | family (family : IrqFamily) (name : String)
  deriving DecidableEq, Repr

/-- A result value of a command (R22; log 16). -/
inductive OutValue where
  /-- REG_READ: the word read (R78). -/
  | word (w : Word)
  /-- GPIO_SAMPLE, GPIO_EDGE: 1 (true) or 0 (false) (R95, R96). -/
  | bit (b : Bool)
  /-- UART_BAUD_DIV: the pair of integer and fractional divisor (R106). -/
  | divisor (ibrd fbrd : Nat)
  /-- UART_CHARS_WRITTEN (R118). -/
  | count (n : BitVec 64)
  /-- I2C_READ: the bytes read, in order (R131). -/
  | bytes (bs : List Byte)
  /-- IRQ_DISPATCH: one classified source (R140). -/
  | irq (label bit : Nat) (cls : IrqClass)
  deriving DecidableEq, Repr

/-- An entry of `OUT`: a value tagged with the `CP` of its command (R22). -/
structure OutEntry where
  cp : Nat
  value : OutValue
  deriving DecidableEq, Repr

/-- An entry of `DIAG` (R22, R152). -/
inductive Diagnostic where
  | clockDefaulted
  | fatalAt (code : FatalCode) (cp : Nat)
  deriving DecidableEq, Repr

/-- A bus event of `TRACE` (R23). -/
inductive BusEvent where
  | rd (addr value : Word)
  | wr (addr value : Word)
  deriving DecidableEq, Repr

/-! ## The environment (R52, R54) -/

/-- The store of `BackingStore` (R54): bytes by address, sorted, none listed that equals what an unlisted address reads as
(log 2). -/
abbrev Memory := List Host.Cell

/-- Everything behind the bus. `oracle`: the hardware's environment, whose answers nothing constrains (R52): `script` holds the
answers it will give next, and when it is used up the answers are free values, numbered by `drawn` (log 1).
`backingStore`: the reference environment of R54. -/
inductive Env where
  | oracle (script : List Word) (drawn : Nat)
  | backingStore (mem : Memory)
  deriving DecidableEq, Repr

/-! ## The model's own field -/

/-- How far the command at `CP` has come when an unbounded poll ended the last step (R167; log 5): nothing begun, `sent` units
transmitted, or `got` bytes received. -/
inductive Progress where
  | idle
  | uartTx (sent : Nat)
  | i2cRx (got : Nat)
  deriving DecidableEq, Repr

/-! ## The state -/

/-- The state of the machine. -/
structure State where
  -- PDC state (R13 class 1)
  pu : Vector (Option PinUnit) npin
  uart : Option UartUnit
  uclk : Uclk
  i2c : Option I2cUnit
  mgrUart : Manager
  mgrI2c : Manager
  console : Console
  cp : Nat
  halt : Option HaltRecord
  -- logs (R13 class 3)
  out : List OutEntry
  diag : List Diagnostic
  trace : List BusEvent
  -- the environment (R13 class 2)
  env : Env
  -- inputs of the run (R155)
  stream : List CmdWord
  clkFact : Option Word
  params : Params
  -- the model's own
  progress : Progress
  deriving DecidableEq, Repr

/-- The machine right after reset (R46, R153, R154): no unit exists, the clock is unresolved, the managers are empty, `CP` is 0,
nothing is halted and the logs are empty. The environment answers free values (R47, log 1); the stream is empty, the clock
fact absent and the parameters the spec's defaults until a host configures a run (logs 3, 4). -/
def State.reset : State where
  pu := Vector.replicate npin none
  uart := none
  uclk := .unresolved
  i2c := none
  mgrUart := .empty
  mgrI2c := .empty
  console := .unbound
  cp := 0
  halt := none
  out := []
  diag := []
  trace := []
  env := .oracle [] 0
  stream := []
  clkFact := none
  params := .default
  progress := .idle

/-! ## Reasons to stop -/

/-- Why there is no step. Both are the spec's (R160) and safe: the machine really makes no further step. -/
inductive Fault where
  /-- Raised by `step` when `HALT` is set: no command executes after a fatal condition (R141, R160 HALTED). Safe. -/
  | halted (record : HaltRecord)
  /-- Raised by `step` when `CP` has reached the end of the stream (R160 COMPLETED): no error, the run is over. Safe. -/
  | completed
  deriving DecidableEq, Repr

/-- `refuse(reason)` (R146): states to which the spec gives no meaning. All are safe: the model stops where the spec says a
model must stop. -/
inductive Refusal where
  /-- Raised by an arm of `exec` whose instruction has no meaning in the model; no arm does. Safe. -/
  | notModelled (mnemonic : String)
  /-- Raised by `step` on a word the decoder calls reserved, by UART_READ_BYTES (R67, R116), and by REG_READ and REG_WRITE on a
  register the tables do not hold (log 13). Safe. -/
  | reservedEncoding
  /-- Raised by the guard of R85 on an absent or released unit. Safe. -/
  | noSuchUnit
  /-- Raised by GPIO_NEW, UART_NEW and I2C_NEW on a live unit. Safe. -/
  | unitExists
  /-- Raised by the divisor computation on target baud 0 (R103); `left` is the state with the effects of the command's earlier
  lines (R143, log 7). Safe. -/
  | zeroBaud (left : State)
  /-- Raised by UART_BAUD_DIV before any clock resolution (R106). Safe. -/
  | clockUnresolved
  /-- Raised by the I2C divisor step on desired clock 0 (R123); `left` as in `zeroBaud`. Safe. -/
  | zeroClock (left : State)
  /-- Raised by I2C_READ of more bytes than the receive buffer holds (R131). Safe. -/
  | rxBufferTooSmall
  /-- Raised by `State.configure` on parameters no run may have (R56, R146). Safe. -/
  | badParameter
  /-- The reason R146 names for a model that exposes nested locking; the command set cannot write it down (R86), so nothing
  raises it. Safe. -/
  | nestedLock
  deriving DecidableEq, Repr

end Sys2Proof.Machine
end

