-- ==== Sys2Proof/Machine/Flags.lean ====
section
/-!
DEFINITION. Sys2Proof/Machine/Flags.lean: the bit tests and the bit fields of register words. The PDC has no flags register
(R13); what it tests are flag bits of words the environment answers (R32, R37, R38), and what it packs are the fields of
`FSELn` (R25), `LCRH` (R34, R71, R107) and the I2C `C` register (R37, R73).
-/

namespace Sys2Proof.Machine

/-- The bit test `(w & mask) != 0` (R92, R109, R111, R120, R129, R131). -/
def testMask (w mask : Word) : Bool := decide (w &&& mask ≠ 0#32)

/-- The level of the owned bit (R28, R95). -/
def sampledLevel (w mask : Word) : Level := if testMask w mask then .high else .low

/-- Number of a level as GPIO_SAMPLE returns it (R95). -/
def levelIsHigh : Level → Bool
  | .high => true
  | .low => false

/-! ## Function select (R70, R92) -/

/-- `FSEL_CODE(function)` (R70). -/
def fselCodeOf (codes : FselCodes) : PinFunction → BitVec 3
  | .input => codes.input
  | .output => codes.output
  | .alt0 => codes.alt0
  | .alt1 => codes.alt1
  | .alt2 => codes.alt2
  | .alt3 => codes.alt3
  | .alt4 => codes.alt4
  | .alt5 => codes.alt5

/-- Step 2 of R92: `old` with the 3 bits from bit `shift` replaced by `code`. -/
def insertField3 (old : Word) (shift : Nat) (code : BitVec 3) : Word :=
  (old &&& ~~~(0b111#32 <<< shift)) ||| (code.setWidth 32 <<< shift)

/-! ## Line control (R71, R107) -/

/-- `PAR(p)` (R71). -/
def parCode (l : LcrhLayout) : Parity → BitVec 2
  | .none => 0b00#2
  | .odd => l.parOdd
  | .even => l.parEven

/-- `WLEN(w)` (R71). -/
def wlenCode (l : LcrhLayout) : WordLength → BitVec 2
  | .five => l.wlen5
  | .six => l.wlen6
  | .seven => l.wlen7
  | .eight => 0b11#2

/-- `STP2(s)` (R71). -/
def stpCode (l : LcrhLayout) : StopBits → BitVec 1
  | .one => 0#1
  | .two => l.stpTwo

/-- `LCRH_FIELDS_MASK` (R71). -/
def lcrhFieldsMask (l : LcrhLayout) : Word :=
  (0b11#32 <<< l.parShift) ||| (0b1#32 <<< l.stpShift) ||| (0b11#32 <<< l.wlenShift)

/-- `LCRH_FEN` (R71). -/
def lcrhFen (l : LcrhLayout) : Word := 1#32 <<< l.fenShift

/-- `LCRH_PACK(p, w, s)` (R71). -/
def lcrhPack (l : LcrhLayout) (p : Parity) (w : WordLength) (s : StopBits) : Word :=
  ((parCode l p).setWidth 32 <<< l.parShift) ||| ((stpCode l s).setWidth 32 <<< l.stpShift) |||
    ((wlenCode l w).setWidth 32 <<< l.wlenShift)

/-- `lcrh_apply(l, p, w, s)` (R107). -/
def lcrhApply (l : LcrhLayout) (old : Word) (p : Parity) (w : WordLength) (s : StopBits) : Word :=
  (old &&& ~~~(lcrhFieldsMask l)) ||| lcrhPack l p w s

/-! ## I2C control (R125) -/

/-- The control word with the direction bit forced (R125). -/
def withDirection (readMask c : Word) : Direction → Word
  | .read => c ||| readMask
  | .write => c &&& ~~~readMask

end Sys2Proof.Machine
end

