-- ==== Sys2Proof/Syntax.lean ====
section
/-!
DEFINITION. Sys2Proof/Syntax.lean: the commands of the PDC, one constructor per row of spec/opcode_table.json, in the
table's order (R66). Operands are typed as R64 and R68 give them; a pin index and an I2C address keep their 8 bits, so that
the fatal checks of R91 and R124 are reachable.
-/

namespace Sys2Proof

/-- A command (R2, R66). -/
inductive Instr where
  /-- REG_READ (R78). -/
  | regRead (r : Reg)
  /-- REG_WRITE (R79). -/
  | regWrite (r : Reg) (v : Word)
  /-- MGR_REGISTER (R82). -/
  | mgrRegister (t : DriverType)
  /-- MGR_INIT_ALL (R83). -/
  | mgrInitAll (t : DriverType)
  /-- CONSOLE_BIND (R81). -/
  | consoleBind
  /-- GPIO_NEW (R91). -/
  | gpioNew (pin : Byte) (f : PinFunction) (pull : Pull) (level : Level)
  /-- GPIO_INIT (R92). -/
  | gpioInit (pin : Byte)
  /-- GPIO_SET (R93). -/
  | gpioSet (pin : Byte)
  /-- GPIO_CLR (R94). -/
  | gpioClr (pin : Byte)
  /-- GPIO_SAMPLE (R95). -/
  | gpioSample (pin : Byte)
  /-- GPIO_EDGE (R96). -/
  | gpioEdge (pin : Byte)
  /-- GPIO_RELEASE (R97). -/
  | gpioRelease (pin : Byte)
  /-- UART_NEW (R102). -/
  | uartNew (parity : Parity) (wlen : WordLength) (stop : StopBits) (baud : Word)
  /-- UART_RESOLVE_CLK (R110). -/
  | uartResolveClk
  /-- UART_BAUD_DIV (R106). -/
  | uartBaudDiv (target : Word)
  /-- UART_LINE_CTL (R108); an omitted setting is `none`. -/
  | uartLineCtl (parity : Option Parity) (wlen : Option WordLength) (stop : Option StopBits)
  /-- UART_FLUSH (R109). -/
  | uartFlush
  /-- UART_WRITE_CHAR (R114). -/
  | uartWriteChar (byte : Byte)
  /-- UART_WRITE_BYTES (R117). -/
  | uartWriteBytes (bytes : List Byte)
  /-- UART_INIT (R115). -/
  | uartInit
  /-- UART_CHARS_WRITTEN (R118). -/
  | uartCharsWritten
  /-- UART_READ_BYTES, reserved by name (R116): `rest` is the word's bits 55:0, to which the spec gives no meaning (log 8). -/
  | uartReadBytes (rest : BitVec 56)
  /-- UART_RELEASE (R119). -/
  | uartRelease
  /-- I2C_NEW (R122). -/
  | i2cNew (timeout : BitVec 16) (clock : Word)
  /-- I2C_SET_DIV (R123). -/
  | i2cSetDiv
  /-- I2C_SET_ADDR (R124). -/
  | i2cSetAddr (addr : Byte)
  /-- I2C_SET_DIR (R125). -/
  | i2cSetDir (dir : Direction)
  /-- I2C_WRITE (R130). -/
  | i2cWrite (addr : Byte) (bytes : List Byte)
  /-- I2C_READ (R131). -/
  | i2cRead (addr : Byte) (n : BitVec 16)
  /-- I2C_INIT (R132). -/
  | i2cInit
  /-- I2C_RELEASE (R133). -/
  | i2cRelease
  /-- IRQ_DISPATCH (R136). -/
  | irqDispatch
  deriving DecidableEq, Repr

end Sys2Proof
end

