-- ==== Sys2Proof/Decode.lean ====
section
/-!
DEFINITION. Sys2Proof/Decode.lean: the decoder (R63 to R69), total on any command words and rejecting by name, and after it
the encoder, written from the same tables.
-/

namespace Sys2Proof

/-! ## Header fields (R64) -/

/-- Field `OP`, bits 63:56. -/
def opField (w : CmdWord) : Byte := w.extractLsb' 56 8
/-- Field `A`, bits 55:48. -/
def aField (w : CmdWord) : Byte := w.extractLsb' 48 8
/-- Field `B`, bits 47:32. -/
def bField (w : CmdWord) : BitVec 16 := w.extractLsb' 32 16
/-- Field `C`, bits 31:0. -/
def cField (w : CmdWord) : Word := w.extractLsb' 0 32

/-- The header `{OP, A, B, C}` (R64). -/
def header (op a : Byte) (b : BitVec 16) (c : Word) : CmdWord := op ++ a ++ b ++ c

/-! ## Verdicts of the decoder (R67) -/

/-- Why a word is reserved: the items of R67, in its order. -/
inductive ReservedWhy where
  /-- Item 1: `OP` is not in the table of R66. -/
  | unknownOpcode
  /-- Item 3: a field or sub-field that must be zero is not. -/
  | nonzeroUnused
  /-- Item 4: a variant code or a register index is out of range. -/
  | badVariant
  /-- Item 5: a UART_LINE_CTL value is given without its presence bit. -/
  | absentValueGiven
  /-- Item 6: a payload is cut short, or a padding byte is not zero; also no word at all. -/
  | badPayload
  deriving DecidableEq, Repr

/-- The decoder's answer: a command and its length in words, or `reserved`. Opcode `0x39` (item 2 of R67) answers the command
reserved by name, whose execution is refused (R116, log 8). -/
inductive DecodeResult where
  | command (i : Instr) (len : Nat)
  | reserved (why : ReservedWhy)
  deriving DecidableEq, Repr

/-! ## Variant codes (R68) and register numbers (R69) -/

/-- `idx` column of R24. -/
def GpioReg.ofIdx (k : Byte) : Option GpioReg :=
  match k.toNat with
  | 0 => some .fsel0
  | 1 => some .fsel1
  | 2 => some .fsel2
  | 3 => some .fsel3
  | 4 => some .fsel4
  | 5 => some .fsel5
  | 6 => some .set0
  | 7 => some .set1
  | 8 => some .clr0
  | 9 => some .clr1
  | 10 => some .lev0
  | 11 => some .lev1
  | 12 => some .eds0
  | 13 => some .eds1
  | _ => none

/-- `idx` column of R30. -/
def UartReg.ofIdx (k : Byte) : Option UartReg :=
  match k.toNat with
  | 0 => some .dr
  | 1 => some .fr
  | 2 => some .ibrd
  | 3 => some .fbrd
  | 4 => some .lcrh
  | 5 => some .cr
  | _ => none

/-- `idx` column of R36. -/
def I2cReg.ofIdx (k : Byte) : Option I2cReg :=
  match k.toNat with
  | 0 => some .c
  | 1 => some .s
  | 2 => some .dlen
  | 3 => some .a
  | 4 => some .fifo
  | 5 => some .div
  | 6 => some .clkt
  | _ => none

/-- `idx` of the IRQ block (R43): 255 is `SECSTAT`, any other number a pending word. -/
def irqRegOfIdx (k : Byte) : Reg := if k = 255#8 then .secstat else .pend k.toNat

/-- The register that `blk` and `idx` number, before the tables of the run are asked (R68, R69). -/
def regOfCode (blk idx : Byte) : Option Reg :=
  match blk.toNat with
  | 0 => (GpioReg.ofIdx idx).map .gpio
  | 1 => (UartReg.ofIdx idx).map .uart
  | 2 => (I2cReg.ofIdx idx).map .i2c
  | 3 => some (irqRegOfIdx idx)
  | _ => none

/-- `type` code (R68). -/
def driverTypeOf (a : Byte) : Option DriverType :=
  match a.toNat with
  | 0 => some .uart
  | 1 => some .i2c
  | _ => none

/-- Function code (R68). -/
def pinFunctionOf (k : BitVec 3) : PinFunction :=
  match k.toNat with
  | 0 => .input
  | 1 => .output
  | 2 => .alt0
  | 3 => .alt1
  | 4 => .alt2
  | 5 => .alt3
  | 6 => .alt4
  | _ => .alt5

/-- Pull code (R68); 3 is reserved. -/
def pullOf (k : BitVec 2) : Option Pull :=
  match k.toNat with
  | 0 => some .none
  | 1 => some .up
  | 2 => some .down
  | _ => none

/-- Level code (R68). -/
def levelOf (k : BitVec 1) : Level := if k = 1#1 then .high else .low

/-- Parity code (R68); 3 is reserved. -/
def parityOf (k : BitVec 2) : Option Parity :=
  match k.toNat with
  | 0 => some .none
  | 1 => some .odd
  | 2 => some .even
  | _ => none

/-- Word-length code (R68). -/
def wordLengthOf (k : BitVec 2) : WordLength :=
  match k.toNat with
  | 0 => .five
  | 1 => .six
  | 2 => .seven
  | _ => .eight

/-- Stop-bit code (R68). -/
def stopBitsOf (k : BitVec 1) : StopBits := if k = 1#1 then .two else .one

/-- Direction code (R68). -/
def directionOf (k : BitVec 1) : Direction := if k = 1#1 then .read else .write

/-! ## Payload (R65) -/

/-- `ceil(n / 8)`, the number of payload words of `n` bytes. -/
def payloadWords (n : Nat) : Nat := (n + 7) / 8

/-- The 8 bytes of a payload word, least significant first. -/
def wordBytes (w : CmdWord) : List Byte :=
  [w.extractLsb' 0 8, w.extractLsb' 8 8, w.extractLsb' 16 8, w.extractLsb' 24 8,
   w.extractLsb' 32 8, w.extractLsb' 40 8, w.extractLsb' 48 8, w.extractLsb' 56 8]

/-- The `n` payload bytes that stand in the words after the header; `none` where the words are too few or a padding byte is
not zero (R67 item 6). -/
def payloadOf (n : Nat) (rest : List CmdWord) : Option (List Byte) :=
  if payloadWords n ≤ rest.length then
    let bytes := (rest.take (payloadWords n)).flatMap wordBytes
    if (bytes.drop n).all (· = 0#8) then some (bytes.take n) else none
  else none

/-! ## The decoder -/

/-- A command of one word: reserved unless its unused fields are zero (R67 item 3). -/
def unusedZero (zero : Bool) (i : Instr) : DecodeResult :=
  if zero then .command i 1 else .reserved .nonzeroUnused

/-- A command with a variant operand: reserved where the code names no variant (R67 item 4). -/
def withVariant {α : Type} (zero : Bool) (v : Option α) (i : α → Instr) : DecodeResult :=
  if zero then
    match v with
    | some x => .command (i x) 1
    | none => .reserved .badVariant
  else .reserved .nonzeroUnused

/-- A register operand of REG_READ and REG_WRITE: `blk` in `A`, `idx` in `B[7:0]`, in the tables of the run (R69). -/
def regOperand (p : Params) (a : Byte) (b : BitVec 16) : Option Reg :=
  (regOfCode a (b.extractLsb' 0 8)).filter p.hasReg

/-- A command with a payload (R65, R67 item 6). -/
def withPayload (zero : Bool) (n : Nat) (rest : List CmdWord) (i : List Byte → Instr) : DecodeResult :=
  if zero then
    match payloadOf n rest with
    | some bytes => .command (i bytes) (1 + payloadWords n)
    | none => .reserved .badPayload
  else .reserved .nonzeroUnused

/-- An optional setting of UART_LINE_CTL: outer `none` where the value is given without its presence bit (R67 item 5). -/
def optionalSetting {n : Nat} {α : Type} (given : Bool) (code : BitVec n) (v : α) : Option (Option α) :=
  if given then some (some v) else if code = 0#n then some none else none

/-- UART_LINE_CTL (R66, R67 items 3 to 5). -/
def decodeLineCtl (a : Byte) (b : BitVec 16) (c : Word) : DecodeResult :=
  let pk := a.extractLsb' 0 2
  let wk := a.extractLsb' 2 2
  let sk := a.extractLsb' 4 1
  if a.extractLsb' 5 3 = 0#3 ∧ b.extractLsb' 3 13 = 0#13 ∧ c = 0#32 then
    match parityOf pk with
    | none => .reserved .badVariant
    | some parity =>
      match optionalSetting (b.getLsbD 0) pk parity, optionalSetting (b.getLsbD 1) wk (wordLengthOf wk),
          optionalSetting (b.getLsbD 2) sk (stopBitsOf sk) with
      | some p, some w, some s => .command (.uartLineCtl p w s) 1
      | _, _, _ => .reserved .absentValueGiven
  else .reserved .nonzeroUnused

/-- UART_NEW (R66, R67 items 3 and 4). -/
def decodeUartNew (a : Byte) (b : BitVec 16) (c : Word) : DecodeResult :=
  withVariant (a.extractLsb' 5 3 = 0#3 ∧ b = 0#16) (parityOf (a.extractLsb' 0 2)) fun parity =>
    .uartNew parity (wordLengthOf (a.extractLsb' 2 2)) (stopBitsOf (a.extractLsb' 4 1)) c

/-- GPIO_NEW (R66, R67 items 3 and 4). -/
def decodeGpioNew (a : Byte) (b : BitVec 16) (c : Word) : DecodeResult :=
  withVariant (b.extractLsb' 6 10 = 0#10 ∧ c = 0#32) (pullOf (b.extractLsb' 3 2)) fun pull =>
    .gpioNew a (pinFunctionOf (b.extractLsb' 0 3)) pull (levelOf (b.extractLsb' 5 1))

/-- The opcode map (R66), on the fields of the header and the words after it. -/
def decodeFields (p : Params) (op a : Byte) (b : BitVec 16) (c : Word) (rest : List CmdWord) : DecodeResult :=
  match op.toNat with
  | 0x01 => withVariant (b.extractLsb' 8 8 = 0#8 ∧ c = 0#32) (regOperand p a b) .regRead
  | 0x02 => withVariant (b.extractLsb' 8 8 = 0#8) (regOperand p a b) fun r => .regWrite r c
  | 0x10 => withVariant (b = 0#16 ∧ c = 0#32) (driverTypeOf a) .mgrRegister
  | 0x11 => withVariant (b = 0#16 ∧ c = 0#32) (driverTypeOf a) .mgrInitAll
  | 0x12 => unusedZero (a = 0#8 ∧ b = 0#16 ∧ c = 0#32) .consoleBind
  | 0x20 => decodeGpioNew a b c
  | 0x21 => unusedZero (b = 0#16 ∧ c = 0#32) (.gpioInit a)
  | 0x22 => unusedZero (b = 0#16 ∧ c = 0#32) (.gpioSet a)
  | 0x23 => unusedZero (b = 0#16 ∧ c = 0#32) (.gpioClr a)
  | 0x24 => unusedZero (b = 0#16 ∧ c = 0#32) (.gpioSample a)
  | 0x25 => unusedZero (b = 0#16 ∧ c = 0#32) (.gpioEdge a)
  | 0x26 => unusedZero (b = 0#16 ∧ c = 0#32) (.gpioRelease a)
  | 0x30 => decodeUartNew a b c
  | 0x31 => unusedZero (a = 0#8 ∧ b = 0#16 ∧ c = 0#32) .uartResolveClk
  | 0x32 => unusedZero (a = 0#8 ∧ b = 0#16) (.uartBaudDiv c)
  | 0x33 => decodeLineCtl a b c
  | 0x34 => unusedZero (a = 0#8 ∧ b = 0#16 ∧ c = 0#32) .uartFlush
  | 0x35 => unusedZero (b = 0#16 ∧ c = 0#32) (.uartWriteChar a)
  | 0x36 => withPayload (a = 0#8 ∧ c = 0#32) b.toNat rest .uartWriteBytes
  | 0x37 => unusedZero (a = 0#8 ∧ b = 0#16 ∧ c = 0#32) .uartInit
  | 0x38 => unusedZero (a = 0#8 ∧ b = 0#16 ∧ c = 0#32) .uartCharsWritten
  | 0x39 => .command (.uartReadBytes (a ++ b ++ c)) 1
  | 0x3A => unusedZero (a = 0#8 ∧ b = 0#16 ∧ c = 0#32) .uartRelease
  | 0x40 => unusedZero (a = 0#8) (.i2cNew b c)
  | 0x41 => unusedZero (a = 0#8 ∧ b = 0#16 ∧ c = 0#32) .i2cSetDiv
  | 0x42 => unusedZero (b = 0#16 ∧ c = 0#32) (.i2cSetAddr a)
  | 0x43 => unusedZero (a.extractLsb' 1 7 = 0#7 ∧ b = 0#16 ∧ c = 0#32) (.i2cSetDir (directionOf (a.extractLsb' 0 1)))
  | 0x44 => withPayload (c = 0#32) b.toNat rest (.i2cWrite a)
  | 0x45 => unusedZero (c = 0#32) (.i2cRead a b)
  | 0x46 => unusedZero (a = 0#8 ∧ b = 0#16 ∧ c = 0#32) .i2cInit
  | 0x47 => unusedZero (a = 0#8 ∧ b = 0#16 ∧ c = 0#32) .i2cRelease
  | 0x50 => unusedZero (a = 0#8 ∧ b = 0#16 ∧ c = 0#32) .irqDispatch
  | _ => .reserved .unknownOpcode

/-- The decoder: the command that stands at the head of the remaining stream (R63, R67), in a run with parameters `p`. -/
def decode (p : Params) : List CmdWord → DecodeResult
  | [] => .reserved .badPayload
  | w :: rest => decodeFields p (opField w) (aField w) (bField w) (cField w) rest

/-- The spec's own verdict (R67): opcode `0x39` counts as reserved (item 2). -/
def DecodeResult.isReserved : DecodeResult → Bool
  | .command (.uartReadBytes _) _ => true
  | .command _ _ => false
  | .reserved _ => true

/-! ## The encoder -/

/-- `idx` of a GPIO register (R24). -/
def GpioReg.idx : GpioReg → Byte
  | .fsel0 => 0#8
  | .fsel1 => 1#8
  | .fsel2 => 2#8
  | .fsel3 => 3#8
  | .fsel4 => 4#8
  | .fsel5 => 5#8
  | .set0 => 6#8
  | .set1 => 7#8
  | .clr0 => 8#8
  | .clr1 => 9#8
  | .lev0 => 10#8
  | .lev1 => 11#8
  | .eds0 => 12#8
  | .eds1 => 13#8

/-- `idx` of a UART register (R30). -/
def UartReg.idx : UartReg → Byte
  | .dr => 0#8
  | .fr => 1#8
  | .ibrd => 2#8
  | .fbrd => 3#8
  | .lcrh => 4#8
  | .cr => 5#8

/-- `idx` of an I2C register (R36). -/
def I2cReg.idx : I2cReg → Byte
  | .c => 0#8
  | .s => 1#8
  | .dlen => 2#8
  | .a => 3#8
  | .fifo => 4#8
  | .div => 5#8
  | .clkt => 6#8

/-- `blk` of a register (R68). -/
def Reg.blk : Reg → Byte
  | .gpio _ => 0#8
  | .uart _ => 1#8
  | .i2c _ => 2#8
  | .pend _ => 3#8
  | .secstat => 3#8

/-- `idx` of a register in its block (R69). -/
def Reg.idx : Reg → Byte
  | .gpio r => r.idx
  | .uart r => r.idx
  | .i2c r => r.idx
  | .pend i => BitVec.ofNat 8 i
  | .secstat => 255#8

/-- `type` code (R68). -/
def DriverType.code : DriverType → Byte
  | .uart => 0#8
  | .i2c => 1#8

/-- Function code (R68). -/
def PinFunction.code : PinFunction → BitVec 3
  | .input => 0#3
  | .output => 1#3
  | .alt0 => 2#3
  | .alt1 => 3#3
  | .alt2 => 4#3
  | .alt3 => 5#3
  | .alt4 => 6#3
  | .alt5 => 7#3

/-- Pull code (R68). -/
def Pull.code : Pull → BitVec 2
  | .none => 0#2
  | .up => 1#2
  | .down => 2#2

/-- Level code (R68). -/
def Level.code : Level → BitVec 1
  | .low => 0#1
  | .high => 1#1

/-- Parity code (R68). -/
def Parity.code : Parity → BitVec 2
  | .none => 0#2
  | .odd => 1#2
  | .even => 2#2

/-- Word-length code (R68). -/
def WordLength.code : WordLength → BitVec 2
  | .five => 0#2
  | .six => 1#2
  | .seven => 2#2
  | .eight => 3#2

/-- Stop-bit code (R68). -/
def StopBits.code : StopBits → BitVec 1
  | .one => 0#1
  | .two => 1#1

/-- Direction code (R68). -/
def Direction.code : Direction → BitVec 1
  | .write => 0#1
  | .read => 1#1

/-- Field `A` of the line settings: parity in bits 1:0, word length in 3:2, stop bits in 4 (R66). -/
def lineField (pk wk : BitVec 2) (sk : BitVec 1) : Byte := 0#3 ++ sk ++ wk ++ pk

/-- One payload word of up to 8 bytes, padded with zero bytes (R65). -/
def packWord (bytes : List Byte) : CmdWord :=
  bytes.getD 7 0#8 ++ bytes.getD 6 0#8 ++ bytes.getD 5 0#8 ++ bytes.getD 4 0#8 ++
    bytes.getD 3 0#8 ++ bytes.getD 2 0#8 ++ bytes.getD 1 0#8 ++ bytes.getD 0 0#8

/-- `k` payload words of a byte string. -/
def packWords : Nat → List Byte → List CmdWord
  | 0, _ => []
  | k + 1, bytes => packWord (bytes.take 8) :: packWords k (bytes.drop 8)

/-- The payload words of a byte string (R65). -/
def packPayload (bytes : List Byte) : List CmdWord := packWords (payloadWords bytes.length) bytes

/-- The words of a well-formed command (R64, R65, R66). -/
def encode : Instr → List CmdWord
  | .regRead r => [header 0x01#8 r.blk (0#8 ++ r.idx) 0#32]
  | .regWrite r v => [header 0x02#8 r.blk (0#8 ++ r.idx) v]
  | .mgrRegister t => [header 0x10#8 t.code 0#16 0#32]
  | .mgrInitAll t => [header 0x11#8 t.code 0#16 0#32]
  | .consoleBind => [header 0x12#8 0#8 0#16 0#32]
  | .gpioNew pin f pull level => [header 0x20#8 pin (0#10 ++ level.code ++ pull.code ++ f.code) 0#32]
  | .gpioInit pin => [header 0x21#8 pin 0#16 0#32]
  | .gpioSet pin => [header 0x22#8 pin 0#16 0#32]
  | .gpioClr pin => [header 0x23#8 pin 0#16 0#32]
  | .gpioSample pin => [header 0x24#8 pin 0#16 0#32]
  | .gpioEdge pin => [header 0x25#8 pin 0#16 0#32]
  | .gpioRelease pin => [header 0x26#8 pin 0#16 0#32]
  | .uartNew parity wlen stop baud => [header 0x30#8 (lineField parity.code wlen.code stop.code) 0#16 baud]
  | .uartResolveClk => [header 0x31#8 0#8 0#16 0#32]
  | .uartBaudDiv target => [header 0x32#8 0#8 0#16 target]
  | .uartLineCtl parity wlen stop =>
    [header 0x33#8
      (lineField ((parity.map Parity.code).getD 0#2) ((wlen.map WordLength.code).getD 0#2)
        ((stop.map StopBits.code).getD 0#1))
      (0#13 ++ BitVec.ofBool stop.isSome ++ BitVec.ofBool wlen.isSome ++ BitVec.ofBool parity.isSome) 0#32]
  | .uartFlush => [header 0x34#8 0#8 0#16 0#32]
  | .uartWriteChar byte => [header 0x35#8 byte 0#16 0#32]
  | .uartWriteBytes bytes => header 0x36#8 0#8 (BitVec.ofNat 16 bytes.length) 0#32 :: packPayload bytes
  | .uartInit => [header 0x37#8 0#8 0#16 0#32]
  | .uartCharsWritten => [header 0x38#8 0#8 0#16 0#32]
  | .uartReadBytes rest => [0x39#8 ++ rest]
  | .uartRelease => [header 0x3A#8 0#8 0#16 0#32]
  | .i2cNew timeout clock => [header 0x40#8 0#8 timeout clock]
  | .i2cSetDiv => [header 0x41#8 0#8 0#16 0#32]
  | .i2cSetAddr addr => [header 0x42#8 addr 0#16 0#32]
  | .i2cSetDir dir => [header 0x43#8 (0#7 ++ dir.code) 0#16 0#32]
  | .i2cWrite addr bytes => header 0x44#8 addr (BitVec.ofNat 16 bytes.length) 0#32 :: packPayload bytes
  | .i2cRead addr n => [header 0x45#8 addr n 0#32]
  | .i2cInit => [header 0x46#8 0#8 0#16 0#32]
  | .i2cRelease => [header 0x47#8 0#8 0#16 0#32]
  | .irqDispatch => [header 0x50#8 0#8 0#16 0#32]

/-- Length of a command in words (R65). -/
def Instr.len : Instr → Nat
  | .uartWriteBytes bytes => 1 + payloadWords bytes.length
  | .i2cWrite _ bytes => 1 + payloadWords bytes.length
  | _ => 1

/-! ## Words laid out from a number -/

/-- Command words the header announces after itself, read from `OP` and `B` alone (R65). -/
def announcedPayload (w : CmdWord) : Nat :=
  if opField w = 0x36#8 ∨ opField w = 0x44#8 then payloadWords (bField w).toNat else 0

/-- `k` command words of the number `w`, the first word from its lowest 64 bits. -/
def wordsOfNat : Nat → Nat → List CmdWord
  | 0, _ => []
  | k + 1, w => BitVec.ofNat 64 w :: wordsOfNat k (w / 2 ^ 64)

/-- The words of the instruction whose low `nbits` bits are `w` and whose other bits are 0: its header and every payload word
the header announces. -/
def instrWords (nbits w : Nat) : List CmdWord :=
  let w' := w % 2 ^ nbits
  wordsOfNat (1 + announcedPayload (BitVec.ofNat 64 w')) w'

/-- The instruction the decoder reads from a row's word, in a run with the spec's default parameters (log 3, log 22). -/
def decodeTableWord (nbits w : Nat) : Option Instr :=
  match decode Params.default (instrWords nbits w) with
  | .command i _ => some i
  | .reserved _ => none

end Sys2Proof
end

