-- ==== Sys2Proof/Machine/Operands.lean ====
section
/-!
DEFINITION. Sys2Proof/Machine/Operands.lean: what the operands of a command name and the arithmetic on them: the register of a
block and its effective address (R50, R171), the banking arithmetic of a pin (R89, R90), the newline expansion (R112) and the
divisors (R103, R104, R123; R172).
-/

namespace Sys2Proof.Machine

/-! ## Registers (R50, R171) -/

/-- Where a register stands on the bus and what may be done with it: its effective address and its permission. -/
structure Port where
  addr : Word
  perm : Perm
  deriving DecidableEq, Repr

/-- The port of a register: `base(blk) + byteOffset(reg)` in 32 bits, and the absolute address in the IRQ block (R43, R50).
`none` where the tables of the run do not hold the register. -/
def portOf (p : Params) : Reg → Option Port
  | .gpio r => (p.gpio.desc r).map fun d => ⟨gpioBase + d.offset, d.perm⟩
  | .uart r => some ⟨uartBase + (p.uart.desc r).offset, (p.uart.desc r).perm⟩
  | .i2c r => some ⟨i2cBase + (p.i2c.desc r).offset, (p.i2c.desc r).perm⟩
  | .pend i => p.irqBanks[i]?.map fun b => ⟨b.address, b.perm⟩
  | .secstat => some ⟨secstatAddr, p.secstatPerm⟩

/-! ## Banking (R89, R90) -/

/-- The function-select register of bank `n` (R89), for `n` of 0 to 5. -/
def fselBank (n : Nat) : GpioReg :=
  match n with
  | 0 => .fsel0
  | 1 => .fsel1
  | 2 => .fsel2
  | 3 => .fsel3
  | 4 => .fsel4
  | _ => .fsel5

/-- `fsel_reg(p)` (R89). -/
def fselReg (pin : Byte) : Reg := .gpio (fselBank (pin.toNat / 10))

/-- `fsel_shift(p)` (R89). -/
def fselShift (pin : Byte) : Nat := (pin.toNat % 10) * 3

/-- `fsel_mask(p)` (R89). -/
def fselMask (pin : Byte) : Word := 0b111#32 <<< fselShift pin

/-- The low-bank and the high-bank register of a kind (R90). -/
def bankPair : BankKind → GpioReg × GpioReg
  | .set => (.set0, .set1)
  | .clr => (.clr0, .clr1)
  | .lev => (.lev0, .lev1)
  | .eds => (.eds0, .eds1)

/-- `bank_reg(K, p)` (R90). -/
def bankReg (k : BankKind) (pin : Byte) : Reg :=
  .gpio (if pin.toNat < 32 then (bankPair k).1 else (bankPair k).2)

/-- `bank_bit(p)` (R90). -/
def bankBit (pin : Byte) : Nat := if pin.toNat < 32 then pin.toNat else pin.toNat - 32

/-- `bank_mask(p)` (R90). -/
def bankMask (pin : Byte) : Word := 1#32 <<< bankBit pin

/-- The register kind that asserts a level (R92 step 1). -/
def assertKind : Level → BankKind
  | .high => .set
  | .low => .clr

/-! ## Bytes to transmit (R112) -/

/-- `put(b)`: the units a byte goes out as (R112). -/
def unitsOf (b : Byte) : List Byte := if b = 0x0A#8 then [0x0D#8, 0x0A#8] else [b]

/-- The units a byte string goes out as, in order (R112, R117). -/
def expandNewlines (bytes : List Byte) : List Byte := bytes.flatMap unitsOf

/-! ## Divisors (R103, R104, R123) -/

/-- `ibrd` of R103, for `target` not 0. -/
def baudInteger (clock target : Nat) : Nat := clock / (16 * target)

/-- `fbrd` of R103: the fraction in 64ths, an exact half rounded up; 0 to 64. -/
def baudFraction (clock target : Nat) : Nat :=
  (128 * (clock % (16 * target)) + 16 * target) / (2 * (16 * target))

/-- `N` of R103: the divisor in 64ths. -/
def baudSixtyFourths (clock target : Nat) : Nat := 64 * baudInteger clock target + baudFraction clock target

/-- The accuracy check of R104: the divisor is not 0 and the achieved baud is within 1/64 of the target. -/
def baudAccurate (clock target : Nat) : Bool :=
  let n := baudSixtyFourths clock target
  decide (n ≠ 0 ∧ 64 * ((4 * clock : Int) - target * n).natAbs ≤ target * n)

/-- The I2C divisor of R123, for a desired clock that is not 0. -/
def i2cDivisor (core desired : Nat) : Word := BitVec.ofNat 32 (core / desired)

end Sys2Proof.Machine
end

