-- ==== Sys2Proof/Machine/Ops.lean ====
section
/-!
DEFINITION. Sys2Proof/Machine/Ops.lean: the operations every command is written over: the store of the reference environment,
bus reads and writes, the permission-checked register accesses, the guards, the logs, taking a fatal condition, and the
completion of a command.
-/

namespace Sys2Proof.Machine

/-! ## The store of BackingStore (R54; log 2) -/

/-- What an unlisted byte reads as (95_test_vectors.md, Conventions: a word not listed is 0; log 2). -/
def unlistedByte : Byte := 0#8

/-- The byte at an address. -/
def readByte : Memory → Nat → Byte
  | [], _ => unlistedByte
  | (k, v) :: rest, a => if a = k then v else if a < k then unlistedByte else readByte rest a

/-- Write one byte, keeping the canonical form. -/
def writeByte : Memory → Nat → Byte → Memory
  | [], a, b => if b = unlistedByte then [] else [(a, b)]
  | (k, v) :: rest, a, b =>
    if a < k then (if b = unlistedByte then (k, v) :: rest else (a, b) :: (k, v) :: rest)
    else if a = k then (if b = unlistedByte then rest else (a, b) :: rest)
    else (k, v) :: writeByte rest a b

/-- The canonical form: addresses strictly rising and below 2^32 (R48), and no byte listed that equals the unlisted one. -/
def memoryWf : Memory → Bool
  | [] => true
  | [(a, b)] => decide (a < 2 ^ 32 ∧ b ≠ unlistedByte)
  | (a, b) :: (a', b') :: rest => decide (a < a' ∧ b ≠ unlistedByte) && memoryWf ((a', b') :: rest)

/-- Address of byte `i` of the word at `addr`, in the 32-bit address space (R48). -/
def byteAddr (addr : Word) (i : Nat) : Nat := (addr.toNat + i) % 2 ^ 32

/-- The word at an address, little-endian (R58). -/
def readWord (m : Memory) (addr : Word) : Word :=
  readByte m (byteAddr addr 3) ++ readByte m (byteAddr addr 2) ++ readByte m (byteAddr addr 1) ++
    readByte m (byteAddr addr 0)

/-- Store a word, little-endian (R58). -/
def writeWord (m : Memory) (addr v : Word) : Memory :=
  writeByte (writeByte (writeByte (writeByte m (byteAddr addr 0) (v.extractLsb' 0 8)) (byteAddr addr 1) (v.extractLsb' 8 8))
    (byteAddr addr 2) (v.extractLsb' 16 8)) (byteAddr addr 3) (v.extractLsb' 24 8)

/-! ## The environment (R52, R54) -/

/-- The word the environment answers to a read of `addr` (R52, R54). -/
def envAnswer (e : Env) (addr : Word) : Word :=
  match e with
  | .oracle (w :: _) _ => w
  | .oracle [] n => Config.envWord n addr
  | .backingStore m => readWord m addr

/-- The environment after it has answered a read (R52). -/
def envAfterRead (e : Env) : Env :=
  match e with
  | .oracle (_ :: rest) n => .oracle rest n
  | .oracle [] n => .oracle [] (n + 1)
  | .backingStore m => .backingStore m

/-- The environment after a write (R54; a write constrains no later answer of the oracle, R52). -/
def envAfterWrite (e : Env) (addr v : Word) : Env :=
  match e with
  | .oracle script n => .oracle script n
  | .backingStore m => .backingStore (writeWord m addr v)

/-- The memory of the machine: the store of BackingStore; the hardware's environment exposes none (R48, R52). -/
def State.memory (s : State) : Memory :=
  match s.env with
  | .oracle _ _ => []
  | .backingStore m => m

/-! ## Running a command -/

/-- The refusals that commands raise (R146). -/
inductive RefuseWhy where
  | reservedEncoding
  | noSuchUnit
  | unitExists
  | zeroBaud
  | clockUnresolved
  | zeroClock
  | rxBufferTooSmall
  deriving DecidableEq, Repr

/-- Why the lines of a command stop before the last: a fatal condition (R141), a refusal (R146), or a poll read that did not
satisfy its poll, after which the next step polls again (R167; log 5). -/
inductive Stop where
  | fatal (code : FatalCode)
  | refuse (why : RefuseWhy)
  | poll
  deriving DecidableEq, Repr

/-- The lines of a command: they run on the state in order, and what they did before a stop stands (R141). -/
abbrev Cmd := EStateM Stop State

/-- The current state. -/
def getState : Cmd State := fun s => .ok s s

/-- Change the state. -/
def update (f : State → State) : Cmd Unit := fun s => .ok () (f s)

/-- `raise Fatal(code)` (R141). -/
def raiseFatal {α : Type} (code : FatalCode) : Cmd α := fun s => .error (.fatal code) s

/-- `refuse(reason)` (R146). -/
def refuse {α : Type} (why : RefuseWhy) : Cmd α := fun s => .error (.refuse why) s

/-- End the step at a poll read that did not satisfy its poll, remembering how far the command has come (R167; log 5). -/
def pollAgain {α : Type} (at' : Progress) : Cmd α := fun s => .error .poll { s with progress := at' }

/-- A conditional line of a command. -/
def whenever (p : Bool) (c : Cmd Unit) : Cmd Unit := if p then c else pure ()

/-- Taking a fatal condition (R141): the code and `CP` go to `HALT` and `DIAG`; `CP` stays, nothing is released, nothing is rolled
back. The condition ends the command (log 6). There is no return from it (R144). -/
def takeFatal (code : FatalCode) (s : State) : State :=
  { s with
    halt := some ⟨code, s.cp⟩
    diag := s.diag ++ [.fatalAt code s.cp]
    progress := .idle }

/-- The model's refusal of a command that was refused in state `left` (log 7). -/
def refusalOf (why : RefuseWhy) (left : State) : Refusal :=
  match why with
  | .reservedEncoding => .reservedEncoding
  | .noSuchUnit => .noSuchUnit
  | .unitExists => .unitExists
  | .zeroBaud => .zeroBaud left
  | .clockUnresolved => .clockUnresolved
  | .zeroClock => .zeroClock left
  | .rxBufferTooSmall => .rxBufferTooSmall

/-- Run the lines of a command (R80: one command, from its first line to its last or to where it stops). -/
def runCmd (c : Cmd Unit) (s : State) : Host.Outcome State Fault Refusal :=
  match c s with
  | .ok _ t => .next t
  | .error (.fatal code) t => .next (takeFatal code t)
  | .error .poll t => .next t
  | .error (.refuse why) t => .refused (refusalOf why t)

/-- `CP <- CP + len` (R20): the command has completed. -/
def complete (len : Nat) : Cmd Unit := update fun s => { s with cp := s.cp + len, progress := .idle }

/-! ## The logs (R22, R23) -/

/-- `emit_out(v)`: append a result, tagged with the command's `CP` (R22). -/
def emitOut (v : OutValue) : Cmd Unit := update fun s => { s with out := s.out ++ [⟨s.cp, v⟩] }

/-- `emit_diag(d)` (R22). -/
def emitDiag (d : Diagnostic) : Cmd Unit := update fun s => { s with diag := s.diag ++ [d] }

/-! ## The bus (R11, R48, R57) -/

/-- `MemRead(addr, 4)`: one read event with the environment's answer (R11, R23, R52). -/
def memRead (addr : Word) : Cmd Word := fun s =>
  .ok (envAnswer s.env addr)
    { s with env := envAfterRead s.env, trace := s.trace ++ [.rd addr (envAnswer s.env addr)] }

/-- `MemWrite(addr, 4, v)`: one write event (R11, R23). -/
def memWrite (addr v : Word) : Cmd Unit := update fun s =>
  { s with env := envAfterWrite s.env addr v, trace := s.trace ++ [.wr addr v] }

/-! ## Register access (R76, R77) -/

/-- A permission-checked read of a port (R76): the check comes before the bus. -/
def readPort (d : Port) : Cmd Word :=
  if d.perm = .writeOnly then raiseFatal .permissionViolation else memRead d.addr

/-- A permission-checked write of a port (R77). -/
def writePort (d : Port) (v : Word) : Cmd Unit :=
  if d.perm = .readOnly then raiseFatal .permissionViolation else memWrite d.addr v

/-- The port of a register; a register the tables lack is the unmapped combination of R98. -/
def getPort (r : Reg) : Cmd Port := do
  let s ← getState
  match portOf s.params r with
  | some d => pure d
  | none => raiseFatal .unmappedRegister

/-- `RegRead(blk, reg)` (R76). -/
def regRead (r : Reg) : Cmd Word := do
  let d ← getPort r
  readPort d

/-- `RegWrite(blk, reg, v)` (R77). -/
def regWrite (r : Reg) (v : Word) : Cmd Unit := do
  let d ← getPort r
  writePort d v

/-- A GPIO command's registers must be mapped before any bus access of the command (R98, R142). -/
def requireMapped : List Reg → Cmd Unit
  | [] => pure ()
  | r :: rs => do
    let _ ← getPort r
    requireMapped rs

/-! ## Units and guards (R85) -/

/-- The slot of a pin index; an index of 58 or more has none (R14). -/
def State.pinSlot (s : State) (pin : Byte) : Option PinUnit :=
  if h : pin.toNat < npin then s.pu[pin.toNat] else none

/-- Store a pin unit in its slot. -/
def State.setPin (s : State) (pin : Byte) (u : PinUnit) : State :=
  if h : pin.toNat < npin then { s with pu := s.pu.set pin.toNat (some u) h } else s

/-- The live unit of a pin: present and not released (R16, R85). -/
def State.livePin (s : State) (pin : Byte) : Option PinUnit := (s.pinSlot pin).filter (·.fsm ≠ .released)

/-- The live UART unit: present and not released (R85). -/
def State.liveUart (s : State) : Option UartUnit := s.uart.filter (!·.released)

/-- The live I2C unit: present and not released (R85). -/
def State.liveI2c (s : State) : Option I2cUnit := s.i2c.filter (!·.released)

/-- Go on with the unit, or refuse: the guard of R85. -/
def requireUnit {α : Type} (u : Option α) : Cmd α :=
  match u with
  | some x => pure x
  | none => refuse .noSuchUnit

/-- The guard `unit(p)` of the GPIO commands (R85). -/
def pinUnit (pin : Byte) : Cmd PinUnit := do
  let s ← getState
  requireUnit (s.livePin pin)

/-- The guard `uart()` of the UART commands (R85). -/
def uartUnit : Cmd UartUnit := do
  let s ← getState
  requireUnit s.liveUart

/-- The guard `i2c()` of the I2C commands (R85). -/
def i2cUnit : Cmd I2cUnit := do
  let s ← getState
  requireUnit s.liveI2c

/-- `PU[p] <- u`. -/
def putPin (pin : Byte) (u : PinUnit) : Cmd Unit := update (·.setPin pin u)

/-- `UART <- u`. -/
def putUart (u : UartUnit) : Cmd Unit := update fun s => { s with uart := some u }

/-- `I2C <- u`. -/
def putI2c (u : I2cUnit) : Cmd Unit := update fun s => { s with i2c := some u }

/-- Change fields of the I2C unit. -/
def updateI2c (f : I2cUnit → I2cUnit) : Cmd Unit := update fun s => { s with i2c := s.i2c.map f }

/-- Change fields of the UART unit. -/
def updateUart (f : UartUnit → UartUnit) : Cmd Unit := update fun s => { s with uart := s.uart.map f }

/-! ## Numbers of the fatal codes (R142) -/

/-- The number of a fatal-condition code (R142). -/
def FatalCode.num : FatalCode → Nat
  | .invalidPin => 1
  | .i2cAddress => 2
  | .divisorOverflow => 3
  | .baudUnattainable => 4
  | .permissionViolation => 5
  | .i2cNotEnabled => 6
  | .unmappedRegister => 7

/-! ## Fetch (R63) -/

/-- The command words from `CP` on. -/
def State.fetch (s : State) : List CmdWord := s.stream.drop s.cp

end Sys2Proof.Machine
end

