-- ==== Sys2Proof/Machine/Gpio.lean ====
section
/-!
DEFINITION. Sys2Proof/Machine/Gpio.lean: the GPIO commands (42_gpio.md). The pull setting is stored and never applied (R88). The
FSM state is bookkeeping and gates nothing but use after release (R16, R100).
-/

namespace Sys2Proof.Machine

/-- GPIO_NEW (R91). -/
def execGpioNew (pin : Byte) (f : PinFunction) (pull : Pull) (level : Level) (s : State) :
    Host.Outcome State Fault Refusal :=
  runCmd (do
    whenever (npin ≤ pin.toNat) (raiseFatal .invalidPin)
    let s ← getState
    whenever (s.livePin pin).isSome (refuse .unitExists)
    putPin pin { index := pin.setWidth 6, function := f, pull := pull, level := level, fsm := .unconfigured }
    complete 1) s

/-- GPIO_INIT (R92): assert the level, program the function-select field, sample the level. -/
def execGpioInit (pin : Byte) (s : State) : Host.Outcome State Fault Refusal :=
  runCmd (do
    let u ← pinUnit pin
    let s ← getState
    requireMapped [bankReg (assertKind u.level) pin, fselReg pin, bankReg .lev pin]
    regWrite (bankReg (assertKind u.level) pin) (bankMask pin)
    let old ← regRead (fselReg pin)
    regWrite (fselReg pin) (insertField3 old (fselShift pin) (fselCodeOf s.params.fselCode u.function))
    let lv ← regRead (bankReg .lev pin)
    putPin pin { u with level := sampledLevel lv (bankMask pin), fsm := .functionSelected }
    complete 1) s

/-- One write of the pin's mask to its register of a kind, and the FSM state after it: what GPIO_SET, GPIO_CLR and GPIO_RELEASE
share (R93, R94, R97). -/
def pulsePin (k : BankKind) (after : PinFsm) (pin : Byte) : Cmd Unit := do
  let u ← pinUnit pin
  regWrite (bankReg k pin) (bankMask pin)
  putPin pin { u with fsm := after }
  complete 1

/-- GPIO_SET (R93). -/
def execGpioSet (pin : Byte) (s : State) : Host.Outcome State Fault Refusal := runCmd (pulsePin .set .driven pin) s

/-- GPIO_CLR (R94). -/
def execGpioClr (pin : Byte) (s : State) : Host.Outcome State Fault Refusal := runCmd (pulsePin .clr .driven pin) s

/-- GPIO_SAMPLE (R95). -/
def execGpioSample (pin : Byte) (s : State) : Host.Outcome State Fault Refusal :=
  runCmd (do
    let u ← pinUnit pin
    let lv ← regRead (bankReg .lev pin)
    putPin pin { u with level := sampledLevel lv (bankMask pin) }
    emitOut (.bit (levelIsHigh (sampledLevel lv (bankMask pin))))
    complete 1) s

/-- GPIO_EDGE (R96). -/
def execGpioEdge (pin : Byte) (s : State) : Host.Outcome State Fault Refusal :=
  runCmd (do
    let _ ← pinUnit pin
    let ev ← regRead (bankReg .eds pin)
    emitOut (.bit (testMask ev (bankMask pin)))
    complete 1) s

/-- GPIO_RELEASE (R97). -/
def execGpioRelease (pin : Byte) (s : State) : Host.Outcome State Fault Refusal :=
  runCmd (pulsePin .clr .released pin) s

end Sys2Proof.Machine
end

