-- ==== Sys2Proof/Machine/Irq.lean ====
section
/-!
DEFINITION. Sys2Proof/Machine/Irq.lean: IRQ_DISPATCH (45_irq_dispatch.md). It reads and classifies; it services nothing (R139).
-/

namespace Sys2Proof.Machine

/-- `IRQ_KNOWN[(label, k)]` (R135; log 17). -/
def knownName (known : List IrqKnown) (label k : Nat) : Option String :=
  (known.find? fun e => e.label == label && e.bit == k).map (·.name)

/-- `IRQ_FAMILY_BIT[k]` (R135; log 17). -/
def familyOf (table : List IrqFamilyBit) (k : Nat) : Option IrqFamily := (table.find? (·.bit == k)).map (·.family)

/-- `IRQ_SUBVARIANT[f]` (R135; log 17). -/
def subvariantsOf (table : List IrqSubvariants) (f : IrqFamily) : List IrqVariant :=
  ((table.find? fun e => decide (e.family = f)).map (·.variants)).getD []

/-- The sub-variants a status word selects, in list order (R138). -/
def selectedVariants (vs : List IrqVariant) (status : Word) : List IrqVariant :=
  vs.filter fun v => decide (status &&& v.mask ≠ 0#32)

/-- Append results in order (R140). -/
def emitAll : List OutValue → Cmd Unit
  | [] => pure ()
  | v :: vs => do
    emitOut v
    emitAll vs

/-- `classify_family(k)` (R138): one read of `SECSTAT`, one record per selected sub-variant; no read for a bit of no family. -/
def classifyFamily (k : Nat) : Cmd Unit := do
  let s ← getState
  match familyOf s.params.irqFamilyBit k with
  | none => pure ()
  | some f => do
    let status ← regRead .secstat
    emitAll ((selectedVariants (subvariantsOf s.params.irqSubvariant f) status).map fun v =>
      .irq irqSummaryBank k (.family f v.name))

/-- The classification of one pending bit (R137); an unmatched one is skipped (R139). -/
def classifyBit (label k : Nat) : Cmd Unit := do
  let s ← getState
  if label = irqSummaryBank then classifyFamily k
  else
    match knownName s.params.irqKnown label k with
    | some name => emitOut (.irq label k (.known name))
    | none => pure ()

/-- Classify the set bits of `w` among `ks`, in order (R137). -/
def classifyBits (label : Nat) (w : Word) : List Nat → Cmd Unit
  | [] => pure ()
  | k :: ks => do
    whenever (w.getLsbD k) (classifyBit label k)
    classifyBits label w ks

/-- `classify(label, w)` (R137): bits 0 to 31, ascending. A word of 0 classifies nothing (R136). -/
def classify (label : Nat) (w : Word) : Cmd Unit := classifyBits label w (List.range 32)

/-- Read and classify the banks numbered `i`, `i + 1`, ... with these labels (R136). -/
def dispatchBanks : Nat → List IrqBank → Cmd Unit
  | _, [] => pure ()
  | i, b :: bs => do
    let w ← regRead (.pend i)
    whenever (w ≠ 0#32) (classify b.label w)
    dispatchBanks (i + 1) bs

/-- IRQ_DISPATCH (R136). -/
def execIrqDispatch (s : State) : Host.Outcome State Fault Refusal :=
  runCmd (do
    let s ← getState
    dispatchBanks 0 s.params.irqBanks
    complete 1) s

end Sys2Proof.Machine
end

