-- ==== Sys2Proof/Machine/I2c.lean ====
section
/-!
DEFINITION. Sys2Proof/Machine/I2c.lean: the I2C commands (44_i2c.md) and the sub-steps they share with MGR_INIT_ALL. No command
retries, waits for completion or reports an outcome (R134). The guard of R85 stands once, at the head of each command.
-/

namespace Sys2Proof.Machine

/-- I2C_NEW (R122). -/
def execI2cNew (timeout : BitVec 16) (clock : Word) (s : State) : Host.Outcome State Fault Refusal :=
  runCmd (do
    let s ← getState
    whenever s.liveI2c.isSome (refuse .unitExists)
    putI2c
      { clockRateHz := clock, timeoutTicks := timeout, slaveAddress := 0#7, transferDirection := .write, dataLength := 0#16,
        fsm := .idle, rxbuf := List.replicate s.params.i2cRxbufSize 0#8, released := false }
    complete 1) s

/-- `set_div()` (R123). -/
def setDiv (u : I2cUnit) : Cmd Unit := do
  let s ← getState
  whenever (u.clockRateHz = 0#32) (refuse .zeroClock)
  regWrite (.i2c .div) (i2cDivisor s.params.i2cCoreClockHz u.clockRateHz.toNat)

/-- I2C_SET_DIV (R123). -/
def execI2cSetDiv (s : State) : Host.Outcome State Fault Refusal :=
  runCmd (do
    let u ← i2cUnit
    setDiv u
    complete 1) s

/-- `set_address(addr)` (R124): the eighth bit is fatal before anything is changed. -/
def setAddress (addr : Byte) : Cmd Unit := do
  whenever (addr.getLsbD 7) (raiseFatal .i2cAddress)
  updateI2c fun u => { u with slaveAddress := addr.setWidth 7 }
  regWrite (.i2c .a) (addr.setWidth 32)

/-- `I2C.fsm <- st` (R121). -/
def setI2cFsm (st : I2cFsm) : Cmd Unit := updateI2c fun u => { u with fsm := st }

/-- I2C_SET_ADDR (R124). -/
def execI2cSetAddr (addr : Byte) (s : State) : Host.Outcome State Fault Refusal :=
  runCmd (do
    let _ ← i2cUnit
    setAddress addr
    setI2cFsm .configured
    complete 1) s

/-- `set_direction(dir)` (R125). -/
def setDirection (dir : Direction) : Cmd Unit := do
  let s ← getState
  updateI2c fun u => { u with transferDirection := dir }
  let c ← regRead (.i2c .c)
  regWrite (.i2c .c) (withDirection s.params.i2cCRead c dir)

/-- I2C_SET_DIR (R125). -/
def execI2cSetDir (dir : Direction) (s : State) : Host.Outcome State Fault Refusal :=
  runCmd (do
    let _ ← i2cUnit
    setDirection dir
    setI2cFsm .configured
    complete 1) s

/-- `set_length(n)` (R126). -/
def setLength (n : BitVec 16) : Cmd Unit := do
  updateI2c fun u => { u with dataLength := n }
  regWrite (.i2c .dlen) (n.setWidth 32)
  setI2cFsm .configured

/-- `clear_fifo()` (R127). -/
def clearFifo : Cmd Unit := do
  let s ← getState
  let c ← regRead (.i2c .c)
  regWrite (.i2c .c) (c ||| s.params.i2cCClearMask)

/-- `clear_status()` (R128). -/
def clearStatus : Cmd Unit := do
  let s ← getState
  regWrite (.i2c .s) s.params.i2cSClearMask

/-- `start()` (R129): the enable bit is tested on the word the environment returns at this read. -/
def startTransfer : Cmd Unit := do
  let s ← getState
  let c ← regRead (.i2c .c)
  whenever (!testMask c s.params.i2cCI2cen) (raiseFatal .i2cNotEnabled)
  regWrite (.i2c .c) (c ||| s.params.i2cCSt)
  setI2cFsm .transferring

/-- Push bytes into the FIFO register, in order (R130). -/
def pushFifo : List Byte → Cmd Unit
  | [] => pure ()
  | b :: bs => do
    regWrite (.i2c .fifo) (b.setWidth 32)
    pushFifo bs

/-- `write_slave(addr, bytes)` (R130). -/
def writeSlave (addr : Byte) (bytes : List Byte) : Cmd Unit := do
  setDirection .write
  setAddress addr
  setLength (BitVec.ofNat 16 bytes.length)
  clearFifo
  pushFifo bytes
  clearStatus
  startTransfer

/-- I2C_WRITE (R130). -/
def execI2cWrite (addr : Byte) (bytes : List Byte) (s : State) : Host.Outcome State Fault Refusal :=
  runCmd (do
    let _ ← i2cUnit
    writeSlave addr bytes
    setI2cFsm .idle
    complete (1 + payloadWords bytes.length)) s

/-- The steps of I2C_READ before the drain (R131). -/
def readSetup (addr : Byte) (n : BitVec 16) : Cmd Unit := do
  let s ← getState
  whenever (s.params.i2cRxbufSize < n.toNat) (refuse .rxBufferTooSmall)
  setDirection .read
  setAddress addr
  setLength n
  clearFifo
  startTransfer

/-- One poll read before byte number `got`, where the read polls (R131): while the receive-data bit is clear the step ends and the
next one polls again (R167; log 5). -/
def pollReceive (got : Nat) : Cmd Unit := do
  let s ← getState
  whenever s.params.i2cRxPoll do
    let st ← regRead (.i2c .s)
    whenever (!testMask st s.params.i2cSRxd) (pollAgain (.i2cRx got))

/-- Receive byte number `got` into the buffer; bits 31:8 of the word are dropped (R131). -/
def receiveByte (got : Nat) : Cmd Unit := do
  pollReceive got
  let w ← regRead (.i2c .fifo)
  updateI2c fun u => { u with rxbuf := u.rxbuf.set got (w.setWidth 8) }

/-- Receive `k` more bytes, the first of them number `got` (R131). -/
def receiveAll : Nat → Nat → Cmd Unit
  | _, 0 => pure ()
  | got, k + 1 => do
    receiveByte got
    receiveAll (got + 1) k

/-- The last lines of I2C_READ: the received bytes as one result, and the sequencer idle (R131). -/
def finishRead (n : Nat) : Cmd Unit := do
  let u ← i2cUnit
  emitOut (.bytes (u.rxbuf.take n))
  setI2cFsm .idle
  complete 1

/-- The transfer of I2C_READ from its first line (R131). -/
def readFromStart (addr : Byte) (n : BitVec 16) : Cmd Unit := do
  readSetup addr n
  receiveAll 0 n.toNat

/-- The transfer of I2C_READ from where the last step left it: a step that resumes the drain after a poll read makes no second
setup (log 5). -/
def readTransfer (addr : Byte) (n : BitVec 16) (p : Progress) : Cmd Unit :=
  match p with
  | .i2cRx got => receiveAll got (n.toNat - got)
  | .idle => readFromStart addr n
  | .uartTx _ => readFromStart addr n

/-- I2C_READ (R131). -/
def execI2cRead (addr : Byte) (n : BitVec 16) (s : State) : Host.Outcome State Fault Refusal :=
  runCmd (do
    let _ ← i2cUnit
    let s ← getState
    readTransfer addr n s.progress
    finishRead n.toNat) s

/-- The body of I2C_INIT without its `CP` update (R132; R83): enable, divisor, timeout, probe. -/
def i2cInitBody : Cmd Unit := do
  let u ← i2cUnit
  let s ← getState
  let c ← regRead (.i2c .c)
  regWrite (.i2c .c) (c ||| s.params.i2cCI2cen)
  setDiv u
  regWrite (.i2c .clkt) (u.timeoutTicks.setWidth 32)
  writeSlave s.params.i2cProbeAddr s.params.i2cProbeBytes
  setI2cFsm .idle

/-- I2C_INIT (R132). -/
def execI2cInit (s : State) : Host.Outcome State Fault Refusal :=
  runCmd (do
    i2cInitBody
    complete 1) s

/-- I2C_RELEASE (R133): no bus access. -/
def execI2cRelease (s : State) : Host.Outcome State Fault Refusal :=
  runCmd (do
    let u ← i2cUnit
    putI2c { u with released := true }
    complete 1) s

end Sys2Proof.Machine
end

