-- ==== Sys2Proof/Machine/Uart.lean ====
section
/-!
DEFINITION. Sys2Proof/Machine/Uart.lean: the UART commands (43_uart.md) and the sub-steps they share with MGR_INIT_ALL.
-/

namespace Sys2Proof.Machine

/-- UART_NEW (R102). -/
def execUartNew (parity : Parity) (wlen : WordLength) (stop : StopBits) (baud : Word) (s : State) :
    Host.Outcome State Fault Refusal :=
  runCmd (do
    let s ← getState
    whenever s.liveUart.isSome (refuse .unitExists)
    putUart
      { parity := parity, wordLength := wlen, stopBits := stop, baudRate := baud, charsWritten := 0#64, released := false }
    complete 1) s

/-- `resolve_clock()` (R110): once, from the clock fact or the default with a diagnostic note. -/
def resolveClock : Cmd Unit := do
  let s ← getState
  match s.uclk with
  | .resolved _ => pure ()
  | .unresolved =>
    match s.clkFact with
    | some hz => update fun s => { s with uclk := .resolved hz }
    | none => do
      update fun s => { s with uclk := .resolved uartDefaultClock }
      emitDiag .clockDefaulted

/-- UART_RESOLVE_CLK (R110). -/
def execUartResolveClk (s : State) : Host.Outcome State Fault Refusal :=
  runCmd (do
    resolveClock
    complete 1) s

/-- The resolved clock rate, refused where there is none (R106). -/
def clockHz : Cmd Word := do
  let s ← getState
  match s.uclk with
  | .resolved hz => pure hz
  | .unresolved => refuse .clockUnresolved

/-- `BaudDiv(clock, target)` (R103, R104): the checks in their order, then the pair (ibrd, fbrd). -/
def baudDiv (clock target : Word) : Cmd (Nat × Nat) :=
  if target = 0#32 then refuse .zeroBaud
  else if 63 < baudFraction clock.toNat target.toNat then raiseFatal .divisorOverflow
  else if baudAccurate clock.toNat target.toNat then
    pure (baudInteger clock.toNat target.toNat, baudFraction clock.toNat target.toNat)
  else raiseFatal .baudUnattainable

/-- UART_BAUD_DIV (R106). -/
def execUartBaudDiv (target : Word) (s : State) : Host.Outcome State Fault Refusal :=
  runCmd (do
    let _ ← uartUnit
    let hz ← clockHz
    let d ← baudDiv hz target
    emitOut (.divisor d.1 d.2)
    complete 1) s

/-- The unit with the given settings overridden (R108). -/
def withSettings (u : UartUnit) (p : Option Parity) (w : Option WordLength) (s : Option StopBits) : UartUnit :=
  { u with parity := p.getD u.parity, wordLength := w.getD u.wordLength, stopBits := s.getD u.stopBits }

/-- `apply_line_control(p?, w?, s?)` (R107, R108) on the unit `u`. -/
def applyLineControl (u : UartUnit) (p : Option Parity) (w : Option WordLength) (st : Option StopBits) : Cmd Unit := do
  let s ← getState
  let u' := withSettings u p w st
  putUart u'
  let l ← regRead (.uart .lcrh)
  regWrite (.uart .lcrh) (lcrhApply s.params.lcrh l u'.parity u'.wordLength u'.stopBits)

/-- UART_LINE_CTL (R108). -/
def execUartLineCtl (p : Option Parity) (w : Option WordLength) (st : Option StopBits) (s : State) :
    Host.Outcome State Fault Refusal :=
  runCmd (do
    let u ← uartUnit
    applyLineControl u p w st
    complete 1) s

/-- `k` drain reads of the data register, their values discarded and none elided (R109, R57). -/
def drainReads : Nat → Cmd Unit
  | 0 => pure ()
  | k + 1 => do
    let _ ← regRead (.uart .dr)
    drainReads k

/-- The transmit half of `flush()`: the FIFO off, then on (R109). -/
def toggleFifo : Cmd Unit := do
  let s ← getState
  let l ← regRead (.uart .lcrh)
  regWrite (.uart .lcrh) (l &&& ~~~(lcrhFen s.params.lcrh))
  regWrite (.uart .lcrh) (l ||| lcrhFen s.params.lcrh)

/-- `flush()` (R109, R120): both tests on one snapshot of the flag register. -/
def flush : Cmd Unit := do
  let s ← getState
  let fr ← regRead (.uart .fr)
  whenever (testMask fr s.params.uartFrTxPending) toggleFifo
  whenever (testMask fr s.params.uartFrRxPending) (drainReads (s.params.uartFifoDepth + 1))

/-- UART_FLUSH (R109). -/
def execUartFlush (s : State) : Host.Outcome State Fault Refusal :=
  runCmd (do
    let _ ← uartUnit
    flush
    complete 1) s

/-- One poll read before unit number `sent`, where transmit polls (R111): while the FIFO-full bit is set the step ends and the next
one polls again (R167; log 5). -/
def pollTransmit (sent : Nat) : Cmd Unit := do
  let s ← getState
  whenever s.params.uartTxPoll do
    let fr ← regRead (.uart .fr)
    whenever (testMask fr s.params.uartFrTxff) (pollAgain (.uartTx sent))

/-- `tx(x)` (R111, R113), the `sent`-th unit of the command. -/
def transmit (sent : Nat) (x : Byte) : Cmd Unit := do
  pollTransmit sent
  regWrite (.uart .dr) (x.setWidth 32)
  updateUart fun u => { u with charsWritten := u.charsWritten + 1 }

/-- Transmit units one at a time, the first of them number `sent` (R111, R117). -/
def transmitAll : Nat → List Byte → Cmd Unit
  | _, [] => pure ()
  | sent, x :: xs => do
    transmit sent x
    transmitAll (sent + 1) xs

/-- Units of the command at `CP` already sent in earlier steps (log 5). -/
def unitsSent (s : State) : Nat :=
  match s.progress with
  | .uartTx k => k
  | .idle => 0
  | .i2cRx _ => 0

/-- What the two transmit commands share: the units not yet sent, in order, then `CP` past the command. -/
def writeUnits (units : List Byte) (len : Nat) : Cmd Unit := do
  let _ ← uartUnit
  let s ← getState
  transmitAll (unitsSent s) (units.drop (unitsSent s))
  complete len

/-- UART_WRITE_CHAR (R112, R114). -/
def execUartWriteChar (b : Byte) (s : State) : Host.Outcome State Fault Refusal :=
  runCmd (writeUnits (unitsOf b) 1) s

/-- UART_WRITE_BYTES (R112, R117). -/
def execUartWriteBytes (bytes : List Byte) (s : State) : Host.Outcome State Fault Refusal :=
  runCmd (writeUnits (expandNewlines bytes) (1 + payloadWords bytes.length)) s

/-- The body of UART_INIT without its `CP` update (R115; R83): resolve clock, enable, divisor, flush, line control. -/
def uartInitBody : Cmd Unit := do
  let u ← uartUnit
  resolveClock
  let s ← getState
  regWrite (.uart .cr) s.params.uartCrEnable
  let hz ← clockHz
  let d ← baudDiv hz u.baudRate
  regWrite (.uart .ibrd) (BitVec.ofNat 32 d.1)
  regWrite (.uart .fbrd) (BitVec.ofNat 32 d.2)
  flush
  applyLineControl u none none none

/-- UART_INIT (R115). -/
def execUartInit (s : State) : Host.Outcome State Fault Refusal :=
  runCmd (do
    uartInitBody
    complete 1) s

/-- UART_CHARS_WRITTEN (R118). -/
def execUartCharsWritten (s : State) : Host.Outcome State Fault Refusal :=
  runCmd (do
    let u ← uartUnit
    emitOut (.count u.charsWritten)
    complete 1) s

/-- UART_READ_BYTES (R116): every word with its opcode is refused, whatever its other bits. -/
def execUartReadBytes (_rest : BitVec 56) (s : State) : Host.Outcome State Fault Refusal :=
  runCmd (refuse .reservedEncoding) s

/-- UART_RELEASE (R119): no bus access. -/
def execUartRelease (s : State) : Host.Outcome State Fault Refusal :=
  runCmd (do
    let u ← uartUnit
    putUart { u with released := true }
    complete 1) s

end Sys2Proof.Machine
end

