-- ==== Sys2Proof/Machine/Lifecycle.lean ====
section
/-!
DEFINITION. Sys2Proof/Machine/Lifecycle.lean: the managers and the console binding (41_lifecycle.md). The lock of R80 is the
atomicity of a command: it makes no bus access and has no state. No order of commands is checked (R85).
-/

namespace Sys2Proof.Machine

/-- `MGR[t]` (R19). -/
def managerOf (t : DriverType) (s : State) : Manager :=
  match t with
  | .uart => s.mgrUart
  | .i2c => s.mgrI2c

/-- The guard of a driver type's unit (R82, R85). -/
def requireDriver : DriverType → Cmd Unit
  | .uart => do
    let _ ← uartUnit
  | .i2c => do
    let _ ← i2cUnit

/-- `MGR[t] <- Registered` (R82). -/
def setRegistered (t : DriverType) (s : State) : State :=
  match t with
  | .uart => { s with mgrUart := .registered }
  | .i2c => { s with mgrI2c := .registered }

/-- MGR_REGISTER (R82). -/
def execMgrRegister (t : DriverType) (s : State) : Host.Outcome State Fault Refusal :=
  runCmd (do
    requireDriver t
    update (setRegistered t)
    complete 1) s

/-- The initialise body of a driver type (R83, R84). -/
def driverInitBody : DriverType → Cmd Unit
  | .uart => uartInitBody
  | .i2c => i2cInitBody

/-- MGR_INIT_ALL (R83): nothing but `CP` when the manager is empty. -/
def execMgrInitAll (t : DriverType) (s : State) : Host.Outcome State Fault Refusal :=
  runCmd (do
    let s ← getState
    match managerOf t s with
    | .empty => complete 1
    | .registered => do
      driverInitBody t
      complete 1) s

/-- CONSOLE_BIND (R81). -/
def execConsoleBind (s : State) : Host.Outcome State Fault Refusal :=
  runCmd (do
    let _ ← uartUnit
    update fun s => { s with console := .bound }
    complete 1) s

end Sys2Proof.Machine
end

