-- ==== Sys2Proof/Machine/RegAccess.lean ====
section
/-!
DEFINITION. Sys2Proof/Machine/RegAccess.lean: REG_READ and REG_WRITE (40_regaccess.md).
-/

namespace Sys2Proof.Machine

/-- A register the tables of the run do not hold has no encoding (R67 item 4, R69), so naming it is refused (log 13). -/
def requireEncodable (r : Reg) : Cmd Unit := do
  let s ← getState
  if s.params.hasReg r then pure () else refuse .reservedEncoding

/-- REG_READ (R78). -/
def execRegRead (r : Reg) (s : State) : Host.Outcome State Fault Refusal :=
  runCmd (do
    requireEncodable r
    let v ← regRead r
    emitOut (.word v)
    complete 1) s

/-- REG_WRITE (R79). -/
def execRegWrite (r : Reg) (v : Word) (s : State) : Host.Outcome State Fault Refusal :=
  runCmd (do
    requireEncodable r
    regWrite r v
    complete 1) s

end Sys2Proof.Machine
end

