-- ==== Sys2Proof/Machine/Dispatch.lean ====
section
/-!
DEFINITION. Sys2Proof/Machine/Dispatch.lean: which meaning each command has (R66).
-/

namespace Sys2Proof.Machine

/-- The execution of a command that is not halted (R63, R80): one arm per command. -/
def exec (i : Instr) (s : State) : Host.Outcome State Fault Refusal :=
  match i with
  | .regRead r => Sys2Proof.Machine.execRegRead r s
  | .regWrite r v => Sys2Proof.Machine.execRegWrite r v s
  | .mgrRegister t => Sys2Proof.Machine.execMgrRegister t s
  | .mgrInitAll t => Sys2Proof.Machine.execMgrInitAll t s
  | .consoleBind => Sys2Proof.Machine.execConsoleBind s
  | .gpioNew pin f pull level => Sys2Proof.Machine.execGpioNew pin f pull level s
  | .gpioInit pin => Sys2Proof.Machine.execGpioInit pin s
  | .gpioSet pin => Sys2Proof.Machine.execGpioSet pin s
  | .gpioClr pin => Sys2Proof.Machine.execGpioClr pin s
  | .gpioSample pin => Sys2Proof.Machine.execGpioSample pin s
  | .gpioEdge pin => Sys2Proof.Machine.execGpioEdge pin s
  | .gpioRelease pin => Sys2Proof.Machine.execGpioRelease pin s
  | .uartNew parity wlen stop baud => Sys2Proof.Machine.execUartNew parity wlen stop baud s
  | .uartResolveClk => Sys2Proof.Machine.execUartResolveClk s
  | .uartBaudDiv target => Sys2Proof.Machine.execUartBaudDiv target s
  | .uartLineCtl parity wlen stop => Sys2Proof.Machine.execUartLineCtl parity wlen stop s
  | .uartFlush => Sys2Proof.Machine.execUartFlush s
  | .uartWriteChar byte => Sys2Proof.Machine.execUartWriteChar byte s
  | .uartWriteBytes bytes => Sys2Proof.Machine.execUartWriteBytes bytes s
  | .uartInit => Sys2Proof.Machine.execUartInit s
  | .uartCharsWritten => Sys2Proof.Machine.execUartCharsWritten s
  | .uartReadBytes rest => Sys2Proof.Machine.execUartReadBytes rest s
  | .uartRelease => Sys2Proof.Machine.execUartRelease s
  | .i2cNew timeout clock => Sys2Proof.Machine.execI2cNew timeout clock s
  | .i2cSetDiv => Sys2Proof.Machine.execI2cSetDiv s
  | .i2cSetAddr addr => Sys2Proof.Machine.execI2cSetAddr addr s
  | .i2cSetDir dir => Sys2Proof.Machine.execI2cSetDir dir s
  | .i2cWrite addr bytes => Sys2Proof.Machine.execI2cWrite addr bytes s
  | .i2cRead addr n => Sys2Proof.Machine.execI2cRead addr n s
  | .i2cInit => Sys2Proof.Machine.execI2cInit s
  | .i2cRelease => Sys2Proof.Machine.execI2cRelease s
  | .irqDispatch => Sys2Proof.Machine.execIrqDispatch s

end Sys2Proof.Machine
end

