-- ==== Sys2Proof/Machine/Step.lean ====
section
/-!
DEFINITION. Sys2Proof/Machine/Step.lean: one step of the PDC (R160) and where it fetches its next command.
-/

namespace Sys2Proof.Machine

/-- One step (R160): none when halted, none at the end of the stream, else decode at `CP` and execute; a reserved word is refused
(R67). -/
def step (s : State) : Host.Outcome State Fault Refusal :=
  match s.halt with
  | some h => .fault (.halted h)
  | none =>
    if s.stream.length ≤ s.cp then .fault .completed
    else
      match decode s.params s.fetch with
      | .command i _ => exec i s
      | .reserved _ => .refused .reservedEncoding

/-- The state with an instruction stored where the next step fetches: the stream's first `CP` words, then the words of the
instruction (log 4, log 22). Words missing before `CP` are filled with zero words, which no step reads. -/
def State.withFetchWord (s : State) (nbits w : Nat) : State :=
  { s with
    stream := s.stream.take s.cp ++ List.replicate (s.cp - s.stream.length) 0#64 ++ instrWords nbits w }

end Sys2Proof.Machine
end

