-- ==== Sys2Proof/Machine/Boot.lean ====
section
/-!
DEFINITION. Sys2Proof/Machine/Boot.lean: how a host configures a run before its first command (R155, R56, R146 `BadParameter`).
-/

namespace Sys2Proof.Machine

/-- Whether an address or an offset is a multiple of 4 (R56). -/
def aligned4 (a : Word) : Bool := decide (a.toNat % 4 = 0)

/-- The byte offsets of a GPIO table. -/
def gpioOffsets (t : GpioTable) : List Word :=
  ([GpioReg.fsel0, .fsel1, .fsel2, .fsel3, .fsel4, .fsel5, .set0, .set1, .clr0, .clr1, .lev0, .lev1, .eds0, .eds1].filterMap
    t.desc).map (·.offset)

/-- The byte offsets of a UART table. -/
def uartOffsets (t : UartTable) : List Word :=
  ([UartReg.dr, .fr, .ibrd, .fbrd, .lcrh, .cr].map t.desc).map (·.offset)

/-- The byte offsets of an I2C table. -/
def i2cOffsets (t : I2cTable) : List Word :=
  ([I2cReg.c, .s, .dlen, .a, .fifo, .div, .clkt].map t.desc).map (·.offset)

/-- Offsets of one block: multiples of 4 (R56), unique (R45). -/
def offsetsOk (offsets : List Word) : Bool := offsets.all aligned4 && decide offsets.Nodup

/-- The interrupt tables a run may have: aligned addresses, a bank labelled 3, no mask 0 (R146 `BadParameter`), distinct labels
(R135). R45 speaks of offsets, and the IRQ block has absolute addresses; DESIGN CHOICE: its unique-offset invariant is not
read onto them, so two banks may stand at one address, and a bank at the address of `SECSTAT` (log 12). -/
def irqTablesOk (p : Params) : Bool :=
  p.irqBanks.all (fun b => aligned4 b.address) && p.irqBanks.any (·.label == irqSummaryBank) &&
    decide (p.irqBanks.map (·.label)).Nodup && p.irqSubvariant.all (fun e => e.variants.all fun v => decide (v.mask ≠ 0#32))

/-- The parameters a run may have (R45, R56, R135, R146; log 12). -/
def paramsOk (p : Params) : Bool :=
  offsetsOk (gpioOffsets p.gpio) && offsetsOk (uartOffsets p.uart) && offsetsOk (i2cOffsets p.i2c) && irqTablesOk p

/-- The start of a run (R153, R155): reset, with the inputs the host fixes; parameters no run may have are refused here and not at
run time (R56). -/
def State.configure (p : Params) (stream : List CmdWord) (clkFact : Option Word) (env : Env) :
    Host.Outcome State Fault Refusal :=
  if paramsOk p then
    .next { State.reset with params := p, stream := stream, clkFact := clkFact, env := env }
  else .refused .badParameter

/-- A BackingStore with the given initial words (R54). -/
def storeOf : List (Word × Word) → Memory
  | [] => []
  | (a, v) :: rest => writeWord (storeOf rest) a v

end Sys2Proof.Machine
end

