-- ==== Sys2Proof/WellFormed.lean ====
section
/-!
DEFINITION. Sys2Proof/WellFormed.lean: which instruction terms are commands of a run with parameters `p`: exactly those an
encoding exists for.
-/

namespace Sys2Proof

/-- A command is well-formed when the register it names is in its block's table (R69) and its payload fits field `B`
(R65: `n` is 0 to 65,535). Every other operand is in range by its type. -/
def Instr.wellFormed (p : Params) : Instr → Bool
  | .regRead r => p.hasReg r
  | .regWrite r _ => p.hasReg r
  | .mgrRegister _ => true
  | .mgrInitAll _ => true
  | .consoleBind => true
  | .gpioNew _ _ _ _ => true
  | .gpioInit _ => true
  | .gpioSet _ => true
  | .gpioClr _ => true
  | .gpioSample _ => true
  | .gpioEdge _ => true
  | .gpioRelease _ => true
  | .uartNew _ _ _ _ => true
  | .uartResolveClk => true
  | .uartBaudDiv _ => true
  | .uartLineCtl _ _ _ => true
  | .uartFlush => true
  | .uartWriteChar _ => true
  | .uartWriteBytes bytes => decide (bytes.length ≤ 65535)
  | .uartInit => true
  | .uartCharsWritten => true
  | .uartReadBytes _ => true
  | .uartRelease => true
  | .i2cNew _ _ => true
  | .i2cSetDiv => true
  | .i2cSetAddr _ => true
  | .i2cSetDir _ => true
  | .i2cWrite _ bytes => decide (bytes.length ≤ 65535)
  | .i2cRead _ _ => true
  | .i2cInit => true
  | .i2cRelease => true
  | .irqDispatch => true

end Sys2Proof
end

