-- ==== Sys2Proof/Safety.lean ====
section
/-!
DEFINITION. Sys2Proof/Safety.lean: the terms in which claims about the PDC are stated: what the environment did during a list of bus
events, the events each command puts on the bus, and the invariant of a run.
-/

namespace Sys2Proof.Machine

/-! ## Bus events and the environment -/

/-- The environment after a list of bus events (R52, R57). -/
def envRun : Env → List BusEvent → Env
  | e, [] => e
  | e, .rd _ _ :: evs => envRun (envAfterRead e) evs
  | e, .wr a v :: evs => envRun (envAfterWrite e a v) evs

/-- Every read event of the list carries the word the environment answers at that point (R23, R52). -/
def answeredBy : Env → List BusEvent → Prop
  | _, [] => True
  | e, .rd a v :: evs => v = envAnswer e a ∧ answeredBy (envAfterRead e) evs
  | e, .wr a v :: evs => answeredBy (envAfterWrite e a v) evs

/-- The state after a list of bus events: the environment has seen them and `TRACE` has gained them. -/
def State.afterEvents (s : State) (evs : List BusEvent) : State :=
  { s with env := envRun s.env evs, trace := s.trace ++ evs }

/-- The state after a command of `len` words has completed (R20). -/
def State.completed (s : State) (len : Nat) : State := { s with cp := s.cp + len, progress := .idle }

/-- The state after a result of the command at `CP` (R22). -/
def State.withOut (s : State) (v : OutValue) : State := { s with out := s.out ++ [⟨s.cp, v⟩] }

/-- The address of a bus event. -/
def BusEvent.addr : BusEvent → Word
  | .rd a _ => a
  | .wr a _ => a

/-- A byte of the machine's memory (log 2). -/
def State.byteAt (s : State) (a : Nat) : Byte := readByte s.memory a

/-- The tables of the run give register `r` the address `a`, and it may be read (R76). -/
def State.readableAt (s : State) (r : Reg) (a : Word) : Prop :=
  ∃ perm, portOf s.params r = some ⟨a, perm⟩ ∧ perm ≠ .writeOnly

/-- The tables of the run give register `r` the address `a`, and it may be written (R77). -/
def State.writableAt (s : State) (r : Reg) (a : Word) : Prop :=
  ∃ perm, portOf s.params r = some ⟨a, perm⟩ ∧ perm ≠ .readOnly

/-- An address of a register of the run's tables (R49). -/
def isRegisterAddr (p : Params) (a : Word) : Prop := ∃ r perm, portOf p r = some ⟨a, perm⟩

/-! ## The events of a command -/

/-- The units `units` sent: with a poll read of `FR` before each, answered from `frs`, where transmit polls (R111). -/
def transmitEvents (poll : Bool) (frAddr drAddr : Word) : List Byte → List Word → List BusEvent
  | [], _ => []
  | x :: xs, frs =>
    (if poll then [.rd frAddr (frs.headD 0#32)] else []) ++ .wr drAddr (x.setWidth 32) ::
      transmitEvents poll frAddr drAddr xs frs.tail

/-- The drain reads of flush, answered from `ws` (R109). -/
def drainEvents (drAddr : Word) (ws : List Word) : List BusEvent := ws.map fun w => .rd drAddr w

/-- The events of flush (R109): `fr` the snapshot, `l` the line-control word, `ws` the drained words. -/
def flushEvents (p : Params) (frAddr lcrhAddr drAddr fr l : Word) (ws : List Word) : List BusEvent :=
  [.rd frAddr fr] ++
    (if testMask fr p.uartFrTxPending then
      [.rd lcrhAddr l, .wr lcrhAddr (l &&& ~~~(lcrhFen p.lcrh)), .wr lcrhAddr (l ||| lcrhFen p.lcrh)] else []) ++
    (if testMask fr p.uartFrRxPending then drainEvents drAddr ws else [])

/-- Addresses of the I2C registers in a run (R36, R50). -/
def i2cAddr (p : Params) (r : I2cReg) : Word := i2cBase + (p.i2c.desc r).offset

/-- Addresses of the UART registers in a run (R30, R50). -/
def uartAddr (p : Params) (r : UartReg) : Word := uartBase + (p.uart.desc r).offset

/-- Every I2C register the I2C commands touch may be accessed as they access it (the default permissions of R36 do). -/
def i2cOpen (p : Params) : Prop :=
  p.i2c.c.perm = .readWrite ∧ p.i2c.s.perm = .readWrite ∧ p.i2c.dlen.perm ≠ .readOnly ∧ p.i2c.a.perm ≠ .readOnly ∧
    p.i2c.fifo.perm = .readWrite ∧ p.i2c.div.perm ≠ .readOnly ∧ p.i2c.clkt.perm ≠ .readOnly

/-- Every UART register the UART commands touch may be accessed as they access it (the default permissions of R30 do). -/
def uartOpen (p : Params) : Prop :=
  p.uart.dr.perm = .readWrite ∧ p.uart.fr.perm ≠ .writeOnly ∧ p.uart.ibrd.perm ≠ .readOnly ∧
    p.uart.fbrd.perm ≠ .readOnly ∧ p.uart.lcrh.perm = .readWrite ∧ p.uart.cr.perm ≠ .readOnly

/-- The events of the I2C steps before the data (R125, R124, R126, R127), `c1` and `c2` the control words read. -/
def i2cSetupEvents (p : Params) (dir : Direction) (addr : Byte) (n : BitVec 16) (c1 c2 : Word) : List BusEvent :=
  [.rd (i2cAddr p .c) c1, .wr (i2cAddr p .c) (withDirection p.i2cCRead c1 dir), .wr (i2cAddr p .a) (addr.setWidth 32),
    .wr (i2cAddr p .dlen) (n.setWidth 32), .rd (i2cAddr p .c) c2, .wr (i2cAddr p .c) (c2 ||| p.i2cCClearMask)]

/-- The events of a transfer start (R129), `c3` the control word read. -/
def i2cStartEvents (p : Params) (c3 : Word) : List BusEvent :=
  [.rd (i2cAddr p .c) c3, .wr (i2cAddr p .c) (c3 ||| p.i2cCSt)]

/-- The events of `write_slave` (R130). -/
def writeSlaveEvents (p : Params) (addr : Byte) (bytes : List Byte) (c1 c2 c3 : Word) : List BusEvent :=
  i2cSetupEvents p .write addr (BitVec.ofNat 16 bytes.length) c1 c2 ++
    bytes.map (fun b => .wr (i2cAddr p .fifo) (b.setWidth 32)) ++ [.wr (i2cAddr p .s) p.i2cSClearMask] ++ i2cStartEvents p c3

/-- The events of receiving the words `ws` (R131): with one poll read of `S` before each, answered from `sts`, where the read
polls. -/
def receiveEvents (p : Params) : List Word → List Word → List BusEvent
  | [], _ => []
  | w :: ws, sts =>
    (if p.i2cRxPoll then [.rd (i2cAddr p .s) (sts.headD 0#32)] else []) ++ .rd (i2cAddr p .fifo) w ::
      receiveEvents p ws sts.tail

/-- The buffer after the words `ws` have been received from position `got` on (R131). -/
def receivedInto : List Byte → Nat → List Word → List Byte
  | buf, _, [] => buf
  | buf, got, w :: ws => receivedInto (buf.set got (w.setWidth 8)) (got + 1) ws

/-- The pending bits of a word that are family bits, ascending, with their family (R138). -/
def familyBits (p : Params) (w : Word) : List (Nat × IrqFamily) :=
  ((List.range 32).filter fun k => w.getLsbD k).filterMap fun k => (familyOf p.irqFamilyBit k).map fun f => (k, f)

/-- The records of one family bit whose status read answered `status` (R138). -/
def familyRecords (p : Params) (k : Nat) (f : IrqFamily) (status : Word) : List OutValue :=
  (selectedVariants (subvariantsOf p.irqSubvariant f) status).map fun v => .irq irqSummaryBank k (.family f v.name)

/-- The records of an ordinary bank (R137). -/
def knownRecords (p : Params) (label : Nat) (w : Word) : List OutValue :=
  ((List.range 32).filter fun k => w.getLsbD k).filterMap fun k =>
    (knownName p.irqKnown label k).map fun name => .irq label k (.known name)

/-- What the environment answers for one bank of a dispatch: the pending word and one status word per family bit. -/
structure BankAnswer where
  pending : Word
  status : List Word

/-- The events of one bank (R136 to R138). -/
def bankEvents (p : Params) (b : IrqBank) (a : BankAnswer) : List BusEvent :=
  .rd b.address a.pending ::
    (if b.label = irqSummaryBank then ((familyBits p a.pending).zip a.status).map fun x => .rd secstatAddr x.2 else [])

/-- The records of one bank (R137, R138). -/
def bankRecords (p : Params) (b : IrqBank) (a : BankAnswer) : List OutValue :=
  if b.label = irqSummaryBank then
    ((familyBits p a.pending).zip a.status).flatMap fun x => familyRecords p x.1.1 x.1.2 x.2
  else knownRecords p b.label a.pending

/-- One status word per family bit of a summary bank. -/
def bankAnswerFits (p : Params) (b : IrqBank) (a : BankAnswer) : Prop :=
  b.label = irqSummaryBank → a.status.length = (familyBits p a.pending).length

/-! ## What a command may touch -/

/-- The guard of a command (R85): the unit it names is live. GPIO_NEW, UART_NEW, I2C_NEW, UART_RESOLVE_CLK, IRQ_DISPATCH and the
raw accesses name none, and MGR_INIT_ALL of an empty manager does nothing (R83). UART_READ_BYTES is refused before (R67). -/
def guardPasses (i : Instr) (s : State) : Bool :=
  match i with
  | .regRead _ | .regWrite _ _ | .gpioNew _ _ _ _ | .uartNew _ _ _ _ | .uartResolveClk | .uartReadBytes _ | .i2cNew _ _
  | .irqDispatch => true
  | .gpioInit p | .gpioSet p | .gpioClr p | .gpioSample p | .gpioEdge p | .gpioRelease p => (s.livePin p).isSome
  | .mgrRegister .uart | .consoleBind | .uartBaudDiv _ | .uartLineCtl _ _ _ | .uartFlush | .uartWriteChar _
  | .uartWriteBytes _ | .uartInit | .uartCharsWritten | .uartRelease => s.liveUart.isSome
  | .mgrRegister .i2c | .i2cSetDiv | .i2cSetAddr _ | .i2cSetDir _ | .i2cWrite _ _ | .i2cRead _ _ | .i2cInit
  | .i2cRelease => s.liveI2c.isSome
  | .mgrInitAll .uart => decide (s.mgrUart = .empty) || s.liveUart.isSome
  | .mgrInitAll .i2c => decide (s.mgrI2c = .empty) || s.liveI2c.isSome

/-- The pin whose unit a command may write (R14, R15): GPIO_EDGE changes no field (R96). -/
def writesPin : Instr → Option Byte
  | .gpioNew p _ _ _ | .gpioInit p | .gpioSet p | .gpioClr p | .gpioSample p | .gpioRelease p => some p
  | _ => none

/-- The commands that may write the UART unit (R17). -/
def writesUart : Instr → Bool
  | .uartNew _ _ _ _ | .uartLineCtl _ _ _ | .uartWriteChar _ | .uartWriteBytes _ | .uartRelease => true
  | _ => false

/-- The commands that may write the I2C unit (R18). -/
def writesI2c : Instr → Bool
  | .i2cNew _ _ | .i2cSetAddr _ | .i2cSetDir _ | .i2cWrite _ _ | .i2cRead _ _ | .i2cInit | .i2cRelease
  | .mgrInitAll .i2c => true
  | _ => false

/-- The commands that may resolve the clock (R17, R83). -/
def writesClock : Instr → Bool
  | .uartResolveClk | .uartInit | .mgrInitAll .uart => true
  | _ => false

/-- The commands that return results (R22). -/
def returnsResults : Instr → Bool
  | .regRead _ | .gpioSample _ | .gpioEdge _ | .uartBaudDiv _ | .uartCharsWritten | .i2cRead _ _ | .irqDispatch => true
  | _ => false

/-- The commands that write nothing to the bus. -/
def writesNoBus : Instr → Bool
  | .regRead _ | .mgrRegister _ | .consoleBind | .gpioNew _ _ _ _ | .gpioSample _ | .gpioEdge _ | .uartNew _ _ _ _
  | .uartResolveClk | .uartBaudDiv _ | .uartCharsWritten | .uartRelease | .i2cNew _ _ | .i2cRelease | .irqDispatch => true
  | _ => false

/-- REG_READ and REG_WRITE, the raw register accesses. -/
def isRawAccess : Instr → Bool
  | .regRead _ | .regWrite _ _ => true
  | _ => false

/-- The commands with an unbounded poll (R111, R131). -/
def hasPoll : Instr → Bool
  | .uartWriteChar _ | .uartWriteBytes _ | .i2cRead _ _ => true
  | _ => false

/-- The tables of R24, R30, R36 and the IRQ permissions of R43. -/
def defaultTables (p : Params) : Prop :=
  p.gpio = .default ∧ p.uart = .default ∧ p.i2c = .default ∧ p.secstatPerm = .readOnly ∧
    ∀ b ∈ p.irqBanks, b.perm = .readOnly

/-! ## The clock (R110) -/

/-- The state after `resolve_clock()`. -/
def State.withClock (s : State) : State :=
  match s.uclk, s.clkFact with
  | .resolved _, _ => s
  | .unresolved, some hz => { s with uclk := .resolved hz }
  | .unresolved, none => { s with uclk := .resolved uartDefaultClock, diag := s.diag ++ [.clockDefaulted] }

/-- The clock rate that `resolve_clock()` leaves. -/
def State.clockRate (s : State) : Word :=
  match s.uclk with
  | .resolved hz => hz
  | .unresolved => s.clkFact.getD uartDefaultClock

/-! ## The invariant of a run -/

/-- Every unit stands in the slot of its own index (R15: `index` is `p` itself). -/
def pinsIndexed (s : State) : Prop :=
  ∀ (k : Fin npin) (u : PinUnit), s.pu[k] = some u → u.index.toNat = k.val

/-- The receive buffer of the I2C unit has the size of the parameter (R18). -/
def rxbufSized (s : State) : Prop := ∀ u, s.i2c = some u → u.rxbuf.length = s.params.i2cRxbufSize

/-- A poll that is not over belongs to the command at `CP` and stands before one of its units or bytes (R80, R167). -/
def progressFits (s : State) : Prop :=
  match s.progress, decode s.params s.fetch with
  | .idle, _ => True
  | .uartTx k, .command (.uartWriteChar b) _ => k < (unitsOf b).length
  | .uartTx k, .command (.uartWriteBytes bs) _ => k < (expandNewlines bs).length
  | .uartTx _, _ => False
  | .i2cRx j, .command (.i2cRead _ n) _ => j < n.toNat
  | .i2cRx _, _ => False

/-- The halt record holds the value of `CP` (R20, R21: a command that raises leaves `CP` at its header). -/
def haltAtCp (s : State) : Prop := ∀ h, s.halt = some h → h.cp = s.cp

/-- The invariant of a run: the store is canonical, units are indexed by their slot, the buffer has its size, `CP` stays within
the stream (R20), a halt names the failing command, and a poll in progress belongs to the command at `CP`. -/
structure State.Inv (s : State) : Prop where
  memory : memoryWf s.memory = true
  pins : pinsIndexed s
  rxbuf : rxbufSized s
  cpBound : s.cp ≤ s.stream.length
  halt : haltAtCp s
  progress : progressFits s

/-- A run stands HALTED (R160). -/
def State.isHalted (s : State) : Prop := s.halt.isSome = true

/-- A run is COMPLETED (R160). -/
def State.isCompleted (s : State) : Prop := s.halt = none ∧ s.cp = s.stream.length

end Sys2Proof.Machine
end

