-- ==== Sys2Proof/Certificates/Slice0/Obligations.lean ====
section
/-!
DEFINITION. Sys2Proof/Certificates/Slice0/Obligations.lean: the statements for the provers. In each, the answers of the environment
are free (R52): a statement holds for whatever the environment answers, or names the answers it is about in `answeredBy`.
An equation `exec i s = .next t` gives the whole next state, so what `t` does not change is the frame.
-/

open Sys2Proof Sys2Proof.Machine

/-! ## Encoding and the step -/

/-- R64 to R69: the decoder reads back every well-formed command from its encoding, whatever words follow it, and its length. -/
def Obligations.DecodeOfEncode : Prop :=
  ∀ (p : Params) (i : Instr) (rest : List CmdWord), i.wellFormed p = true →
    decode p (encode i ++ rest) = .command i i.len

/-- R63 to R69: every command has one spelling: what the decoder reads is well-formed and the words read are its encoding. So a
word with a bit set that no field uses is never a command (R67). -/
def Obligations.EncodeOfDecode : Prop :=
  ∀ (p : Params) (ws : List CmdWord) (i : Instr) (len : Nat), decode p ws = .command i len →
    i.wellFormed p = true ∧ len = i.len ∧ ws.take len = encode i

/-- R66, R68: words of 95_test_vectors.md and of the rules' examples decode to the commands they stand for. -/
def Obligations.SampleWordsDecode : Prop :=
  decode .default [0x0100000A00000000#64] = .command (.regRead (.gpio .lev0)) 1 ∧
  decode .default [0x1001000000000000#64] = .command (.mgrRegister .i2c) 1 ∧
  decode .default [0x2009003700000000#64] = .command (.gpioNew 9 .alt5 .down .high) 1 ∧
  decode .default [0x301A00000001C200#64] = .command (.uartNew .even .seven .two 115200) 1 ∧
  decode .default [0x3600000300000000#64, 0x00000000000A4B4F#64] = .command (.uartWriteBytes [0x4F, 0x4B, 0x0A]) 2 ∧
  decode .default [0x4000004000061A80#64] = .command (.i2cNew 64 400000) 1 ∧
  decode .default [0x5000000000000000#64] = .command .irqDispatch 1

/-- R67: what is reserved: an opcode outside the map, opcode `0x39`, and a payload cut short by the end of the stream; the other
items are in `EncodeOfDecode`. -/
def Obligations.ReservedWords : Prop :=
  (∀ (p : Params) (w : CmdWord) (rest : List CmdWord),
    opField w ∉ [0x01#8, 0x02#8, 0x10#8, 0x11#8, 0x12#8, 0x20#8, 0x21#8, 0x22#8, 0x23#8, 0x24#8, 0x25#8, 0x26#8, 0x30#8,
      0x31#8, 0x32#8, 0x33#8, 0x34#8, 0x35#8, 0x36#8, 0x37#8, 0x38#8, 0x39#8, 0x3A#8, 0x40#8, 0x41#8, 0x42#8, 0x43#8,
      0x44#8, 0x45#8, 0x46#8, 0x47#8, 0x50#8] → decode p (w :: rest) = .reserved .unknownOpcode) ∧
  (∀ (p : Params) (w : CmdWord) (rest : List CmdWord), opField w = 0x39#8 → (decode p (w :: rest)).isReserved = true) ∧
  (∀ (p : Params) (w : CmdWord) (rest : List CmdWord), opField w = 0x36#8 ∨ opField w = 0x44#8 →
    8 * rest.length < (bField w).toNat → (decode p (w :: rest)).isReserved = true)

/-- R160: the step relation. None when halted, none at the end of the stream, else decode at `CP` and execute; a reserved word is
refused (R67). The two stops are the model's faults `halted` and `completed` (log 6). -/
def Obligations.StepRunsTheDecodedCommand : Prop :=
  ∀ s : State,
    (∀ h, s.halt = some h → step s = .fault (.halted h)) ∧
    (s.halt = none → s.stream.length ≤ s.cp → step s = .fault .completed) ∧
    (∀ i len, s.halt = none → s.cp < s.stream.length → decode s.params (s.stream.drop s.cp) = .command i len →
      step s = exec i s) ∧
    (∀ why, s.halt = none → s.cp < s.stream.length → decode s.params (s.stream.drop s.cp) = .reserved why →
      step s = .refused .reservedEncoding)

/-- R46, R154: the reset state of the PDC. -/
def Obligations.ResetState : Prop :=
  (∀ pin : Byte, State.reset.pinSlot pin = none) ∧ State.reset.uart = none ∧ State.reset.uclk = .unresolved ∧
    State.reset.i2c = none ∧ State.reset.mgrUart = .empty ∧ State.reset.mgrI2c = .empty ∧ State.reset.console = .unbound ∧
    State.reset.cp = 0 ∧ State.reset.halt = none ∧ State.reset.out = [] ∧ State.reset.diag = [] ∧ State.reset.trace = []

/-! ## Register access -/

/-- R76: `RegRead`. The permission check comes before the bus access; the address is base plus offset, absolute in the IRQ
block. -/
def Obligations.RegReadPrimitive : Prop :=
  ∀ (s : State) (r : Reg) (d : Port), portOf s.params r = some d →
    regRead r s = (if d.perm = .writeOnly then .error (.fatal .permissionViolation) s
      else .ok (envAnswer s.env d.addr) (s.afterEvents [.rd d.addr (envAnswer s.env d.addr)])) ∧
    (∀ g e, r = .gpio g → s.params.gpio.desc g = some e → d = ⟨0xFE200000#32 + e.offset, e.perm⟩) ∧
    (∀ u, r = .uart u → d = ⟨0xFE201000#32 + (s.params.uart.desc u).offset, (s.params.uart.desc u).perm⟩) ∧
    (∀ i, r = .i2c i → d = ⟨0xFE804000#32 + (s.params.i2c.desc i).offset, (s.params.i2c.desc i).perm⟩) ∧
    (∀ k b, r = .pend k → s.params.irqBanks[k]? = some b → d = ⟨b.address, b.perm⟩) ∧
    (r = .secstat → d = ⟨0xFE204E00#32, s.params.secstatPerm⟩)

/-- R77: `RegWrite`, likewise; the word is written whole. -/
def Obligations.RegWritePrimitive : Prop :=
  ∀ (s : State) (r : Reg) (v : Word) (d : Port), portOf s.params r = some d →
    regWrite r v s = (if d.perm = .readOnly then .error (.fatal .permissionViolation) s
      else .ok () (s.afterEvents [.wr d.addr v])) ∧
    (∀ g e, r = .gpio g → s.params.gpio.desc g = some e → d = ⟨0xFE200000#32 + e.offset, e.perm⟩) ∧
    (∀ u, r = .uart u → d = ⟨0xFE201000#32 + (s.params.uart.desc u).offset, (s.params.uart.desc u).perm⟩) ∧
    (∀ i, r = .i2c i → d = ⟨0xFE804000#32 + (s.params.i2c.desc i).offset, (s.params.i2c.desc i).perm⟩) ∧
    (∀ k b, r = .pend k → s.params.irqBanks[k]? = some b → d = ⟨b.address, b.perm⟩) ∧
    (r = .secstat → d = ⟨0xFE204E00#32, s.params.secstatPerm⟩)

/-- R78, R79: REG_READ returns the word the environment answers, REG_WRITE makes one write event; neither changes a unit. -/
def Obligations.RawAccessCompletes : Prop :=
  ∀ (s : State) (r : Reg) (a : Word), s.params.hasReg r = true →
    (s.readableAt r a → exec (.regRead r) s =
      .next (((s.afterEvents [.rd a (envAnswer s.env a)]).withOut (.word (envAnswer s.env a))).completed 1)) ∧
    (∀ v, s.writableAt r a → exec (.regWrite r v) s = .next ((s.afterEvents [.wr a v]).completed 1))

/-- R78, R79, R141: a read of a write-only register and a write of a read-only one are fatal, and nothing reaches the bus. -/
def Obligations.RawAccessViolation : Prop :=
  ∀ (s : State) (r : Reg) (a : Word), s.params.hasReg r = true →
    (portOf s.params r = some ⟨a, .writeOnly⟩ → exec (.regRead r) s = .next (takeFatal .permissionViolation s)) ∧
    (∀ v, portOf s.params r = some ⟨a, .readOnly⟩ → exec (.regWrite r v) s = .next (takeFatal .permissionViolation s))

/-- R54, R79: in the backing store, REG_READ of a read-write register returns what REG_WRITE stored, and no other word changes. -/
def Obligations.BackingStorePersists : Prop :=
  ∀ (s t : State) (r : Reg) (a v : Word) (m : Memory), s.params.hasReg r = true → portOf s.params r = some ⟨a, .readWrite⟩ →
    s.env = .backingStore m → memoryWf m = true → exec (.regWrite r v) s = .next t →
      exec (.regRead r) t = .next (((t.afterEvents [.rd a v]).withOut (.word v)).completed 1) ∧
      ∀ b : Word, a.toNat % 4 = 0 → b.toNat % 4 = 0 → b ≠ a → readWord t.memory b = readWord m b

/-- R24, R30, R36, R49: the default register map. R72 to R74, R7: the default and suggested masks and words. -/
def Obligations.DefaultRegisterMap : Prop :=
  [GpioReg.fsel0, .fsel1, .fsel2, .fsel3, .fsel4, .fsel5, .set0, .set1, .clr0, .clr1, .lev0, .lev1, .eds0, .eds1].map
      (fun r => portOf .default (.gpio r)) =
    [some ⟨0xFE200000#32, .readWrite⟩, some ⟨0xFE200004#32, .readWrite⟩, some ⟨0xFE200008#32, .readWrite⟩,
     some ⟨0xFE20000C#32, .readWrite⟩, some ⟨0xFE200010#32, .readWrite⟩, some ⟨0xFE200014#32, .readWrite⟩,
     some ⟨0xFE20001C#32, .writeOnly⟩, some ⟨0xFE200020#32, .writeOnly⟩, some ⟨0xFE200028#32, .writeOnly⟩,
     some ⟨0xFE20002C#32, .writeOnly⟩, some ⟨0xFE200034#32, .readOnly⟩, some ⟨0xFE200038#32, .readOnly⟩,
     some ⟨0xFE200040#32, .readWrite⟩, some ⟨0xFE200044#32, .readWrite⟩] ∧
  [UartReg.dr, .fr, .ibrd, .fbrd, .lcrh, .cr].map (fun r => portOf .default (.uart r)) =
    [some ⟨0xFE201000#32, .readWrite⟩, some ⟨0xFE201018#32, .readOnly⟩, some ⟨0xFE201024#32, .readWrite⟩,
     some ⟨0xFE201028#32, .readWrite⟩, some ⟨0xFE20102C#32, .readWrite⟩, some ⟨0xFE201030#32, .readWrite⟩] ∧
  [I2cReg.c, .s, .dlen, .a, .fifo, .div, .clkt].map (fun r => portOf .default (.i2c r)) =
    [some ⟨0xFE804000#32, .readWrite⟩, some ⟨0xFE804004#32, .readWrite⟩, some ⟨0xFE804008#32, .readWrite⟩,
     some ⟨0xFE80400C#32, .readWrite⟩, some ⟨0xFE804010#32, .readWrite⟩, some ⟨0xFE804014#32, .readWrite⟩,
     some ⟨0xFE80401C#32, .readWrite⟩] ∧
  portOf .default .secstat = some ⟨0xFE204E00#32, .readOnly⟩ ∧
  (let p := Params.default
   p.uartCrEnable = 0x301#32 ∧ p.uartFrTxPending = 0x08#32 ∧ p.uartFrRxPending = 0x40#32 ∧ p.uartFrTxff = 0x20#32 ∧
   p.i2cCRead = 0x1#32 ∧ p.i2cCClearMask = 0x10#32 ∧ p.i2cCSt = 0x80#32 ∧ p.i2cCI2cen = 0x8000#32 ∧
   p.i2cSClearMask = 0x302#32 ∧ p.i2cSRxd = 0x20#32 ∧ p.uartTxPoll = true ∧ p.i2cRxPoll = true ∧
   p.uartFifoDepth = 16 ∧ p.i2cRxbufSize = 16 ∧ p.i2cCoreClockHz = 150000000)

/-! ## Lifecycle -/

/-- R85: every command that names a unit is refused when that unit is absent or released, and R146's reason is `NoSuchUnit`. -/
def Obligations.AbsentUnitIsRefused : Prop :=
  ∀ (i : Instr) (s : State), guardPasses i s = false → exec i s = .refused .noSuchUnit

/-- R82, R81: MGR_REGISTER and CONSOLE_BIND on a live unit. -/
def Obligations.RegisterAndBindComplete : Prop :=
  ∀ s : State,
    (∀ u, s.liveUart = some u →
      exec (.mgrRegister .uart) s = .next ({ s with mgrUart := .registered }.completed 1) ∧
      exec .consoleBind s = .next ({ s with console := .bound }.completed 1)) ∧
    (∀ u, s.liveI2c = some u → exec (.mgrRegister .i2c) s = .next ({ s with mgrI2c := .registered }.completed 1))

/-- R83, R84: MGR_INIT_ALL changes nothing but `CP` when the manager is empty; with a driver registered it does what the driver's
initialise command does, once. -/
def Obligations.InitAllFollowsTheManager : Prop :=
  ∀ s : State,
    (s.mgrUart = .empty → exec (.mgrInitAll .uart) s = .next (s.completed 1)) ∧
    (s.mgrI2c = .empty → exec (.mgrInitAll .i2c) s = .next (s.completed 1)) ∧
    (s.mgrUart = .registered → exec (.mgrInitAll .uart) s = exec .uartInit s) ∧
    (s.mgrI2c = .registered → exec (.mgrInitAll .i2c) s = exec .i2cInit s)

/-! ## GPIO -/

/-- R89: function-select banking of the pins 0 to 57: bank `p div 10`, shift `(p mod 10) * 3`, mask `0b111` at the shift, always
inside bits 29:0, and no two pins of a bank share a bit. -/
def Obligations.FunctionSelectBanking : Prop :=
  (∀ pin : Byte, pin.toNat < 58 →
    ([GpioReg.fsel0, .fsel1, .fsel2, .fsel3, .fsel4, .fsel5][pin.toNat / 10]?).map Reg.gpio = some (fselReg pin) ∧
    fselShift pin = (pin.toNat % 10) * 3 ∧ fselShift pin ≤ 27 ∧ fselMask pin = 0b111#32 <<< ((pin.toNat % 10) * 3) ∧
    fselMask pin &&& 0xC0000000#32 = 0#32) ∧
  (∀ p q : Byte, p.toNat < 58 → q.toNat < 58 → fselReg p = fselReg q → p ≠ q → fselMask p &&& fselMask q = 0#32)

/-- R90: banking of the set, clear, level and edge registers for the pins 0 to 57. -/
def Obligations.LowAndHighBanks : Prop :=
  ∀ pin : Byte, pin.toNat < 58 →
    (bankReg .set pin = .gpio (if pin.toNat < 32 then .set0 else .set1)) ∧
    (bankReg .clr pin = .gpio (if pin.toNat < 32 then .clr0 else .clr1)) ∧
    (bankReg .lev pin = .gpio (if pin.toNat < 32 then .lev0 else .lev1)) ∧
    (bankReg .eds pin = .gpio (if pin.toNat < 32 then .eds0 else .eds1)) ∧
    bankBit pin = (if pin.toNat < 32 then pin.toNat else pin.toNat - 32) ∧
    bankMask pin = 1#32 <<< bankBit pin ∧ bankBit pin < 32 ∧ (32 ≤ pin.toNat → bankBit pin ≤ 25)

/-- R91, R141: GPIO_NEW of a free slot creates the unit; a pin index of 58 or more is fatal and nothing else happens; a slot whose
unit is live is refused (R146). -/
def Obligations.GpioNewResult : Prop :=
  ∀ (s : State) (pin : Byte) (f : PinFunction) (pull : Pull) (level : Level),
    (pin.toNat < 58 → s.livePin pin = none →
      exec (.gpioNew pin f pull level) s =
        .next ((s.setPin pin ⟨pin.setWidth 6, f, pull, level, .unconfigured⟩).completed 1)) ∧
    (58 ≤ pin.toNat → exec (.gpioNew pin f pull level) s = .next (takeFatal .invalidPin s)) ∧
    (∀ u, s.livePin pin = some u → exec (.gpioNew pin f pull level) s = .refused .unitExists)

/-- R92: GPIO_INIT asserts the level, programs the 3-bit field by read-modify-write and samples the level: four events. R70: the
codes of the default table. -/
def Obligations.GpioInitCompletes : Prop :=
  ([PinFunction.input, .output, .alt0, .alt1, .alt2, .alt3, .alt4, .alt5].map (fselCodeOf FselCodes.default) =
    [0b000#3, 0b001#3, 0b100#3, 0b101#3, 0b110#3, 0b111#3, 0b011#3, 0b010#3]) ∧
  ∀ (s : State) (pin : Byte) (u : PinUnit) (aOut aSel aLev old lv : Word), s.livePin pin = some u →
    s.writableAt (bankReg (assertKind u.level) pin) aOut → s.readableAt (fselReg pin) aSel →
    s.writableAt (fselReg pin) aSel → s.readableAt (bankReg .lev pin) aLev →
    let new := (old &&& ~~~(fselMask pin)) ||| ((fselCodeOf s.params.fselCode u.function).setWidth 32 <<< fselShift pin)
    let evs : List BusEvent := [.wr aOut (bankMask pin), .rd aSel old, .wr aSel new, .rd aLev lv]
    answeredBy s.env evs →
    exec (.gpioInit pin) s =
      .next (((s.afterEvents evs).setPin pin
        { u with level := if lv &&& bankMask pin ≠ 0#32 then .high else .low, fsm := .functionSelected }).completed 1)

/-- R25, R92: the word GPIO_INIT writes holds the code in the pin's three bits and every other bit as read. -/
def Obligations.FunctionFieldOnly : Prop :=
  ∀ (old : Word) (pin : Byte) (code : BitVec 3), pin.toNat < 58 →
    (insertField3 old (fselShift pin) code).extractLsb' (fselShift pin) 3 = code ∧
    ∀ k, k < fselShift pin ∨ fselShift pin + 3 ≤ k → (insertField3 old (fselShift pin) code).getLsbD k = old.getLsbD k

/-- R93, R94, R97: GPIO_SET, GPIO_CLR and GPIO_RELEASE: one write of the pin's mask, and the FSM state. The stored level stays. -/
def Obligations.GpioPulsesComplete : Prop :=
  ∀ (s : State) (pin : Byte) (u : PinUnit) (a : Word), s.livePin pin = some u →
    (s.writableAt (bankReg .set pin) a →
      exec (.gpioSet pin) s =
        .next (((s.afterEvents [.wr a (bankMask pin)]).setPin pin { u with fsm := .driven }).completed 1)) ∧
    (s.writableAt (bankReg .clr pin) a →
      exec (.gpioClr pin) s =
        .next (((s.afterEvents [.wr a (bankMask pin)]).setPin pin { u with fsm := .driven }).completed 1) ∧
      exec (.gpioRelease pin) s =
        .next (((s.afterEvents [.wr a (bankMask pin)]).setPin pin { u with fsm := .released }).completed 1))

/-- R95, R96: GPIO_SAMPLE records and returns the owned bit of the level word; GPIO_EDGE returns the owned bit of the edge word and
changes no field. -/
def Obligations.GpioTestsComplete : Prop :=
  ∀ (s : State) (pin : Byte) (u : PinUnit) (a : Word), s.livePin pin = some u →
    let w := envAnswer s.env a
    (s.readableAt (bankReg .lev pin) a →
      exec (.gpioSample pin) s =
        .next ((((s.afterEvents [.rd a w]).setPin pin
          { u with level := if w &&& bankMask pin ≠ 0#32 then .high else .low }).withOut
            (.bit (decide (w &&& bankMask pin ≠ 0#32)))).completed 1)) ∧
    (s.readableAt (bankReg .eds pin) a →
      exec (.gpioEdge pin) s =
        .next (((s.afterEvents [.rd a w]).withOut (.bit (decide (w &&& bankMask pin ≠ 0#32)))).completed 1))

/-- R98, R142: a GPIO command whose banking names a register the table lacks is fatal before any bus access. Log 14 says which
registers GPIO_INIT needs. -/
def Obligations.UnmappedGpioRegister : Prop :=
  ∀ (s : State) (pin : Byte) (u : PinUnit), s.livePin pin = some u →
    (portOf s.params (bankReg .set pin) = none → exec (.gpioSet pin) s = .next (takeFatal .unmappedRegister s)) ∧
    (portOf s.params (bankReg .clr pin) = none →
      exec (.gpioClr pin) s = .next (takeFatal .unmappedRegister s) ∧
      exec (.gpioRelease pin) s = .next (takeFatal .unmappedRegister s)) ∧
    (portOf s.params (bankReg .lev pin) = none → exec (.gpioSample pin) s = .next (takeFatal .unmappedRegister s)) ∧
    (portOf s.params (bankReg .eds pin) = none → exec (.gpioEdge pin) s = .next (takeFatal .unmappedRegister s)) ∧
    (portOf s.params (bankReg (assertKind u.level) pin) = none ∨ portOf s.params (fselReg pin) = none ∨
      portOf s.params (bankReg .lev pin) = none → exec (.gpioInit pin) s = .next (takeFatal .unmappedRegister s)) ∧
    (s.params.gpio = .default → ∀ k,
      portOf s.params (bankReg k pin) ≠ none ∧ portOf s.params (fselReg pin) ≠ none)

/-! ## UART -/

/-- R102, R122: UART_NEW and I2C_NEW where no unit is live create it; where one is live they are refused (R146). -/
def Obligations.UnitConstruction : Prop :=
  ∀ s : State,
    (∀ parity wlen stop baud, s.liveUart = none →
      exec (.uartNew parity wlen stop baud) s =
        .next ({ s with uart := some ⟨parity, wlen, stop, baud, 0#64, false⟩ }.completed 1)) ∧
    (∀ timeout clock, s.liveI2c = none →
      exec (.i2cNew timeout clock) s =
        .next ({ s with i2c := some ⟨clock, timeout, 0#7, .write, 0#16, .idle, List.replicate s.params.i2cRxbufSize 0#8,
          false⟩ }.completed 1)) ∧
    (∀ u parity wlen stop baud, s.liveUart = some u → exec (.uartNew parity wlen stop baud) s = .refused .unitExists) ∧
    (∀ u timeout clock, s.liveI2c = some u → exec (.i2cNew timeout clock) s = .refused .unitExists)

/-- R110: UART_RESOLVE_CLK: once; from the fact where it is present, else 48 MHz and a diagnostic. -/
def Obligations.ClockResolution : Prop :=
  ∀ s : State,
    (∀ hz, s.uclk = .resolved hz → exec .uartResolveClk s = .next (s.completed 1)) ∧
    (∀ hz, s.uclk = .unresolved → s.clkFact = some hz →
      exec .uartResolveClk s = .next ({ s with uclk := .resolved hz }.completed 1)) ∧
    (s.uclk = .unresolved → s.clkFact = none →
      exec .uartResolveClk s =
        .next ({ s with uclk := .resolved 48000000#32, diag := s.diag ++ [Diagnostic.clockDefaulted] }.completed 1))

/-- R103, R104, R106: UART_BAUD_DIV returns the divisor pair when the target is not 0, the fraction fits 6 bits and the achieved
baud is within 1/64 of the target; it makes no bus access. -/
def Obligations.BaudDivCompletes : Prop :=
  ∀ (s : State) (u : UartUnit) (hz target : Word), s.liveUart = some u → s.uclk = .resolved hz → target ≠ 0#32 →
    let d := 16 * target.toNat
    let ibrd := hz.toNat / d
    let fbrd := (128 * (hz.toNat % d) + d) / (2 * d)
    let n := 64 * ibrd + fbrd
    fbrd ≤ 63 → n ≠ 0 → 64 * ((4 * hz.toNat : Int) - target.toNat * n).natAbs ≤ target.toNat * n →
    exec (.uartBaudDiv target) s = .next ((s.withOut (.divisor ibrd fbrd)).completed 1)

/-- R103, R104, R106, R143: where UART_BAUD_DIV stops, and in which order. -/
def Obligations.BaudDivStops : Prop :=
  ∀ (s : State) (u : UartUnit) (target : Word), s.liveUart = some u →
    (s.uclk = .unresolved → exec (.uartBaudDiv target) s = .refused .clockUnresolved) ∧
    (∀ hz, s.uclk = .resolved hz →
      let d := 16 * target.toNat
      let fbrd := (128 * (hz.toNat % d) + d) / (2 * d)
      let n := 64 * (hz.toNat / d) + fbrd
      (target = 0#32 → exec (.uartBaudDiv target) s = .refused (.zeroBaud s)) ∧
      (target ≠ 0#32 → 63 < fbrd → exec (.uartBaudDiv target) s = .next (takeFatal .divisorOverflow s)) ∧
      (target ≠ 0#32 → fbrd ≤ 63 → n = 0 ∨ target.toNat * n < 64 * ((4 * hz.toNat : Int) - target.toNat * n).natAbs →
        exec (.uartBaudDiv target) s = .next (takeFatal .baudUnattainable s)))

/-- R105: with a fraction of at most 63 and a divisor of at least 32 the accuracy check passes; in particular with an integer part
of at least 1. -/
def Obligations.LargeDivisorsAreAccurate : Prop :=
  ∀ clock target : Nat, 0 < target → baudFraction clock target ≤ 63 →
    (32 ≤ baudSixtyFourths clock target → baudAccurate clock target = true) ∧
    (1 ≤ baudInteger clock target → 64 ≤ baudSixtyFourths clock target ∧ baudAccurate clock target = true)

/-- R107, R71: with the default layout, packing preserves every bit outside 0x6E and puts the three codes at bits 2:1, 3 and 6:5;
the FIFO-enable bit is 0x10, the mask of the three fields 0x6E, and 8 bits, no parity, one stop bit pack to 0x60. -/
def Obligations.LineControlPacking : Prop :=
  lcrhFen .default = 0x10#32 ∧ lcrhFieldsMask .default = 0x6E#32 ∧ lcrhPack .default .none .eight .one = 0x60#32 ∧
  ∀ (l : Word) (p : Parity) (w : WordLength) (st : StopBits),
    let r := lcrhApply .default l p w st
    r &&& 0xFFFFFF91#32 = l &&& 0xFFFFFF91#32 ∧
    r.extractLsb' 1 2 = (match p with | .none => 0b00#2 | .odd => 0b01#2 | .even => 0b11#2) ∧
    r.extractLsb' 3 1 = (match st with | .one => 0#1 | .two => 1#1) ∧
    r.extractLsb' 5 2 = (match w with | .five => 0b00#2 | .six => 0b01#2 | .seven => 0b10#2 | .eight => 0b11#2)

/-- R108: UART_LINE_CTL overrides the given settings, keeps the others, and makes one read-modify-write of `LCRH`. -/
def Obligations.LineCtlCompletes : Prop :=
  ∀ (s : State) (u : UartUnit) (p : Option Parity) (w : Option WordLength) (st : Option StopBits) (a : Word),
    s.liveUart = some u → s.readableAt (.uart .lcrh) a → s.writableAt (.uart .lcrh) a →
    let u' := { u with parity := p.getD u.parity, wordLength := w.getD u.wordLength, stopBits := st.getD u.stopBits }
    let l := envAnswer s.env a
    exec (.uartLineCtl p w st) s =
      .next (({ s with uart := some u' }.afterEvents
        [.rd a l, .wr a (lcrhApply s.params.lcrh l u'.parity u'.wordLength u'.stopBits)]).completed 1)

/-- R109, R120: UART_FLUSH: one snapshot of `FR`; the FIFO off and on if transmit data is pending; depth plus one reads of `DR` if
receive data is pending, whatever they answer. -/
def Obligations.FlushCompletes : Prop :=
  ∀ (s : State) (u : UartUnit) (fr l : Word) (ws : List Word), s.liveUart = some u → uartOpen s.params →
    ws.length = s.params.uartFifoDepth + 1 →
    let evs := flushEvents s.params (uartAddr s.params .fr) (uartAddr s.params .lcrh) (uartAddr s.params .dr) fr l ws
    answeredBy s.env evs → exec .uartFlush s = .next ((s.afterEvents evs).completed 1)

/-- R111, R112, R114, R117: UART_WRITE_CHAR and UART_WRITE_BYTES send their units, newlines expanded, one at a time, each after a
poll that finds room (where transmit polls), and count each; the units sent by earlier steps (log 5) are not sent again. -/
def Obligations.TransmitCompletes : Prop :=
  ∀ (s : State) (u : UartUnit) (units : List Byte) (frs : List Word), s.liveUart = some u → uartOpen s.params →
    frs.length = units.length → (∀ w ∈ frs, w &&& s.params.uartFrTxff = 0#32) →
    let evs := transmitEvents s.params.uartTxPoll (uartAddr s.params .fr) (uartAddr s.params .dr) units frs
    let after := { s.afterEvents evs with
      uart := some { u with charsWritten := u.charsWritten + BitVec.ofNat 64 units.length } }
    answeredBy s.env evs →
    (∀ b : Byte, units = (if b = 0x0A#8 then [0x0D#8, 0x0A#8] else [b]).drop (unitsSent s) →
      exec (.uartWriteChar b) s = .next (after.completed 1)) ∧
    (∀ bytes : List Byte,
      units = (bytes.flatMap fun b => if b = 0x0A#8 then [0x0D#8, 0x0A#8] else [b]).drop (unitsSent s) →
      exec (.uartWriteBytes bytes) s = .next (after.completed (1 + (bytes.length + 7) / 8)))

/-- R111, R113, R167: a transmit that meets a full FIFO: the units `sent` before it go out as in `TransmitCompletes` (none of them,
where the first poll is full), one more poll read is made, and the command stays at its place. That the poll read ends the step,
and what `progress` holds, is the model's choice (log 5). -/
def Obligations.TransmitWaits : Prop :=
  ∀ (s : State) (u : UartUnit) (sent left : List Byte) (frs : List Word) (full : Word), s.liveUart = some u →
    uartOpen s.params → s.params.uartTxPoll = true → left ≠ [] → frs.length = sent.length →
    (∀ w ∈ frs, w &&& s.params.uartFrTxff = 0#32) → full &&& s.params.uartFrTxff ≠ 0#32 →
    let evs := transmitEvents true (uartAddr s.params .fr) (uartAddr s.params .dr) sent frs ++ [.rd (uartAddr s.params .fr) full]
    let after := { s.afterEvents evs with
      uart := some { u with charsWritten := u.charsWritten + BitVec.ofNat 64 sent.length }
      progress := .uartTx (unitsSent s + sent.length) }
    answeredBy s.env evs →
    (∀ b : Byte, sent ++ left = (if b = 0x0A#8 then [0x0D#8, 0x0A#8] else [b]).drop (unitsSent s) →
      exec (.uartWriteChar b) s = .next after) ∧
    (∀ bytes : List Byte,
      sent ++ left = (bytes.flatMap fun b => if b = 0x0A#8 then [0x0D#8, 0x0A#8] else [b]).drop (unitsSent s) →
      exec (.uartWriteBytes bytes) s = .next after)

/-- R111, R167: a run that never ends. With a store whose flag register has the FIFO-full bit set, for every k the run has k poll
reads and nothing else. -/
def Obligations.FullFifoPollsForever : Prop :=
  ∀ (s : State) (u : UartUnit) (b : Byte) (m : Memory) (w : Word), s.halt = none → s.cp < s.stream.length →
    decode s.params s.fetch = .command (.uartWriteChar b) 1 → s.progress = .idle → s.liveUart = some u →
    uartOpen s.params → s.params.uartTxPoll = true → s.env = .backingStore m →
    readWord m (uartAddr s.params .fr) = w → w &&& s.params.uartFrTxff ≠ 0#32 →
    ∀ k : Nat, core.run (k + 1) s =
      .next { s with
        trace := s.trace ++ List.replicate (k + 1) (.rd (uartAddr s.params .fr) w), progress := .uartTx 0 }

/-- R115: UART_INIT: resolve clock, enable, divisor, flush, line control, in this order. -/
def Obligations.UartInitCompletes : Prop :=
  ∀ (s : State) (u : UartUnit) (fr l l' : Word) (ws : List Word), s.liveUart = some u → uartOpen s.params →
    ws.length = s.params.uartFifoDepth + 1 → u.baudRate ≠ 0#32 →
    baudFraction s.clockRate.toNat u.baudRate.toNat ≤ 63 → baudAccurate s.clockRate.toNat u.baudRate.toNat = true →
    let p := s.params
    let evs := [.wr (uartAddr p .cr) p.uartCrEnable,
        .wr (uartAddr p .ibrd) (BitVec.ofNat 32 (baudInteger s.clockRate.toNat u.baudRate.toNat)),
        .wr (uartAddr p .fbrd) (BitVec.ofNat 32 (baudFraction s.clockRate.toNat u.baudRate.toNat))] ++
      flushEvents p (uartAddr p .fr) (uartAddr p .lcrh) (uartAddr p .dr) fr l ws ++
      [.rd (uartAddr p .lcrh) l', .wr (uartAddr p .lcrh) (lcrhApply p.lcrh l' u.parity u.wordLength u.stopBits)]
    answeredBy s.env evs → exec .uartInit s = .next ((s.withClock.afterEvents evs).completed 1)

/-- R115, R103, R104, R141, R143: where UART_INIT stops: after the clock resolution and the control-register write, before the
divisor writes. -/
def Obligations.UartInitStopsAtTheDivisor : Prop :=
  ∀ (s : State) (u : UartUnit), s.liveUart = some u → uartOpen s.params →
    let enabled := s.withClock.afterEvents [.wr (uartAddr s.params .cr) s.params.uartCrEnable]
    (u.baudRate = 0#32 → exec .uartInit s = .refused (.zeroBaud enabled)) ∧
    (u.baudRate ≠ 0#32 → 63 < baudFraction s.clockRate.toNat u.baudRate.toNat →
      exec .uartInit s = .next (takeFatal .divisorOverflow enabled)) ∧
    (u.baudRate ≠ 0#32 → baudFraction s.clockRate.toNat u.baudRate.toNat ≤ 63 →
      baudAccurate s.clockRate.toNat u.baudRate.toNat = false →
      exec .uartInit s = .next (takeFatal .baudUnattainable enabled))

/-- R118, R119: UART_CHARS_WRITTEN returns the counter, UART_RELEASE marks the unit; neither touches the bus. -/
def Obligations.UartCounterAndRelease : Prop :=
  ∀ (s : State) (u : UartUnit), s.liveUart = some u →
    exec .uartCharsWritten s = .next ((s.withOut (.count u.charsWritten)).completed 1) ∧
    exec .uartRelease s = .next ({ s with uart := some { u with released := true } }.completed 1)

/-- R116: UART_READ_BYTES is refused in every state, and so is every word with its opcode, whatever its other bits and whatever
follows it. -/
def Obligations.UartReadBytesIsRefused : Prop :=
  (∀ (rest : BitVec 56) (s : State), exec (.uartReadBytes rest) s = .refused .reservedEncoding) ∧
  (∀ (s : State) (w : CmdWord) (rest : List CmdWord), s.halt = none → s.fetch = w :: rest → opField w = 0x39#8 →
    step s = .refused .reservedEncoding)

/-! ## I2C -/

/-- R123, R124, R125, R133: the single steps of the I2C unit on a live unit. -/
def Obligations.I2cStepsComplete : Prop :=
  ∀ (s : State) (u : I2cUnit), s.liveI2c = some u → i2cOpen s.params →
    let p := s.params
    let c := envAnswer s.env (i2cAddr p .c)
    (u.clockRateHz ≠ 0#32 →
      exec .i2cSetDiv s =
        .next ((s.afterEvents
          [.wr (i2cAddr p .div) (BitVec.ofNat 32 (p.i2cCoreClockHz / u.clockRateHz.toNat))]).completed 1)) ∧
    (∀ addr : Byte, addr.getLsbD 7 = false →
      exec (.i2cSetAddr addr) s =
        .next (({ s with i2c := some { u with slaveAddress := addr.setWidth 7, fsm := .configured } }.afterEvents
          [.wr (i2cAddr p .a) (addr.setWidth 32)]).completed 1)) ∧
    (∀ dir : Direction,
      exec (.i2cSetDir dir) s =
        .next (({ s with i2c := some { u with transferDirection := dir, fsm := .configured } }.afterEvents
          [.rd (i2cAddr p .c) c, .wr (i2cAddr p .c)
            (match dir with | .read => c ||| p.i2cCRead | .write => c &&& ~~~p.i2cCRead)]).completed 1)) ∧
    exec .i2cRelease s = .next ({ s with i2c := some { u with released := true } }.completed 1)

/-- R130: I2C_WRITE: direction, address, length, clear, the bytes in order, clear status, start; 9 + n events.
A byte string of more than 65535 bytes has no encoding, and its low 16 bits of length are the model's choice (logs 10, 13). -/
def Obligations.I2cWriteCompletes : Prop :=
  ∀ (s : State) (u : I2cUnit) (addr : Byte) (bytes : List Byte) (c1 c2 c3 : Word), s.liveI2c = some u → i2cOpen s.params →
    addr.getLsbD 7 = false → c3 &&& s.params.i2cCI2cen ≠ 0#32 →
    let evs := writeSlaveEvents s.params addr bytes c1 c2 c3
    answeredBy s.env evs → evs.length = 9 + bytes.length ∧
    exec (.i2cWrite addr bytes) s =
      .next (({ s with i2c := some { u with
        transferDirection := .write, slaveAddress := addr.setWidth 7, dataLength := BitVec.ofNat 16 bytes.length,
        fsm := .idle } }.afterEvents evs).completed (1 + (bytes.length + 7) / 8))

/-- R124, R130, R131, R141: an address with its eighth bit set is fatal: at once in I2C_SET_ADDR, after the two events of the
direction step in I2C_WRITE and I2C_READ; the direction field stands. -/
def Obligations.I2cAddressIsFatal : Prop :=
  ∀ (s : State) (u : I2cUnit) (addr : Byte), s.liveI2c = some u → i2cOpen s.params → addr.getLsbD 7 = true →
    let a := i2cAddr s.params .c
    let c := envAnswer s.env a
    exec (.i2cSetAddr addr) s = .next (takeFatal .i2cAddress s) ∧
    (∀ bytes, exec (.i2cWrite addr bytes) s =
      .next (takeFatal .i2cAddress ({ s with i2c := some { u with transferDirection := .write } }.afterEvents
        [.rd a c, .wr a (c &&& ~~~s.params.i2cCRead)]))) ∧
    (∀ n : BitVec 16, s.progress = .idle → n.toNat ≤ s.params.i2cRxbufSize → exec (.i2cRead addr n) s =
      .next (takeFatal .i2cAddress ({ s with i2c := some { u with transferDirection := .read } }.afterEvents
        [.rd a c, .wr a (c ||| s.params.i2cCRead)])))

/-- R129, R130, R131, R141: a start whose control word has the enable bit clear is fatal after its read and before its write, with
every earlier step done. The low 16 bits of the length of a byte string of more than 65535 bytes are the model's choice
(logs 10, 13). -/
def Obligations.I2cNotEnabledIsFatal : Prop :=
  ∀ (s : State) (u : I2cUnit) (addr : Byte) (c1 c2 c3 : Word), s.liveI2c = some u → i2cOpen s.params →
    addr.getLsbD 7 = false → c3 &&& s.params.i2cCI2cen = 0#32 →
    (∀ bytes : List Byte,
      let n := BitVec.ofNat 16 bytes.length
      let evs := i2cSetupEvents s.params .write addr n c1 c2 ++
        bytes.map (fun b => .wr (i2cAddr s.params .fifo) (b.setWidth 32)) ++
        [.wr (i2cAddr s.params .s) s.params.i2cSClearMask, .rd (i2cAddr s.params .c) c3]
      answeredBy s.env evs → exec (.i2cWrite addr bytes) s =
        .next (takeFatal .i2cNotEnabled ({ s with i2c := some { u with
          transferDirection := .write, slaveAddress := addr.setWidth 7, dataLength := n,
          fsm := .configured } }.afterEvents evs))) ∧
    (∀ n : BitVec 16, s.progress = .idle → n.toNat ≤ s.params.i2cRxbufSize →
      let evs := i2cSetupEvents s.params .read addr n c1 c2 ++ [.rd (i2cAddr s.params .c) c3]
      answeredBy s.env evs → exec (.i2cRead addr n) s =
        .next (takeFatal .i2cNotEnabled ({ s with i2c := some { u with
          transferDirection := .read, slaveAddress := addr.setWidth 7, dataLength := n,
          fsm := .configured } }.afterEvents evs)))

/-- R131: I2C_READ: setup, start, and `n` bytes drained into the buffer, each after a poll that finds data (where it polls); the
bytes from `n` on keep their value. -/
def Obligations.I2cReadCompletes : Prop :=
  ∀ (s : State) (u : I2cUnit) (addr : Byte) (n : BitVec 16) (c1 c2 c3 : Word) (ws sts : List Word),
    s.liveI2c = some u → i2cOpen s.params → rxbufSized s → s.progress = .idle → addr.getLsbD 7 = false →
    n.toNat ≤ s.params.i2cRxbufSize → c3 &&& s.params.i2cCI2cen ≠ 0#32 → ws.length = n.toNat → sts.length = n.toNat →
    (∀ w ∈ sts, w &&& s.params.i2cSRxd ≠ 0#32) →
    let bytes : List Byte := ws.map fun w => w.setWidth 8
    let evs := i2cSetupEvents s.params .read addr n c1 c2 ++ i2cStartEvents s.params c3 ++ receiveEvents s.params ws sts
    answeredBy s.env evs → exec (.i2cRead addr n) s =
      .next ((({ s with i2c := some { u with
        transferDirection := .read, slaveAddress := addr.setWidth 7, dataLength := n, fsm := .idle,
        rxbuf := bytes ++ u.rxbuf.drop n.toNat } }.afterEvents evs).withOut (.bytes bytes)).completed 1)

/-- R131, R167: I2C_READ that meets an empty FIFO: the words `ws` before it are received as in `I2cReadCompletes` (none of them,
where the first poll finds nothing), one more poll read is made, and the command stays at its place: from its first line after
the setup and the start, in a resumed step with nothing else. That the poll read ends the step, and what `progress` holds, is the
model's choice (log 5). -/
def Obligations.I2cReadWaits : Prop :=
  ∀ (s : State) (u : I2cUnit) (addr : Byte) (n : BitVec 16) (ws sts : List Word) (empty : Word), s.liveI2c = some u →
    i2cOpen s.params → s.params.i2cRxPoll = true → sts.length = ws.length → (∀ w ∈ sts, w &&& s.params.i2cSRxd ≠ 0#32) →
    empty &&& s.params.i2cSRxd = 0#32 →
    let drain := receiveEvents s.params ws sts ++ [.rd (i2cAddr s.params .s) empty]
    (∀ c1 c2 c3 : Word, s.progress = .idle → addr.getLsbD 7 = false → n.toNat ≤ s.params.i2cRxbufSize → ws.length < n.toNat →
      c3 &&& s.params.i2cCI2cen ≠ 0#32 →
      let evs := i2cSetupEvents s.params .read addr n c1 c2 ++ i2cStartEvents s.params c3 ++ drain
      answeredBy s.env evs → exec (.i2cRead addr n) s =
        .next { { s with i2c := some { u with
          transferDirection := .read, slaveAddress := addr.setWidth 7, dataLength := n, fsm := .transferring,
          rxbuf := receivedInto u.rxbuf 0 ws } }.afterEvents evs with progress := .i2cRx ws.length }) ∧
    (∀ got, s.progress = .i2cRx got → got + ws.length < n.toNat → answeredBy s.env drain →
      exec (.i2cRead addr n) s =
        .next { { s with i2c := some { u with rxbuf := receivedInto u.rxbuf got ws } }.afterEvents drain with
          progress := .i2cRx (got + ws.length) })

/-- R131, R167: a step that resumes I2C_READ after `got` bytes drains the rest and completes; it repeats no earlier access
(log 5). -/
def Obligations.I2cReadResumes : Prop :=
  ∀ (s : State) (u : I2cUnit) (addr : Byte) (n : BitVec 16) (got : Nat) (ws sts : List Word),
    s.liveI2c = some u → i2cOpen s.params → s.progress = .i2cRx got → got + ws.length = n.toNat → sts.length = ws.length →
    (∀ w ∈ sts, w &&& s.params.i2cSRxd ≠ 0#32) →
    let evs := receiveEvents s.params ws sts
    let buf := receivedInto u.rxbuf got ws
    answeredBy s.env evs → exec (.i2cRead addr n) s =
      .next ((({ s with i2c := some { u with fsm := .idle, rxbuf := buf } }.afterEvents evs).withOut
        (.bytes (buf.take n.toNat))).completed 1)

/-- R131, R123, R132, R146: the refusals of the I2C commands: a read longer than the buffer before any bus access; a desired clock
of 0 in I2C_SET_DIV at once and in I2C_INIT after the two events of the enable step. -/
def Obligations.I2cRefusals : Prop :=
  ∀ (s : State) (u : I2cUnit), s.liveI2c = some u → i2cOpen s.params →
    let a := i2cAddr s.params .c
    let c := envAnswer s.env a
    (∀ addr n, s.progress = .idle → s.params.i2cRxbufSize < BitVec.toNat n →
      exec (.i2cRead addr n) s = .refused .rxBufferTooSmall) ∧
    (u.clockRateHz = 0#32 →
      exec .i2cSetDiv s = .refused (.zeroClock s) ∧
      exec .i2cInit s = .refused (.zeroClock (s.afterEvents [.rd a c, .wr a (c ||| s.params.i2cCI2cen)])))

/-- R132: I2C_INIT: enable, divisor, timeout, probe, in this order; 4 events and the probe's.
That `dataLength` and `DLEN` take the low 16 bits of the length of a probe of more than 65535 bytes is the model's choice
(log 10). -/
def Obligations.I2cInitCompletes : Prop :=
  ∀ (s : State) (u : I2cUnit) (c0 c1 c2 c3 : Word), s.liveI2c = some u → i2cOpen s.params → u.clockRateHz ≠ 0#32 →
    s.params.i2cProbeAddr.getLsbD 7 = false → c3 &&& s.params.i2cCI2cen ≠ 0#32 →
    let p := s.params
    let evs := [.rd (i2cAddr p .c) c0, .wr (i2cAddr p .c) (c0 ||| p.i2cCI2cen),
        .wr (i2cAddr p .div) (BitVec.ofNat 32 (p.i2cCoreClockHz / u.clockRateHz.toNat)),
        .wr (i2cAddr p .clkt) (u.timeoutTicks.setWidth 32)] ++
      writeSlaveEvents p p.i2cProbeAddr p.i2cProbeBytes c1 c2 c3
    answeredBy s.env evs → exec .i2cInit s =
      .next (({ s with i2c := some { u with
        transferDirection := .write, slaveAddress := p.i2cProbeAddr.setWidth 7,
        dataLength := BitVec.ofNat 16 p.i2cProbeBytes.length, fsm := .idle } }.afterEvents evs).completed 1)

/-- R132, R124, R129: where I2C_INIT is fatal: at the probe's address after the direction step, or at the probe's start.
That `dataLength` and `DLEN` take the low 16 bits of the length of a probe of more than 65535 bytes is the model's choice
(log 10). -/
def Obligations.I2cInitFatals : Prop :=
  ∀ (s : State) (u : I2cUnit) (c0 c1 : Word), s.liveI2c = some u → i2cOpen s.params → u.clockRateHz ≠ 0#32 →
    let p := s.params
    let pre := [.rd (i2cAddr p .c) c0, .wr (i2cAddr p .c) (c0 ||| p.i2cCI2cen),
        .wr (i2cAddr p .div) (BitVec.ofNat 32 (p.i2cCoreClockHz / u.clockRateHz.toNat)),
        .wr (i2cAddr p .clkt) (u.timeoutTicks.setWidth 32)]
    (p.i2cProbeAddr.getLsbD 7 = true →
      let evs := pre ++ [.rd (i2cAddr p .c) c1, .wr (i2cAddr p .c) (c1 &&& ~~~p.i2cCRead)]
      answeredBy s.env evs → exec .i2cInit s = .next (takeFatal .i2cAddress
        ({ s with i2c := some { u with transferDirection := .write } }.afterEvents evs))) ∧
    (∀ c2 c3 : Word, p.i2cProbeAddr.getLsbD 7 = false → c3 &&& p.i2cCI2cen = 0#32 →
      let n := BitVec.ofNat 16 p.i2cProbeBytes.length
      let evs := pre ++ i2cSetupEvents p .write p.i2cProbeAddr n c1 c2 ++
        p.i2cProbeBytes.map (fun b => .wr (i2cAddr p .fifo) (b.setWidth 32)) ++
        [.wr (i2cAddr p .s) p.i2cSClearMask, .rd (i2cAddr p .c) c3]
      answeredBy s.env evs → exec .i2cInit s = .next (takeFatal .i2cNotEnabled
        ({ s with i2c := some { u with
          transferDirection := .write, slaveAddress := p.i2cProbeAddr.setWidth 7, dataLength := n,
          fsm := .configured } }.afterEvents evs)))

/-! ## Interrupt dispatch -/

/-- R136 to R140: IRQ_DISPATCH reads every bank in order, makes one status read per pending family bit, and returns one record per
classified source; it changes no unit and writes nothing. `as` is what the environment answers, bank by bank. Where the
classification tables are no maps (a repeated key), or have no entry for a family, that the first entry is used and nothing
selected is the model's choice (log 17). -/
def Obligations.IrqDispatchCompletes : Prop :=
  ∀ (s : State) (as : List BankAnswer), as.length = s.params.irqBanks.length →
    (∀ b ∈ s.params.irqBanks, b.perm ≠ .writeOnly) → s.params.secstatPerm ≠ .writeOnly →
    (∀ x ∈ s.params.irqBanks.zip as, bankAnswerFits s.params x.1 x.2) →
    let evs := (s.params.irqBanks.zip as).flatMap fun x => bankEvents s.params x.1 x.2
    let records := (s.params.irqBanks.zip as).flatMap fun x => bankRecords s.params x.1 x.2
    answeredBy s.env evs → exec .irqDispatch s =
      .next ({ s.afterEvents evs with out := s.out ++ records.map fun v => OutEntry.mk s.cp v }.completed 1)

/-! ## The whole machine -/

/-- The invariant of a run (R15, R18, R20, R21, R54, R80) is kept by every step, from every state that has it. -/
def Obligations.StepKeepsTheInvariant : Prop :=
  ∀ s t : State, s.Inv → Sys2Proof.Machine.step s = .next t → t.Inv

/-- The invariant holds at reset and at the start of every run (R46, R153, R155; the store of a run is canonical). R56, R146:
parameters with a misaligned bank address, no bank labelled 3 or a sub-variant mask of 0 are refused before the run; what else
`paramsOk` refuses, and what it accepts, is the model's choice (log 12). -/
def Obligations.ResetHasTheInvariant : Prop :=
  State.reset.Inv ∧
  ∀ (p : Params) (stream : List CmdWord) (clkFact : Option Word) (env : Env),
    (paramsOk p = true → State.configure p stream clkFact env =
      .next { State.reset with params := p, stream := stream, clkFact := clkFact, env := env }) ∧
    (∀ t, (∀ m, env = .backingStore m → memoryWf m = true) → State.configure p stream clkFact env = .next t → t.Inv) ∧
    (paramsOk p = false → State.configure p stream clkFact env = .refused .badParameter) ∧
    ((∃ b ∈ p.irqBanks, b.address.toNat % 4 ≠ 0) ∨ (∀ b ∈ p.irqBanks, b.label ≠ 3) ∨
      (∃ e ∈ p.irqSubvariant, ∃ v ∈ e.variants, v.mask = 0#32) →
      State.configure p stream clkFact env = .refused .badParameter)

/-- R20, R141, R173: the three ways a command of a PDC that is not halted can leave the state: it completes and `CP` passes it, it
waits in a poll (log 5) and stays at it, or it raises: `HALT` and `DIAG` hold the code and the unmoved `CP`. -/
def Obligations.CommandPointerAfterACommand : Prop :=
  ∀ (i : Instr) (s t : State), s.halt = none → exec i s = .next t →
    (t.halt = none ∧ t.cp = s.cp + i.len ∧ t.progress = .idle) ∨
    (hasPoll i = true ∧ t.halt = none ∧ t.cp = s.cp ∧ t.progress ≠ .idle) ∨
    (∃ code notes, t.halt = some ⟨code, s.cp⟩ ∧ t.cp = s.cp ∧ t.diag = notes ++ [.fatalAt code s.cp] ∧ t.progress = .idle)

/-- R23, R52, R57: `TRACE` is honest: a step appends the bus events it made, every read event carries the word the environment
answered at that point, and the environment has seen exactly those events. -/
def Obligations.TraceIsWhatHappened : Prop :=
  ∀ s t : State, Sys2Proof.Machine.step s = .next t →
    ∃ evs, t.trace = s.trace ++ evs ∧ answeredBy s.env evs ∧ t.env = envRun s.env evs

/-- R48, R49, R55, R56, R171: a step touches the addresses of registers of the run's tables only, and with parameters a run may
have every one of them is a multiple of 4. -/
def Obligations.OnlyRegistersAreTouched : Prop :=
  ∀ s t : State, Sys2Proof.Machine.step s = .next t →
    ∃ evs, t.trace = s.trace ++ evs ∧
      ∀ e ∈ evs, isRegisterAddr s.params e.addr ∧ (paramsOk s.params = true → e.addr.toNat % 4 = 0)

/-- R22, R141: results and diagnostics are only appended; a result is tagged with the `CP` of its command, and only the commands of
R22 return any. -/
def Obligations.ResultsAreAppendedAndTagged : Prop :=
  ∀ (i : Instr) (s t : State), exec i s = .next t →
    ∃ os ds, t.out = s.out ++ os ∧ t.diag = s.diag ++ ds ∧ (∀ o ∈ os, o.cp = s.cp) ∧
      (returnsResults i = false → os = [])

/-- R155, R45, R61, R19, R110: no step changes the stream, the clock fact or the parameters; a manager never returns to empty, a
bound console stays bound, and a resolved clock never changes. -/
def Obligations.InputsAndBindingsAreStable : Prop :=
  ∀ s t : State, Sys2Proof.Machine.step s = .next t →
    t.stream = s.stream ∧ t.clkFact = s.clkFact ∧ t.params = s.params ∧
    (s.mgrUart = .registered → t.mgrUart = .registered) ∧ (s.mgrI2c = .registered → t.mgrI2c = .registered) ∧
    (s.console = .bound → t.console = .bound) ∧ (∀ hz, s.uclk = .resolved hz → t.uclk = .resolved hz)

/-- R14 to R19: which command may write which unit; every other command leaves it as it was, even when it raises or waits. -/
def Obligations.UnitsHaveTheirWriters : Prop :=
  ∀ (i : Instr) (s t : State), exec i s = .next t →
    (∀ pin, writesPin i ≠ some pin → t.pinSlot pin = s.pinSlot pin) ∧
    (writesUart i = false → t.uart = s.uart) ∧ (writesI2c i = false → t.i2c = s.i2c) ∧
    (writesClock i = false → t.uclk = s.uclk) ∧
    ((∀ u, i ≠ .mgrRegister u) → t.mgrUart = s.mgrUart ∧ t.mgrI2c = s.mgrI2c) ∧
    (i ≠ .consoleBind → t.console = s.console)

/-- R54, R57: every byte of the store is unchanged except the four bytes of each word written, which the write events of the
command name; a command that makes no write leaves every byte. -/
def Obligations.StoreFrame : Prop :=
  ∀ (i : Instr) (s t : State), memoryWf s.memory = true → exec i s = .next t →
    (∀ (evs : List BusEvent) (a : Nat), t.trace = s.trace ++ evs →
      (∀ w v k, BusEvent.wr w v ∈ evs → k < 4 → a ≠ byteAddr w k) → t.byteAt a = s.byteAt a) ∧
    (writesNoBus i = true → ∀ a, t.byteAt a = s.byteAt a)

/-- R13: no command reads a log: for the same answers of the environment, with other entries before them the logs
gain the same entries and everything else is the same. That the two executions read the same answers, because the environment is
part of the state, is the model's choice (log 1). -/
def Obligations.LogsAreNeverRead : Prop :=
  ∀ (i : Instr) (s t : State) (o : List OutEntry) (d : List Diagnostic) (e : List BusEvent), exec i s = .next t →
    exec i { s with out := o ++ s.out, diag := d ++ s.diag, trace := e ++ s.trace } =
      .next { t with out := o ++ t.out, diag := d ++ t.diag, trace := e ++ t.trace }

/-- R142, R98: with the default tables and permissions only REG_READ and REG_WRITE can raise a permission violation, and nothing can
raise an unmapped register. -/
def Obligations.DefaultTablesPermitTheCommands : Prop :=
  ∀ (i : Instr) (s t : State) (h : HaltRecord), defaultTables s.params → s.halt = none → exec i s = .next t →
    t.halt = some h → h.code ≠ .unmappedRegister ∧ (isRawAccess i = false → h.code ≠ .permissionViolation)
end

