-- ==== Sys2Proof/Laws/State.lean ====
section
/-!
SUPPORT. Sys2Proof/Laws/State.lean: one lemma per field per named update of State, so that no proof unfolds a record update.
-/

namespace Sys2Proof.Machine

section AfterEvents
variable (s : State) (evs : List BusEvent)

@[simp] theorem afterEvents_pu : (s.afterEvents evs).pu = s.pu := rfl
@[simp] theorem afterEvents_uart : (s.afterEvents evs).uart = s.uart := rfl
@[simp] theorem afterEvents_uclk : (s.afterEvents evs).uclk = s.uclk := rfl
@[simp] theorem afterEvents_i2c : (s.afterEvents evs).i2c = s.i2c := rfl
@[simp] theorem afterEvents_mgrUart : (s.afterEvents evs).mgrUart = s.mgrUart := rfl
@[simp] theorem afterEvents_mgrI2c : (s.afterEvents evs).mgrI2c = s.mgrI2c := rfl
@[simp] theorem afterEvents_console : (s.afterEvents evs).console = s.console := rfl
@[simp] theorem afterEvents_cp : (s.afterEvents evs).cp = s.cp := rfl
@[simp] theorem afterEvents_halt : (s.afterEvents evs).halt = s.halt := rfl
@[simp] theorem afterEvents_out : (s.afterEvents evs).out = s.out := rfl
@[simp] theorem afterEvents_diag : (s.afterEvents evs).diag = s.diag := rfl
@[simp] theorem afterEvents_trace : (s.afterEvents evs).trace = s.trace ++ evs := rfl
@[simp] theorem afterEvents_env : (s.afterEvents evs).env = envRun s.env evs := rfl
@[simp] theorem afterEvents_stream : (s.afterEvents evs).stream = s.stream := rfl
@[simp] theorem afterEvents_clkFact : (s.afterEvents evs).clkFact = s.clkFact := rfl
@[simp] theorem afterEvents_params : (s.afterEvents evs).params = s.params := rfl
@[simp] theorem afterEvents_progress : (s.afterEvents evs).progress = s.progress := rfl
@[simp] theorem afterEvents_livePin (pin : Byte) : (s.afterEvents evs).livePin pin = s.livePin pin := rfl
@[simp] theorem afterEvents_liveUart : (s.afterEvents evs).liveUart = s.liveUart := rfl
@[simp] theorem afterEvents_liveI2c : (s.afterEvents evs).liveI2c = s.liveI2c := rfl

end AfterEvents

section TakeFatal
variable (c : FatalCode) (s : State)

@[simp] theorem takeFatal_pu : (takeFatal c s).pu = s.pu := rfl
@[simp] theorem takeFatal_uart : (takeFatal c s).uart = s.uart := rfl
@[simp] theorem takeFatal_uclk : (takeFatal c s).uclk = s.uclk := rfl
@[simp] theorem takeFatal_i2c : (takeFatal c s).i2c = s.i2c := rfl
@[simp] theorem takeFatal_mgrUart : (takeFatal c s).mgrUart = s.mgrUart := rfl
@[simp] theorem takeFatal_mgrI2c : (takeFatal c s).mgrI2c = s.mgrI2c := rfl
@[simp] theorem takeFatal_console : (takeFatal c s).console = s.console := rfl
@[simp] theorem takeFatal_cp : (takeFatal c s).cp = s.cp := rfl
@[simp] theorem takeFatal_halt : (takeFatal c s).halt = some ⟨c, s.cp⟩ := rfl
@[simp] theorem takeFatal_out : (takeFatal c s).out = s.out := rfl
@[simp] theorem takeFatal_diag : (takeFatal c s).diag = s.diag ++ [.fatalAt c s.cp] := rfl
@[simp] theorem takeFatal_trace : (takeFatal c s).trace = s.trace := rfl
@[simp] theorem takeFatal_env : (takeFatal c s).env = s.env := rfl
@[simp] theorem takeFatal_stream : (takeFatal c s).stream = s.stream := rfl
@[simp] theorem takeFatal_clkFact : (takeFatal c s).clkFact = s.clkFact := rfl
@[simp] theorem takeFatal_params : (takeFatal c s).params = s.params := rfl
@[simp] theorem takeFatal_progress : (takeFatal c s).progress = .idle := rfl

end TakeFatal

section Completed
variable (s : State) (len : Nat)

@[simp] theorem completed_pu : (s.completed len).pu = s.pu := rfl
@[simp] theorem completed_uart : (s.completed len).uart = s.uart := rfl
@[simp] theorem completed_uclk : (s.completed len).uclk = s.uclk := rfl
@[simp] theorem completed_i2c : (s.completed len).i2c = s.i2c := rfl
@[simp] theorem completed_mgrUart : (s.completed len).mgrUart = s.mgrUart := rfl
@[simp] theorem completed_mgrI2c : (s.completed len).mgrI2c = s.mgrI2c := rfl
@[simp] theorem completed_console : (s.completed len).console = s.console := rfl
@[simp] theorem completed_cp : (s.completed len).cp = s.cp + len := rfl
@[simp] theorem completed_halt : (s.completed len).halt = s.halt := rfl
@[simp] theorem completed_out : (s.completed len).out = s.out := rfl
@[simp] theorem completed_diag : (s.completed len).diag = s.diag := rfl
@[simp] theorem completed_trace : (s.completed len).trace = s.trace := rfl
@[simp] theorem completed_env : (s.completed len).env = s.env := rfl
@[simp] theorem completed_stream : (s.completed len).stream = s.stream := rfl
@[simp] theorem completed_clkFact : (s.completed len).clkFact = s.clkFact := rfl
@[simp] theorem completed_params : (s.completed len).params = s.params := rfl
@[simp] theorem completed_progress : (s.completed len).progress = .idle := rfl

end Completed

section WithOut
variable (s : State) (v : OutValue)

@[simp] theorem withOut_pu : (s.withOut v).pu = s.pu := rfl
@[simp] theorem withOut_uart : (s.withOut v).uart = s.uart := rfl
@[simp] theorem withOut_uclk : (s.withOut v).uclk = s.uclk := rfl
@[simp] theorem withOut_i2c : (s.withOut v).i2c = s.i2c := rfl
@[simp] theorem withOut_mgrUart : (s.withOut v).mgrUart = s.mgrUart := rfl
@[simp] theorem withOut_mgrI2c : (s.withOut v).mgrI2c = s.mgrI2c := rfl
@[simp] theorem withOut_console : (s.withOut v).console = s.console := rfl
@[simp] theorem withOut_cp : (s.withOut v).cp = s.cp := rfl
@[simp] theorem withOut_halt : (s.withOut v).halt = s.halt := rfl
@[simp] theorem withOut_out : (s.withOut v).out = s.out ++ [⟨s.cp, v⟩] := rfl
@[simp] theorem withOut_diag : (s.withOut v).diag = s.diag := rfl
@[simp] theorem withOut_trace : (s.withOut v).trace = s.trace := rfl
@[simp] theorem withOut_env : (s.withOut v).env = s.env := rfl
@[simp] theorem withOut_stream : (s.withOut v).stream = s.stream := rfl
@[simp] theorem withOut_clkFact : (s.withOut v).clkFact = s.clkFact := rfl
@[simp] theorem withOut_params : (s.withOut v).params = s.params := rfl
@[simp] theorem withOut_progress : (s.withOut v).progress = s.progress := rfl

end WithOut

section SetPin
variable (s : State) (pin : Byte) (u : PinUnit)

/-- Storing a pin unit changes nothing but the unit file. -/
theorem setPin_eq : s.setPin pin u = { s with pu := (s.setPin pin u).pu } := by
  unfold State.setPin; split <;> rfl

@[simp] theorem setPin_uart : (s.setPin pin u).uart = s.uart := by rw [setPin_eq]
@[simp] theorem setPin_uclk : (s.setPin pin u).uclk = s.uclk := by rw [setPin_eq]
@[simp] theorem setPin_i2c : (s.setPin pin u).i2c = s.i2c := by rw [setPin_eq]
@[simp] theorem setPin_mgrUart : (s.setPin pin u).mgrUart = s.mgrUart := by rw [setPin_eq]
@[simp] theorem setPin_mgrI2c : (s.setPin pin u).mgrI2c = s.mgrI2c := by rw [setPin_eq]
@[simp] theorem setPin_console : (s.setPin pin u).console = s.console := by rw [setPin_eq]
@[simp] theorem setPin_cp : (s.setPin pin u).cp = s.cp := by rw [setPin_eq]
@[simp] theorem setPin_halt : (s.setPin pin u).halt = s.halt := by rw [setPin_eq]
@[simp] theorem setPin_out : (s.setPin pin u).out = s.out := by rw [setPin_eq]
@[simp] theorem setPin_diag : (s.setPin pin u).diag = s.diag := by rw [setPin_eq]
@[simp] theorem setPin_trace : (s.setPin pin u).trace = s.trace := by rw [setPin_eq]
@[simp] theorem setPin_env : (s.setPin pin u).env = s.env := by rw [setPin_eq]
@[simp] theorem setPin_stream : (s.setPin pin u).stream = s.stream := by rw [setPin_eq]
@[simp] theorem setPin_clkFact : (s.setPin pin u).clkFact = s.clkFact := by rw [setPin_eq]
@[simp] theorem setPin_params : (s.setPin pin u).params = s.params := by rw [setPin_eq]
@[simp] theorem setPin_progress : (s.setPin pin u).progress = s.progress := by rw [setPin_eq]

/-- The slot just written holds the unit written. -/
theorem pinSlot_setPin_same (h : pin.toNat < npin) : (s.setPin pin u).pinSlot pin = some u := by
  simp [State.setPin, State.pinSlot, h]

/-- Every other slot is as before. -/
theorem pinSlot_setPin_other {q : Byte} (h : q ≠ pin) : (s.setPin pin u).pinSlot q = s.pinSlot q := by
  have hn : ¬ pin.toNat = q.toNat := fun e => h (BitVec.eq_of_toNat_eq e.symm)
  unfold State.setPin State.pinSlot
  split
  · split
    · simp [hn]
    · rfl
  · rfl

end SetPin

/-- A live pin unit stands in the slot of a valid index. -/
theorem livePin_lt {s : State} {pin : Byte} {u : PinUnit} (h : s.livePin pin = some u) : pin.toNat < npin := by
  unfold State.livePin State.pinSlot at h
  split at h
  · assumption
  · simp at h

/-- A live UART unit is the UART unit, and not released. -/
theorem liveUart_some {s : State} {u : UartUnit} (h : s.liveUart = some u) : s.uart = some u ∧ u.released = false := by
  simpa [State.liveUart, Option.filter_eq_some_iff] using h

/-- A live I2C unit is the I2C unit, and not released. -/
theorem liveI2c_some {s : State} {u : I2cUnit} (h : s.liveI2c = some u) : s.i2c = some u ∧ u.released = false := by
  simpa [State.liveI2c, Option.filter_eq_some_iff] using h

/-- Bus events compose. -/
theorem envRun_append (e : Env) (xs ys : List BusEvent) : envRun e (xs ++ ys) = envRun (envRun e xs) ys := by
  induction xs generalizing e with
  | nil => rfl
  | cons x xs ih => cases x <;> exact ih _

/-- Answers compose. -/
theorem answeredBy_append (e : Env) (xs ys : List BusEvent) :
    answeredBy e (xs ++ ys) ↔ answeredBy e xs ∧ answeredBy (envRun e xs) ys := by
  induction xs generalizing e with
  | nil => simp [answeredBy, envRun]
  | cons x xs ih => cases x <;> simp [answeredBy, envRun, ih, and_assoc]

@[simp] theorem afterEvents_nil (s : State) : s.afterEvents [] = s := by
  simp [State.afterEvents, envRun]

theorem afterEvents_append (s : State) (xs ys : List BusEvent) :
    (s.afterEvents xs).afterEvents ys = s.afterEvents (xs ++ ys) := by
  simp [State.afterEvents, envRun_append]

end Sys2Proof.Machine
end

