-- ==== Sys2Proof/Laws/Ops.lean ====
section
/-!
SUPPORT. Sys2Proof/Laws/Ops.lean: how the lines of a command run, and for each shared operation one lemma that says what it does.
-/

namespace Sys2Proof.Machine

section Lines
variable {α β : Type}

/-- Two lines run in order; a stop of the first is the stop of both. -/
theorem bind_apply (c : Cmd α) (f : α → Cmd β) (s : State) :
    (c >>= f) s = match c s with
      | .ok a t => f a t
      | .error e t => .error e t := by
  change EStateM.bind c f s = _
  unfold EStateM.bind
  cases c s <;> rfl

/-- A line whose value is mapped. -/
theorem map_apply (f : α → β) (c : Cmd α) (s : State) :
    (f <$> c) s = match c s with
      | .ok a t => .ok (f a) t
      | .error e t => .error e t := by
  change EStateM.map f c s = _
  unfold EStateM.map
  cases c s <;> rfl

@[simp] theorem pure_apply (a : α) (s : State) : (pure a : Cmd α) s = .ok a s := rfl
@[simp] theorem getState_apply (s : State) : getState s = .ok s s := rfl
@[simp] theorem update_apply (g : State → State) (s : State) : update g s = .ok () (g s) := rfl
@[simp] theorem raiseFatal_apply (c : FatalCode) (s : State) : (raiseFatal c : Cmd α) s = .error (.fatal c) s := rfl
@[simp] theorem refuse_apply (w : RefuseWhy) (s : State) : (refuse w : Cmd α) s = .error (.refuse w) s := rfl
@[simp] theorem pollAgain_apply (p : Progress) (s : State) :
    (pollAgain p : Cmd α) s = .error .poll { s with progress := p } := rfl
@[simp] theorem complete_apply (n : Nat) (s : State) : complete n s = .ok () (s.completed n) := rfl
@[simp] theorem emitOut_apply (v : OutValue) (s : State) : emitOut v s = .ok () (s.withOut v) := rfl
@[simp] theorem emitDiag_apply (d : Diagnostic) (s : State) :
    emitDiag d s = .ok () { s with diag := s.diag ++ [d] } := rfl
@[simp] theorem putPin_apply (pin : Byte) (u : PinUnit) (s : State) : putPin pin u s = .ok () (s.setPin pin u) := rfl
@[simp] theorem putUart_apply (u : UartUnit) (s : State) : putUart u s = .ok () { s with uart := some u } := rfl
@[simp] theorem putI2c_apply (u : I2cUnit) (s : State) : putI2c u s = .ok () { s with i2c := some u } := rfl
@[simp] theorem updateUart_apply (f : UartUnit → UartUnit) (s : State) :
    updateUart f s = .ok () { s with uart := s.uart.map f } := rfl
@[simp] theorem updateI2c_apply (f : I2cUnit → I2cUnit) (s : State) :
    updateI2c f s = .ok () { s with i2c := s.i2c.map f } := rfl

/-- A conditional line whose condition holds. -/
@[simp] theorem whenever_true (c : Cmd Unit) : whenever true c = c := rfl

/-- A conditional line whose condition fails. -/
@[simp] theorem whenever_false (c : Cmd Unit) : whenever false c = pure () := rfl

/-- A first line that ends well hands its value and state to the rest. -/
theorem bind_ok {c : Cmd α} {f : α → Cmd β} {s t : State} {a : α} (h : c s = .ok a t) : (c >>= f) s = f a t := by
  rw [bind_apply, h]

/-- A first line that stops, stops the command. -/
theorem bind_error {c : Cmd α} {f : α → Cmd β} {s t : State} {e : Stop} (h : c s = .error e t) :
    (c >>= f) s = .error e t := by
  rw [bind_apply, h]

@[simp] theorem getState_bind (f : State → Cmd β) (s : State) : (getState >>= f) s = f s s := rfl
@[simp] theorem update_bind (g : State → State) (f : Unit → Cmd β) (s : State) : (update g >>= f) s = f () (g s) := rfl
@[simp] theorem raiseFatal_bind (c : FatalCode) (f : α → Cmd β) (s : State) :
    ((raiseFatal c : Cmd α) >>= f) s = .error (.fatal c) s := rfl
@[simp] theorem refuse_bind (w : RefuseWhy) (f : α → Cmd β) (s : State) :
    ((refuse w : Cmd α) >>= f) s = .error (.refuse w) s := rfl
@[simp] theorem pollAgain_bind (p : Progress) (f : α → Cmd β) (s : State) :
    ((pollAgain p : Cmd α) >>= f) s = .error .poll { s with progress := p } := rfl
@[simp] theorem complete_bind (n : Nat) (f : Unit → Cmd β) (s : State) :
    (complete n >>= f) s = f () (s.completed n) := rfl
@[simp] theorem emitOut_bind (v : OutValue) (f : Unit → Cmd β) (s : State) :
    (emitOut v >>= f) s = f () (s.withOut v) := rfl
@[simp] theorem putPin_bind (pin : Byte) (u : PinUnit) (f : Unit → Cmd β) (s : State) :
    (putPin pin u >>= f) s = f () (s.setPin pin u) := rfl
@[simp] theorem putUart_bind (u : UartUnit) (f : Unit → Cmd β) (s : State) :
    (putUart u >>= f) s = f () { s with uart := some u } := rfl
@[simp] theorem putI2c_bind (u : I2cUnit) (f : Unit → Cmd β) (s : State) :
    (putI2c u >>= f) s = f () { s with i2c := some u } := rfl
@[simp] theorem updateUart_bind (g : UartUnit → UartUnit) (f : Unit → Cmd β) (s : State) :
    (updateUart g >>= f) s = f () { s with uart := s.uart.map g } := rfl
@[simp] theorem updateI2c_bind (g : I2cUnit → I2cUnit) (f : Unit → Cmd β) (s : State) :
    (updateI2c g >>= f) s = f () { s with i2c := s.i2c.map g } := rfl

end Lines

/-! ## Running a command to its outcome -/

theorem runCmd_ok {c : Cmd Unit} {s t : State} (h : c s = .ok () t) : runCmd c s = .next t := by
  simp [runCmd, h]

theorem runCmd_fatal {c : Cmd Unit} {s t : State} {code : FatalCode} (h : c s = .error (.fatal code) t) :
    runCmd c s = .next (takeFatal code t) := by
  simp [runCmd, h]

theorem runCmd_refuse {c : Cmd Unit} {s t : State} {w : RefuseWhy} (h : c s = .error (.refuse w) t) :
    runCmd c s = .refused (refusalOf w t) := by
  simp [runCmd, h]

theorem runCmd_poll {c : Cmd Unit} {s t : State} (h : c s = .error .poll t) : runCmd c s = .next t := by
  simp [runCmd, h]

/-- Everything a command's outcome can be: its lines ended, raised, polled, or refused. -/
theorem runCmd_next_cases {c : Cmd Unit} {s t : State} (h : runCmd c s = .next t) :
    c s = .ok () t ∨ (∃ code u, c s = .error (.fatal code) u ∧ t = takeFatal code u) ∨ c s = .error .poll t := by
  unfold runCmd at h
  split at h
  · rename_i u heq; injection h with h; subst h; exact .inl heq
  · rename_i code u heq; injection h with h; subst h; exact .inr (.inl ⟨code, u, heq, rfl⟩)
  · rename_i u heq; injection h with h; subst h; exact .inr (.inr heq)
  · cases h

/-! ## The bus -/

/-- `MemRead` (R11): one read event with the environment's answer. -/
theorem memRead_apply (addr : Word) (s : State) :
    memRead addr s = .ok (envAnswer s.env addr) (s.afterEvents [.rd addr (envAnswer s.env addr)]) := rfl

/-- `MemWrite` (R11): one write event. -/
theorem memWrite_apply (addr v : Word) (s : State) : memWrite addr v s = .ok () (s.afterEvents [.wr addr v]) := rfl

/-- Everything `RegRead` can do (R76, R98). -/
theorem regRead_cases (r : Reg) (s : State) :
    (∃ d, portOf s.params r = some d ∧ d.perm ≠ .writeOnly ∧
      regRead r s = .ok (envAnswer s.env d.addr) (s.afterEvents [.rd d.addr (envAnswer s.env d.addr)])) ∨
    (∃ d, portOf s.params r = some d ∧ d.perm = .writeOnly ∧ regRead r s = .error (.fatal .permissionViolation) s) ∨
    (portOf s.params r = none ∧ regRead r s = .error (.fatal .unmappedRegister) s) := by
  cases h : portOf s.params r with
  | none => exact .inr (.inr ⟨rfl, by simp [regRead, getPort, bind_apply, h]⟩)
  | some d =>
    by_cases hp : d.perm = .writeOnly
    · exact .inr (.inl ⟨d, rfl, hp, by simp [regRead, getPort, bind_apply, h, readPort, hp]⟩)
    · exact .inl ⟨d, rfl, hp, by simp [regRead, getPort, bind_apply, h, readPort, hp, memRead_apply]⟩

/-- Everything `RegWrite` can do (R77, R98). -/
theorem regWrite_cases (r : Reg) (v : Word) (s : State) :
    (∃ d, portOf s.params r = some d ∧ d.perm ≠ .readOnly ∧
      regWrite r v s = .ok () (s.afterEvents [.wr d.addr v])) ∨
    (∃ d, portOf s.params r = some d ∧ d.perm = .readOnly ∧ regWrite r v s = .error (.fatal .permissionViolation) s) ∨
    (portOf s.params r = none ∧ regWrite r v s = .error (.fatal .unmappedRegister) s) := by
  cases h : portOf s.params r with
  | none => exact .inr (.inr ⟨rfl, by simp [regWrite, getPort, bind_apply, h]⟩)
  | some d =>
    by_cases hp : d.perm = .readOnly
    · exact .inr (.inl ⟨d, rfl, hp, by simp [regWrite, getPort, bind_apply, h, writePort, hp]⟩)
    · exact .inl ⟨d, rfl, hp, by simp [regWrite, getPort, bind_apply, h, writePort, hp, memWrite_apply]⟩

/-- A read of a readable register (R76). -/
theorem regRead_ok {r : Reg} {s : State} {a : Word} (h : s.readableAt r a) :
    regRead r s = .ok (envAnswer s.env a) (s.afterEvents [.rd a (envAnswer s.env a)]) := by
  obtain ⟨perm, h, hp⟩ := h
  simp [regRead, getPort, bind_apply, h, readPort, hp, memRead_apply]

/-- A write of a writable register (R77). -/
theorem regWrite_ok {r : Reg} {v : Word} {s : State} {a : Word} (h : s.writableAt r a) :
    regWrite r v s = .ok () (s.afterEvents [.wr a v]) := by
  obtain ⟨perm, h, hp⟩ := h
  simp [regWrite, getPort, bind_apply, h, writePort, hp, memWrite_apply]

/-- Mapped registers pass the check of R98 and nothing changes. -/
theorem requireMapped_ok {rs : List Reg} {s : State} (h : ∀ r ∈ rs, (portOf s.params r).isSome) :
    requireMapped rs s = .ok () s := by
  induction rs with
  | nil => rfl
  | cons r rs ih =>
    obtain ⟨d, hd⟩ := Option.isSome_iff_exists.1 (h r (List.mem_cons_self ..))
    have hg : getPort r s = .ok d s := by simp [getPort, hd]
    rw [requireMapped, bind_ok hg]
    exact ih fun x hx => h x (List.mem_cons_of_mem _ hx)

/-- The check of R98 changes nothing, whatever it answers. -/
theorem requireMapped_cases (rs : List Reg) (s : State) :
    requireMapped rs s = .ok () s ∨ requireMapped rs s = .error (.fatal .unmappedRegister) s := by
  induction rs with
  | nil => exact .inl rfl
  | cons r rs ih =>
    cases h : portOf s.params r with
    | none => exact .inr (by simp [requireMapped, getPort, bind_apply, h])
    | some d =>
      have hg : getPort r s = .ok d s := by simp [getPort, h]
      rw [requireMapped, bind_ok hg]
      exact ih

/-! ## Guards (R85) -/

theorem requireUnit_cases {α : Type} (u : Option α) (s : State) :
    (∃ x, u = some x ∧ requireUnit u s = .ok x s) ∨ (u = none ∧ requireUnit u s = .error (.refuse .noSuchUnit) s) := by
  cases u with
  | none => exact .inr ⟨rfl, rfl⟩
  | some x => exact .inl ⟨x, rfl, rfl⟩

theorem pinUnit_ok {s : State} {pin : Byte} {u : PinUnit} (h : s.livePin pin = some u) : pinUnit pin s = .ok u s := by
  simp [pinUnit, requireUnit, h]

theorem uartUnit_ok {s : State} {u : UartUnit} (h : s.liveUart = some u) : uartUnit s = .ok u s := by
  simp [uartUnit, requireUnit, h]

theorem i2cUnit_ok {s : State} {u : I2cUnit} (h : s.liveI2c = some u) : i2cUnit s = .ok u s := by
  simp [i2cUnit, requireUnit, h]

/-- The guard of a GPIO command (R85). -/
theorem pinUnit_cases (pin : Byte) (s : State) :
    (∃ u, s.livePin pin = some u ∧ pinUnit pin s = .ok u s) ∨
    (s.livePin pin = none ∧ pinUnit pin s = .error (.refuse .noSuchUnit) s) := requireUnit_cases _ s

/-- The guard of a UART command (R85). -/
theorem uartUnit_cases (s : State) :
    (∃ u, s.liveUart = some u ∧ uartUnit s = .ok u s) ∨
    (s.liveUart = none ∧ uartUnit s = .error (.refuse .noSuchUnit) s) := requireUnit_cases _ s

/-- The guard of an I2C command (R85). -/
theorem i2cUnit_cases (s : State) :
    (∃ u, s.liveI2c = some u ∧ i2cUnit s = .ok u s) ∨
    (s.liveI2c = none ∧ i2cUnit s = .error (.refuse .noSuchUnit) s) := requireUnit_cases _ s

/-! ## The divisor (R103, R104) -/

/-- Everything `BaudDiv` can do; it never touches the state. -/
theorem baudDiv_cases (clock target : Word) (s : State) :
    (target = 0#32 ∧ baudDiv clock target s = .error (.refuse .zeroBaud) s) ∨
    (target ≠ 0#32 ∧ 63 < baudFraction clock.toNat target.toNat ∧
      baudDiv clock target s = .error (.fatal .divisorOverflow) s) ∨
    (target ≠ 0#32 ∧ ¬ 63 < baudFraction clock.toNat target.toNat ∧ baudAccurate clock.toNat target.toNat = true ∧
      baudDiv clock target s =
        .ok (baudInteger clock.toNat target.toNat, baudFraction clock.toNat target.toNat) s) ∨
    (target ≠ 0#32 ∧ ¬ 63 < baudFraction clock.toNat target.toNat ∧ baudAccurate clock.toNat target.toNat = false ∧
      baudDiv clock target s = .error (.fatal .baudUnattainable) s) := by
  unfold baudDiv
  by_cases h0 : target = 0#32
  · simp [h0]
  · by_cases h1 : 63 < baudFraction clock.toNat target.toNat
    · simp [h0, h1]
    · cases h2 : baudAccurate clock.toNat target.toNat <;> simp [h0, h1]

/-- Everything the clock resolution can do (R110). -/
theorem resolveClock_cases (s : State) :
    (∃ hz, s.uclk = .resolved hz ∧ resolveClock s = .ok () s) ∨
    (∃ hz, s.uclk = .unresolved ∧ s.clkFact = some hz ∧ resolveClock s = .ok () { s with uclk := .resolved hz }) ∨
    (s.uclk = .unresolved ∧ s.clkFact = none ∧
      resolveClock s = .ok () { s with uclk := .resolved uartDefaultClock, diag := s.diag ++ [.clockDefaulted] }) := by
  unfold resolveClock
  cases h : s.uclk with
  | resolved hz => exact .inl ⟨hz, rfl, by simp [h]⟩
  | unresolved =>
    cases hf : s.clkFact with
    | some hz => exact .inr (.inl ⟨hz, rfl, rfl, by simp [h, hf]⟩)
    | none => exact .inr (.inr ⟨rfl, rfl, by simp [h, hf]⟩)

end Sys2Proof.Machine
end

