-- ==== Sys2Proof/Laws/Effects.lean ====
section
/-!
SUPPORT. Sys2Proof/Laws/Effects.lean: once for all commands, what a command can do to the state. A relation on states that is
reflexive, transitive and holds across each primitive effect (`Closed`) holds across every execution (`exec_keeps`): a rule of
the whole machine needs no case split over the commands.
-/

namespace Sys2Proof.Machine

/-- A relation that every primitive effect of a command satisfies. -/
structure Closed (R : State → State → Prop) : Prop where
  refl : ∀ s, R s s
  trans : ∀ {s t u}, R s t → R t u → R s u
  /-- a permitted bus read of a register of the tables (R76) -/
  read : ∀ s r d, portOf s.params r = some d → d.perm ≠ .writeOnly →
    R s (s.afterEvents [.rd d.addr (envAnswer s.env d.addr)])
  /-- a permitted bus write of a register of the tables (R77) -/
  write : ∀ s r d v, portOf s.params r = some d → d.perm ≠ .readOnly → R s (s.afterEvents [.wr d.addr v])
  /-- a result (R22) -/
  out : ∀ s v, R s (s.withOut v)
  /-- a pin unit created or changed, its index its slot's (R15) -/
  pin : ∀ s pin u, pin.toNat < npin →
    (u.index = pin.setWidth 6 ∨ ∃ v, s.pinSlot pin = some v ∧ u.index = v.index) → R s (s.setPin pin u)
  /-- the UART unit created or changed -/
  uart : ∀ s u, R s { s with uart := some u }
  uartFields : ∀ (s : State) (f : UartUnit → UartUnit), R s { s with uart := s.uart.map f }
  /-- the I2C unit created or changed, its buffer of the parameter's size or as long as before (R18) -/
  i2c : ∀ s u, (u.rxbuf.length = s.params.i2cRxbufSize ∨ ∃ v, s.i2c = some v ∧ u.rxbuf = v.rxbuf) →
    R s { s with i2c := some u }
  i2cFields : ∀ (s : State) (f : I2cUnit → I2cUnit), (∀ u, (f u).rxbuf.length = u.rxbuf.length) →
    R s { s with i2c := s.i2c.map f }
  /-- the clock resolved from the fact, or defaulted with a note (R110) -/
  clockFact : ∀ s hz, s.uclk = .unresolved → s.clkFact = some hz → R s { s with uclk := .resolved hz }
  clockDefault : ∀ s, s.uclk = .unresolved → s.clkFact = none →
    R s { s with uclk := .resolved uartDefaultClock, diag := s.diag ++ [.clockDefaulted] }
  /-- a manager registered (R82), the console bound (R81) -/
  register : ∀ s t, R s (setRegistered t s)
  bind : ∀ s : State, R s { s with console := .bound }
  /-- a command completed (R20), a poll to be repeated (R167), a fatal condition taken (R141) -/
  complete : ∀ s n, R s (s.completed n)
  poll : ∀ (s : State) p, R s { s with progress := p }
  fatal : ∀ s c, R s (takeFatal c s)

/-- The state a line leaves, however it ends. -/
def endState {α : Type} : EStateM.Result Stop State α → State
  | .ok _ t => t
  | .error _ t => t

/-- A line keeps a relation when it relates every state to the one the line leaves. -/
def Keeps {α : Type} (R : State → State → Prop) (c : Cmd α) : Prop := ∀ s, R s (endState (c s))

section Calculus
variable {R : State → State → Prop} {α β : Type}

/-- Two lines in order. -/
theorem keeps_bind (hR : Closed R) {c : Cmd α} {f : α → Cmd β} (hc : Keeps R c) (hf : ∀ a, Keeps R (f a)) :
    Keeps R (c >>= f) := by
  intro s
  have h := hc s
  rw [bind_apply]
  cases hcs : c s with
  | ok a t => rw [hcs] at h; exact hR.trans h (hf a t)
  | error e t => rw [hcs] at h; exact h

/-- A line that reads the state and goes on. -/
theorem keeps_getState {f : State → Cmd β} (hf : ∀ a, Keeps R (f a)) : Keeps R (getState >>= f) := fun s => hf s s

theorem keeps_pure (hR : Closed R) (a : α) : Keeps R (pure a : Cmd α) := fun s => hR.refl s
theorem keeps_raise (hR : Closed R) (c : FatalCode) : Keeps R (raiseFatal c : Cmd α) := fun s => hR.refl s
theorem keeps_refuse (hR : Closed R) (w : RefuseWhy) : Keeps R (refuse w : Cmd α) := fun s => hR.refl s
theorem keeps_pollAgain (hR : Closed R) (p : Progress) : Keeps R (pollAgain p : Cmd α) := fun s => hR.poll s p
theorem keeps_complete (hR : Closed R) (n : Nat) : Keeps R (complete n) := fun s => hR.complete s n
theorem keeps_emitOut (hR : Closed R) (v : OutValue) : Keeps R (emitOut v) := fun s => hR.out s v

theorem keeps_ite {p : Prop} [Decidable p] {c d : Cmd α} (hc : Keeps R c) (hd : Keeps R d) :
    Keeps R (if p then c else d) := by
  split <;> assumption

theorem keeps_whenever (hR : Closed R) {p : Bool} {c : Cmd Unit} (hc : Keeps R c) : Keeps R (whenever p c) := by
  cases p
  · exact keeps_pure hR _
  · exact hc

theorem keeps_requireUnit (hR : Closed R) (u : Option α) : Keeps R (requireUnit u) := by
  cases u
  · exact keeps_refuse hR _
  · exact keeps_pure hR _

theorem keeps_pinUnit (hR : Closed R) (pin : Byte) : Keeps R (pinUnit pin) :=
  keeps_getState fun _ => keeps_requireUnit hR _

theorem keeps_uartUnit (hR : Closed R) : Keeps R uartUnit := keeps_getState fun _ => keeps_requireUnit hR _
theorem keeps_i2cUnit (hR : Closed R) : Keeps R i2cUnit := keeps_getState fun _ => keeps_requireUnit hR _

theorem keeps_regRead (hR : Closed R) (r : Reg) : Keeps R (regRead r) := by
  intro s
  rcases regRead_cases r s with ⟨d, hd, hp, h⟩ | ⟨d, _, _, h⟩ | ⟨_, h⟩ <;> rw [h]
  · exact hR.read s r d hd hp
  · exact hR.refl s
  · exact hR.refl s

theorem keeps_regWrite (hR : Closed R) (r : Reg) (v : Word) : Keeps R (regWrite r v) := by
  intro s
  rcases regWrite_cases r v s with ⟨d, hd, hp, h⟩ | ⟨d, _, _, h⟩ | ⟨_, h⟩ <;> rw [h]
  · exact hR.write s r d v hd hp
  · exact hR.refl s
  · exact hR.refl s

theorem keeps_requireMapped (hR : Closed R) (rs : List Reg) : Keeps R (requireMapped rs) := by
  intro s
  rcases requireMapped_cases rs s with h | h <;> rw [h] <;> exact hR.refl s

theorem keeps_baudDiv (hR : Closed R) (c t : Word) : Keeps R (baudDiv c t) := by
  intro s
  rcases baudDiv_cases c t s with ⟨_, h⟩ | ⟨_, _, h⟩ | ⟨_, _, _, h⟩ | ⟨_, _, _, h⟩ <;> rw [h] <;> exact hR.refl s

theorem keeps_resolveClock (hR : Closed R) : Keeps R resolveClock := by
  intro s
  rcases resolveClock_cases s with ⟨_, _, h⟩ | ⟨hz, hu, hf, h⟩ | ⟨hu, hf, h⟩ <;> rw [h]
  · exact hR.refl s
  · exact hR.clockFact s hz hu hf
  · exact hR.clockDefault s hu hf

theorem keeps_clockHz (hR : Closed R) : Keeps R clockHz := by
  refine keeps_getState fun s => ?_
  cases s.uclk
  · exact keeps_refuse hR _
  · exact keeps_pure hR _

theorem keeps_putUart (hR : Closed R) (u : UartUnit) : Keeps R (putUart u) := fun s => hR.uart s u
theorem keeps_updateUart (hR : Closed R) (f : UartUnit → UartUnit) : Keeps R (updateUart f) := fun s => hR.uartFields s f
theorem keeps_updateI2c (hR : Closed R) {f : I2cUnit → I2cUnit} (hf : ∀ u, (f u).rxbuf.length = u.rxbuf.length) :
    Keeps R (updateI2c f) := fun s => hR.i2cFields s f hf
theorem keeps_setI2cFsm (hR : Closed R) (st : I2cFsm) : Keeps R (setI2cFsm st) := keeps_updateI2c hR fun _ => rfl

/-- An outcome of a command that keeps a relation keeps it too. -/
theorem runCmd_keeps (hR : Closed R) {c : Cmd Unit} (hc : Keeps R c) {s t : State} (h : runCmd c s = .next t) : R s t := by
  have hs := hc s
  rcases runCmd_next_cases h with h' | ⟨code, u, h', rfl⟩ | h' <;> rw [h'] at hs
  · exact hs
  · exact hR.trans hs (hR.fatal u code)
  · exact hs

/-! ## The shared sub-steps -/

theorem keeps_drainReads (hR : Closed R) (k : Nat) : Keeps R (drainReads k) := by
  induction k with
  | zero => exact keeps_pure hR _
  | succ k ih => exact keeps_bind hR (keeps_regRead hR _) fun _ => ih

theorem keeps_toggleFifo (hR : Closed R) : Keeps R toggleFifo :=
  keeps_getState fun _ => keeps_bind hR (keeps_regRead hR _) fun _ =>
    keeps_bind hR (keeps_regWrite hR _ _) fun _ => keeps_regWrite hR _ _

theorem keeps_flush (hR : Closed R) : Keeps R flush := by
  refine keeps_getState fun _ => keeps_bind hR (keeps_regRead hR _) fun fr => ?_
  exact keeps_bind hR (keeps_whenever hR (keeps_toggleFifo hR)) fun _ =>
    keeps_whenever hR (keeps_drainReads hR _)

theorem keeps_applyLineControl (hR : Closed R) (u : UartUnit) (p : Option Parity) (w : Option WordLength)
    (st : Option StopBits) : Keeps R (applyLineControl u p w st) :=
  keeps_getState fun _ => keeps_bind hR (keeps_putUart hR _) fun _ =>
    keeps_bind hR (keeps_regRead hR _) fun _ => keeps_regWrite hR _ _

theorem keeps_uartInitBody (hR : Closed R) : Keeps R uartInitBody :=
  keeps_bind hR (keeps_uartUnit hR) fun _ => keeps_bind hR (keeps_resolveClock hR) fun _ =>
    keeps_getState fun _ => keeps_bind hR (keeps_regWrite hR _ _) fun _ =>
      keeps_bind hR (keeps_clockHz hR) fun _ => keeps_bind hR (keeps_baudDiv hR _ _) fun _ =>
        keeps_bind hR (keeps_regWrite hR _ _) fun _ => keeps_bind hR (keeps_regWrite hR _ _) fun _ =>
          keeps_bind hR (keeps_flush hR) fun _ => keeps_applyLineControl hR _ _ _ _

theorem keeps_pollTransmit (hR : Closed R) (k : Nat) : Keeps R (pollTransmit k) := by
  refine keeps_getState fun _ => keeps_whenever hR ?_
  exact keeps_bind hR (keeps_regRead hR _) fun _ => keeps_whenever hR (keeps_pollAgain hR _)

theorem keeps_transmitAll (hR : Closed R) (k : Nat) (xs : List Byte) : Keeps R (transmitAll k xs) := by
  induction xs generalizing k with
  | nil => exact keeps_pure hR _
  | cons x xs ih =>
    refine keeps_bind hR ?_ fun _ => ih _
    exact keeps_bind hR (keeps_pollTransmit hR _) fun _ =>
      keeps_bind hR (keeps_regWrite hR _ _) fun _ => keeps_updateUart hR _

theorem keeps_writeUnits (hR : Closed R) (units : List Byte) (len : Nat) : Keeps R (writeUnits units len) :=
  keeps_bind hR (keeps_uartUnit hR) fun _ => keeps_getState fun _ =>
    keeps_bind hR (keeps_transmitAll hR _ _) fun _ => keeps_complete hR _

theorem keeps_setDiv (hR : Closed R) (u : I2cUnit) : Keeps R (setDiv u) := by
  refine keeps_getState fun _ => ?_
  exact keeps_bind hR (keeps_whenever hR (keeps_refuse hR _)) fun _ => keeps_regWrite hR _ _

theorem keeps_setAddress (hR : Closed R) (addr : Byte) : Keeps R (setAddress addr) :=
  keeps_bind hR (keeps_whenever hR (keeps_raise hR _)) fun _ =>
    keeps_bind hR (keeps_updateI2c hR fun _ => rfl) fun _ => keeps_regWrite hR _ _

theorem keeps_setDirection (hR : Closed R) (d : Direction) : Keeps R (setDirection d) :=
  keeps_getState fun _ => keeps_bind hR (keeps_updateI2c hR fun _ => rfl) fun _ =>
    keeps_bind hR (keeps_regRead hR _) fun _ => keeps_regWrite hR _ _

theorem keeps_setLength (hR : Closed R) (n : BitVec 16) : Keeps R (setLength n) :=
  keeps_bind hR (keeps_updateI2c hR fun _ => rfl) fun _ =>
    keeps_bind hR (keeps_regWrite hR _ _) fun _ => keeps_setI2cFsm hR _

theorem keeps_clearFifo (hR : Closed R) : Keeps R clearFifo :=
  keeps_getState fun _ => keeps_bind hR (keeps_regRead hR _) fun _ => keeps_regWrite hR _ _

theorem keeps_clearStatus (hR : Closed R) : Keeps R clearStatus := keeps_getState fun _ => keeps_regWrite hR _ _

theorem keeps_startTransfer (hR : Closed R) : Keeps R startTransfer :=
  keeps_getState fun _ => keeps_bind hR (keeps_regRead hR _) fun _ =>
    keeps_bind hR (keeps_whenever hR (keeps_raise hR _)) fun _ =>
      keeps_bind hR (keeps_regWrite hR _ _) fun _ => keeps_setI2cFsm hR _

theorem keeps_pushFifo (hR : Closed R) (bs : List Byte) : Keeps R (pushFifo bs) := by
  induction bs with
  | nil => exact keeps_pure hR _
  | cons b bs ih => exact keeps_bind hR (keeps_regWrite hR _ _) fun _ => ih

theorem keeps_writeSlave (hR : Closed R) (addr : Byte) (bs : List Byte) : Keeps R (writeSlave addr bs) :=
  keeps_bind hR (keeps_setDirection hR _) fun _ => keeps_bind hR (keeps_setAddress hR _) fun _ =>
    keeps_bind hR (keeps_setLength hR _) fun _ => keeps_bind hR (keeps_clearFifo hR) fun _ =>
      keeps_bind hR (keeps_pushFifo hR _) fun _ => keeps_bind hR (keeps_clearStatus hR) fun _ =>
        keeps_startTransfer hR

theorem keeps_readSetup (hR : Closed R) (addr : Byte) (n : BitVec 16) : Keeps R (readSetup addr n) :=
  keeps_getState fun _ => keeps_bind hR (keeps_whenever hR (keeps_refuse hR _)) fun _ =>
    keeps_bind hR (keeps_setDirection hR _) fun _ => keeps_bind hR (keeps_setAddress hR _) fun _ =>
      keeps_bind hR (keeps_setLength hR _) fun _ => keeps_bind hR (keeps_clearFifo hR) fun _ => keeps_startTransfer hR

theorem keeps_pollReceive (hR : Closed R) (k : Nat) : Keeps R (pollReceive k) := by
  refine keeps_getState fun _ => keeps_whenever hR ?_
  exact keeps_bind hR (keeps_regRead hR _) fun _ => keeps_whenever hR (keeps_pollAgain hR _)

theorem keeps_receiveAll (hR : Closed R) (got k : Nat) : Keeps R (receiveAll got k) := by
  induction k generalizing got with
  | zero => exact keeps_pure hR _
  | succ k ih =>
    refine keeps_bind hR ?_ fun _ => ih _
    exact keeps_bind hR (keeps_pollReceive hR _) fun _ => keeps_bind hR (keeps_regRead hR _) fun w =>
      keeps_updateI2c hR fun u => List.length_set ..

theorem keeps_finishRead (hR : Closed R) (n : Nat) : Keeps R (finishRead n) :=
  keeps_bind hR (keeps_i2cUnit hR) fun _ => keeps_bind hR (keeps_emitOut hR _) fun _ =>
    keeps_bind hR (keeps_setI2cFsm hR _) fun _ => keeps_complete hR _

theorem keeps_i2cInitBody (hR : Closed R) : Keeps R i2cInitBody :=
  keeps_bind hR (keeps_i2cUnit hR) fun _ => keeps_getState fun _ => keeps_bind hR (keeps_regRead hR _) fun _ =>
    keeps_bind hR (keeps_regWrite hR _ _) fun _ => keeps_bind hR (keeps_setDiv hR _) fun _ =>
      keeps_bind hR (keeps_regWrite hR _ _) fun _ => keeps_bind hR (keeps_writeSlave hR _ _) fun _ =>
        keeps_setI2cFsm hR _

theorem keeps_emitAll (hR : Closed R) (vs : List OutValue) : Keeps R (emitAll vs) := by
  induction vs with
  | nil => exact keeps_pure hR _
  | cons v vs ih => exact keeps_bind hR (keeps_emitOut hR v) fun _ => ih

theorem keeps_classifyFamily (hR : Closed R) (k : Nat) : Keeps R (classifyFamily k) := by
  refine keeps_getState fun s => ?_
  cases familyOf s.params.irqFamilyBit k with
  | none => exact keeps_pure hR _
  | some f => exact keeps_bind hR (keeps_regRead hR _) fun _ => keeps_emitAll hR _

theorem keeps_classifyBit (hR : Closed R) (label k : Nat) : Keeps R (classifyBit label k) := by
  refine keeps_getState fun s => keeps_ite (keeps_classifyFamily hR k) ?_
  cases knownName s.params.irqKnown label k with
  | none => exact keeps_pure hR _
  | some name => exact keeps_emitOut hR _

theorem keeps_classifyBits (hR : Closed R) (label : Nat) (w : Word) (ks : List Nat) :
    Keeps R (classifyBits label w ks) := by
  induction ks with
  | nil => exact keeps_pure hR _
  | cons k ks ih => exact keeps_bind hR (keeps_whenever hR (keeps_classifyBit hR _ _)) fun _ => ih

theorem keeps_dispatchBanks (hR : Closed R) (i : Nat) (bs : List IrqBank) : Keeps R (dispatchBanks i bs) := by
  induction bs generalizing i with
  | nil => exact keeps_pure hR _
  | cons b bs ih =>
    exact keeps_bind hR (keeps_regRead hR _) fun w =>
      keeps_bind hR (keeps_whenever hR (keeps_classifyBits hR _ _ _)) fun _ => ih _

/-! ## The GPIO commands, whose unit is the one in the slot -/

/-- A live unit is the unit in its slot. -/
theorem livePin_slot {s : State} {pin : Byte} {u : PinUnit} (h : s.livePin pin = some u) : s.pinSlot pin = some u := by
  unfold State.livePin at h
  rw [Option.filter_eq_some_iff] at h
  exact h.1

/-- Putting back the unit of a slot with its index unchanged, after bus events. -/
theorem closed_putPin (hR : Closed R) {s t : State} {pin : Byte} {u v : PinUnit} (h : s.livePin pin = some u)
    (hst : R s t) (hslot : t.livePin pin = s.livePin pin) (hv : v.index = u.index) : R s (t.setPin pin v) :=
  hR.trans hst (hR.pin t pin v (livePin_lt h) (.inr ⟨u, livePin_slot (hslot.trans h), hv⟩))

theorem keeps_pulsePin (hR : Closed R) (k : BankKind) (after : PinFsm) (pin : Byte) : Keeps R (pulsePin k after pin) := by
  intro s
  rcases pinUnit_cases pin s with ⟨u, hu, h⟩ | ⟨_, h⟩
  · unfold pulsePin
    rw [bind_ok h]
    rcases regWrite_cases (bankReg k pin) (bankMask pin) s with ⟨d, hd, hp, h'⟩ | ⟨_, _, _, h'⟩ | ⟨_, h'⟩
    · rw [bind_ok h']
      exact hR.trans (closed_putPin hR hu (v := { u with fsm := after }) (hR.write s _ d _ hd hp) rfl rfl) (hR.complete _ _)
    · rw [bind_error h']; exact hR.refl s
    · rw [bind_error h']; exact hR.refl s
  · unfold pulsePin; rw [bind_error h]; exact hR.refl s

theorem execGpioNew_keeps (hR : Closed R) {pin : Byte} {f : PinFunction} {pull : Pull} {level : Level} {s t : State}
    (h : execGpioNew pin f pull level s = .next t) : R s t := by
  refine runCmd_keeps hR ?_ h
  intro s
  by_cases hp : npin ≤ pin.toNat
  · simp only [hp, decide_true, whenever_true, raiseFatal_bind]; exact hR.refl s
  · simp only [hp, decide_false, whenever_false, bind_ok (pure_apply _ _), getState_bind]
    cases (s.livePin pin).isSome
    · exact hR.trans (hR.pin s pin _ (by omega) (.inl rfl)) (hR.complete _ _)
    · exact hR.refl s

theorem execGpioInit_keeps (hR : Closed R) {pin : Byte} {s t : State} (h : execGpioInit pin s = .next t) : R s t := by
  refine runCmd_keeps hR ?_ h
  intro s
  rcases pinUnit_cases pin s with ⟨u, hu, h⟩ | ⟨_, h⟩
  · rw [bind_ok h, getState_bind]
    rcases requireMapped_cases [bankReg (assertKind u.level) pin, fselReg pin, bankReg .lev pin] s with h0 | h0
    · rw [bind_ok h0]
      rcases regWrite_cases (bankReg (assertKind u.level) pin) (bankMask pin) s with
        ⟨d1, hd1, hp1, h1⟩ | ⟨_, _, _, h1⟩ | ⟨_, h1⟩
      · rw [bind_ok h1]
        have r1 := hR.write s _ d1 (bankMask pin) hd1 hp1
        rcases regRead_cases (fselReg pin) (s.afterEvents [.wr d1.addr (bankMask pin)]) with
          ⟨d2, hd2, hp2, h2⟩ | ⟨_, _, _, h2⟩ | ⟨_, h2⟩
        · rw [bind_ok h2]
          have r2 := hR.trans r1 (hR.read _ _ d2 hd2 hp2)
          generalize hs2 : (s.afterEvents [.wr d1.addr (bankMask pin)]).afterEvents _ = s2 at r2 ⊢
          have l2 : s2.livePin pin = s.livePin pin := by subst hs2; rfl
          generalize insertField3 _ _ _ = new
          rcases regWrite_cases (fselReg pin) new s2 with ⟨d3, hd3, hp3, h3⟩ | ⟨_, _, _, h3⟩ | ⟨_, h3⟩
          · rw [bind_ok h3]
            have r3 := hR.trans r2 (hR.write s2 _ d3 new hd3 hp3)
            generalize hs3 : s2.afterEvents [.wr d3.addr new] = s3 at r3 ⊢
            have l3 : s3.livePin pin = s.livePin pin := by subst hs3; exact l2
            rcases regRead_cases (bankReg .lev pin) s3 with ⟨d4, hd4, hp4, h4⟩ | ⟨_, _, _, h4⟩ | ⟨_, h4⟩
            · rw [bind_ok h4]
              exact hR.trans (closed_putPin hR hu
                (v := { u with level := sampledLevel (envAnswer s3.env d4.addr) (bankMask pin), fsm := .functionSelected })
                (hR.trans r3 (hR.read s3 _ d4 hd4 hp4)) l3 rfl)
                (hR.complete _ _)
            · rw [bind_error h4]; exact r3
            · rw [bind_error h4]; exact r3
          · rw [bind_error h3]; exact r2
          · rw [bind_error h3]; exact r2
        · rw [bind_error h2]; exact r1
        · rw [bind_error h2]; exact r1
      · rw [bind_error h1]; exact hR.refl s
      · rw [bind_error h1]; exact hR.refl s
    · rw [bind_error h0]; exact hR.refl s
  · rw [bind_error h]; exact hR.refl s

theorem execGpioSample_keeps (hR : Closed R) {pin : Byte} {s t : State} (h : execGpioSample pin s = .next t) : R s t := by
  refine runCmd_keeps hR ?_ h
  intro s
  rcases pinUnit_cases pin s with ⟨u, hu, h⟩ | ⟨_, h⟩
  · rw [bind_ok h]
    rcases regRead_cases (bankReg .lev pin) s with ⟨d, hd, hp, h'⟩ | ⟨_, _, _, h'⟩ | ⟨_, h'⟩
    · rw [bind_ok h']
      exact hR.trans (hR.trans (closed_putPin hR hu
        (v := { u with level := sampledLevel (envAnswer s.env d.addr) (bankMask pin) })
        (hR.read s _ d hd hp) rfl rfl) (hR.out _ _)) (hR.complete _ _)
    · rw [bind_error h']; exact hR.refl s
    · rw [bind_error h']; exact hR.refl s
  · rw [bind_error h]; exact hR.refl s

theorem execI2cRelease_keeps (hR : Closed R) {s t : State} (h : execI2cRelease s = .next t) : R s t := by
  refine runCmd_keeps hR ?_ h
  intro s
  rcases i2cUnit_cases s with ⟨u, hu, h⟩ | ⟨_, h⟩
  · rw [bind_ok h]
    rw [putI2c_bind, complete_apply]
    exact hR.trans (hR.i2c s { u with released := true } (.inr ⟨u, (liveI2c_some hu).1, rfl⟩)) (hR.complete _ _)
  · rw [bind_error h]; exact hR.refl s

theorem execI2cNew_keeps (hR : Closed R) {timeout : BitVec 16} {clock : Word} {s t : State}
    (h : execI2cNew timeout clock s = .next t) : R s t := by
  refine runCmd_keeps hR ?_ h
  intro s
  rw [getState_bind]
  cases s.liveI2c.isSome
  · exact hR.trans (hR.i2c s _ (.inl List.length_replicate)) (hR.complete _ _)
  · exact hR.refl s

/-! ## Every command -/

/-- Every execution of a command keeps a relation that every primitive effect keeps. -/
theorem exec_keeps (hR : Closed R) {i : Instr} {s t : State} (h : exec i s = .next t) : R s t := by
  have read (r : Reg) : Keeps R (regRead r) := keeps_regRead hR r
  have fin (n : Nat) : Keeps R (complete n) := keeps_complete hR n
  cases i with
  | regRead r =>
    refine runCmd_keeps hR (keeps_bind hR ?_ fun _ => keeps_bind hR (read r) fun _ =>
      keeps_bind hR (keeps_emitOut hR _) fun _ => fin 1) h
    exact keeps_getState fun _ => keeps_ite (keeps_pure hR _) (keeps_refuse hR _)
  | regWrite r v =>
    refine runCmd_keeps hR (keeps_bind hR ?_ fun _ => keeps_bind hR (keeps_regWrite hR r v) fun _ => fin 1) h
    exact keeps_getState fun _ => keeps_ite (keeps_pure hR _) (keeps_refuse hR _)
  | mgrRegister ty =>
    refine runCmd_keeps hR (keeps_bind hR ?_ fun _ => keeps_bind hR (c := update (setRegistered ty)) (fun s => hR.register s ty) fun _ => fin 1) h
    cases ty
    · exact keeps_bind hR (keeps_uartUnit hR) fun _ => keeps_pure hR _
    · exact keeps_bind hR (keeps_i2cUnit hR) fun _ => keeps_pure hR _
  | mgrInitAll ty =>
    refine runCmd_keeps hR (keeps_getState fun s => ?_) h
    cases managerOf ty s with
    | empty => exact fin 1
    | registered =>
      refine keeps_bind hR ?_ fun _ => fin 1
      cases ty
      · exact keeps_uartInitBody hR
      · exact keeps_i2cInitBody hR
  | consoleBind =>
    exact runCmd_keeps hR (keeps_bind hR (keeps_uartUnit hR) fun _ => keeps_bind hR (c := update _) (fun s => hR.bind s) fun _ => fin 1) h
  | gpioNew pin f pull level => exact execGpioNew_keeps hR h
  | gpioInit pin => exact execGpioInit_keeps hR h
  | gpioSet pin => exact runCmd_keeps hR (keeps_pulsePin hR _ _ pin) h
  | gpioClr pin => exact runCmd_keeps hR (keeps_pulsePin hR _ _ pin) h
  | gpioSample pin => exact execGpioSample_keeps hR h
  | gpioEdge pin =>
    exact runCmd_keeps hR (keeps_bind hR (keeps_pinUnit hR pin) fun _ => keeps_bind hR (read _) fun _ =>
      keeps_bind hR (keeps_emitOut hR _) fun _ => fin 1) h
  | gpioRelease pin => exact runCmd_keeps hR (keeps_pulsePin hR _ _ pin) h
  | uartNew p w st baud =>
    exact runCmd_keeps hR (keeps_getState fun _ =>
      keeps_bind hR (keeps_whenever hR (keeps_refuse hR _)) fun _ =>
        keeps_bind hR (keeps_putUart hR _) fun _ => fin 1) h
  | uartResolveClk => exact runCmd_keeps hR (keeps_bind hR (keeps_resolveClock hR) fun _ => fin 1) h
  | uartBaudDiv target =>
    exact runCmd_keeps hR (keeps_bind hR (keeps_uartUnit hR) fun _ => keeps_bind hR (keeps_clockHz hR) fun _ =>
      keeps_bind hR (keeps_baudDiv hR _ _) fun _ => keeps_bind hR (keeps_emitOut hR _) fun _ => fin 1) h
  | uartLineCtl p w st =>
    exact runCmd_keeps hR (keeps_bind hR (keeps_uartUnit hR) fun _ =>
      keeps_bind hR (keeps_applyLineControl hR _ _ _ _) fun _ => fin 1) h
  | uartFlush =>
    exact runCmd_keeps hR (keeps_bind hR (keeps_uartUnit hR) fun _ => keeps_bind hR (keeps_flush hR) fun _ => fin 1) h
  | uartWriteChar b => exact runCmd_keeps hR (keeps_writeUnits hR _ _) h
  | uartWriteBytes bs => exact runCmd_keeps hR (keeps_writeUnits hR _ _) h
  | uartInit => exact runCmd_keeps hR (keeps_bind hR (keeps_uartInitBody hR) fun _ => fin 1) h
  | uartCharsWritten =>
    exact runCmd_keeps hR (keeps_bind hR (keeps_uartUnit hR) fun _ =>
      keeps_bind hR (keeps_emitOut hR _) fun _ => fin 1) h
  | uartReadBytes rest => exact runCmd_keeps hR (keeps_refuse hR _) h
  | uartRelease =>
    exact runCmd_keeps hR (keeps_bind hR (keeps_uartUnit hR) fun _ => keeps_bind hR (keeps_putUart hR _) fun _ => fin 1) h
  | i2cNew timeout clock => exact execI2cNew_keeps hR h
  | i2cSetDiv =>
    exact runCmd_keeps hR (keeps_bind hR (keeps_i2cUnit hR) fun _ => keeps_bind hR (keeps_setDiv hR _) fun _ => fin 1) h
  | i2cSetAddr addr =>
    exact runCmd_keeps hR (keeps_bind hR (keeps_i2cUnit hR) fun _ => keeps_bind hR (keeps_setAddress hR _) fun _ =>
      keeps_bind hR (keeps_setI2cFsm hR _) fun _ => fin 1) h
  | i2cSetDir dir =>
    exact runCmd_keeps hR (keeps_bind hR (keeps_i2cUnit hR) fun _ => keeps_bind hR (keeps_setDirection hR _) fun _ =>
      keeps_bind hR (keeps_setI2cFsm hR _) fun _ => fin 1) h
  | i2cWrite addr bs =>
    exact runCmd_keeps hR (keeps_bind hR (keeps_i2cUnit hR) fun _ => keeps_bind hR (keeps_writeSlave hR _ _) fun _ =>
      keeps_bind hR (keeps_setI2cFsm hR _) fun _ => fin _) h
  | i2cRead addr n =>
    refine runCmd_keeps hR (keeps_bind hR (keeps_i2cUnit hR) fun _ => keeps_getState fun s =>
      keeps_bind hR ?_ fun _ => keeps_finishRead hR _) h
    have start : Keeps R (readFromStart addr n) :=
      keeps_bind hR (keeps_readSetup hR _ _) fun _ => keeps_receiveAll hR _ _
    cases s.progress with
    | idle => exact start
    | uartTx k => exact start
    | i2cRx got => exact keeps_receiveAll hR _ _
  | i2cInit => exact runCmd_keeps hR (keeps_bind hR (keeps_i2cInitBody hR) fun _ => fin 1) h
  | i2cRelease => exact execI2cRelease_keeps hR h
  | irqDispatch =>
    exact runCmd_keeps hR (keeps_getState fun _ => keeps_bind hR (keeps_dispatchBanks hR _ _) fun _ => fin 1) h

/-- Everything a step that answers a next state does: the machine was not halted, `CP` was inside the stream, and the command
decoded there was executed. -/
theorem step_next_cases {s t : State} (h : step s = .next t) :
    s.halt = none ∧ s.cp < s.stream.length ∧
      ∃ i len, decode s.params s.fetch = .command i len ∧ exec i s = .next t := by
  unfold step at h
  split at h
  · cases h
  · rename_i hn
    split at h
    · cases h
    · rename_i hlt
      split at h
      · rename_i i len hd
        exact ⟨hn, by omega, i, len, hd, h⟩
      · cases h

/-- Every step keeps a relation that every primitive effect keeps. -/
theorem step_keeps (hR : Closed R) {s t : State} (h : step s = .next t) : R s t := by
  obtain ⟨_, _, i, _, _, h⟩ := step_next_cases h
  exact exec_keeps hR h

end Calculus

end Sys2Proof.Machine
end

