-- ==== Sys2Proof/Laws/Encoding.lean ====
section
/-!
SUPPORT. Sys2Proof/Laws/Encoding.lean: the fields of a header word and the bytes of a payload word, bit by bit.
-/

namespace Sys2Proof

/-- The bits of a header (R64). -/
theorem header_bit (op a : Byte) (b : BitVec 16) (c : Word) (i : Nat) :
    (header op a b c).getLsbD i =
      if i < 32 then c.getLsbD i else if i < 48 then b.getLsbD (i - 32) else if i < 56 then a.getLsbD (i - 48)
      else op.getLsbD (i - 56) := by
  have h1 := BitVec.getLsbD_append (x := op ++ a ++ b) (y := c) (i := i)
  have h2 := BitVec.getLsbD_append (x := op ++ a) (y := b) (i := i - 32)
  have h3 := BitVec.getLsbD_append (x := op) (y := a) (i := i - 32 - 16)
  have e : (header op a b c).getLsbD i = (op ++ a ++ b ++ c).getLsbD i := rfl
  rw [e, h1, h2, h3, show i - 32 - 16 = i - 48 by omega, show i - 48 - 8 = i - 56 by omega]
  split
  · simp [*]
  · split
    · rw [if_pos (by omega)]
    · rw [if_neg (show ¬ i < 48 by omega)]
      by_cases h : i < 56
      · rw [if_pos (by omega), if_pos h]
      · rw [if_neg (by omega), if_neg h]

@[simp] theorem opField_header (op a : Byte) (b : BitVec 16) (c : Word) : opField (header op a b c) = op := by
  apply BitVec.eq_of_getLsbD_eq; intro i hi
  rw [opField, BitVec.getLsbD_extractLsb', header_bit]
  simp [hi, show ¬ (56 + i < 32) by omega, show ¬ (56 + i < 48) by omega]

@[simp] theorem aField_header (op a : Byte) (b : BitVec 16) (c : Word) : aField (header op a b c) = a := by
  apply BitVec.eq_of_getLsbD_eq; intro i hi
  rw [aField, BitVec.getLsbD_extractLsb', header_bit]
  simp [hi, show ¬ (48 + i < 32) by omega, show 48 + i < 56 by omega]

@[simp] theorem bField_header (op a : Byte) (b : BitVec 16) (c : Word) : bField (header op a b c) = b := by
  apply BitVec.eq_of_getLsbD_eq; intro i hi
  rw [bField, BitVec.getLsbD_extractLsb', header_bit]
  simp [hi, show 32 + i < 48 by omega]

@[simp] theorem cField_header (op a : Byte) (b : BitVec 16) (c : Word) : cField (header op a b c) = c := by
  apply BitVec.eq_of_getLsbD_eq; intro i hi
  rw [cField, BitVec.getLsbD_extractLsb', header_bit]
  simp [hi]

/-- Decoding at a header reads its four fields. -/
theorem decode_header (p : Params) (op a : Byte) (b : BitVec 16) (c : Word) (rest : List CmdWord) :
    decode p (header op a b c :: rest) = decodeFields p op a b c rest := by
  simp [decode]

/-- A word is the header of its four fields. -/
theorem header_of_fields (w : CmdWord) : header (opField w) (aField w) (bField w) (cField w) = w := by
  apply BitVec.eq_of_getLsbD_eq; intro i hi
  rw [header_bit]
  simp only [opField, aField, bField, cField, BitVec.getLsbD_extractLsb']
  split
  · simp [*]
  split
  · simp [show i - 32 < 16 by omega, show 32 + (i - 32) = i by omega]
  split
  · simp [show i - 48 < 8 by omega, show 48 + (i - 48) = i by omega]
  · simp [show i - 56 < 8 by omega, show 56 + (i - 56) = i by omega]

/-- The bytes of a packed word: the bytes given, then zero padding (R65). -/
theorem wordBytes_packWord (bytes : List Byte) (h : bytes.length ≤ 8) :
    wordBytes (packWord bytes) = bytes ++ List.replicate (8 - bytes.length) 0#8 := by
  have key (a b c d e f g h : Byte) : wordBytes (h ++ g ++ f ++ e ++ d ++ c ++ b ++ a : BitVec 64) = [a, b, c, d, e, f, g, h] := by
    simp only [wordBytes, List.cons.injEq, and_true]
    refine ⟨?_, ?_, ?_, ?_, ?_, ?_, ?_, ?_⟩ <;>
    · apply BitVec.eq_of_getLsbD_eq; intro i hi
      simp only [BitVec.getLsbD_append, BitVec.getLsbD_extractLsb', hi, decide_true, Bool.true_and]
      repeat' split
      all_goals first | omega | (congr 1; omega)
  rw [packWord, key]
  match bytes, h with
  | [], _ => rfl
  | [_], _ => rfl
  | [_, _], _ => rfl
  | [_, _, _], _ => rfl
  | [_, _, _, _], _ => rfl
  | [_, _, _, _, _], _ => rfl
  | [_, _, _, _, _, _], _ => rfl
  | [_, _, _, _, _, _, _], _ => rfl
  | [_, _, _, _, _, _, _, _], _ => rfl
  | _ :: _ :: _ :: _ :: _ :: _ :: _ :: _ :: _ :: _, h => simp at h; omega

/-- The bytes of the packed payload words (R65). -/
theorem flatMap_wordBytes_packWords (k : Nat) (bytes : List Byte) (h : bytes.length ≤ 8 * k) :
    (packWords k bytes).flatMap wordBytes = bytes ++ List.replicate (8 * k - bytes.length) 0#8 := by
  induction k generalizing bytes with
  | zero =>
    have : bytes = [] := by simpa using h
    simp [packWords, this]
  | succ k ih =>
    rw [packWords, List.flatMap_cons, wordBytes_packWord _ (by simp), ih _ (by simp; omega)]
    by_cases h8 : 8 ≤ bytes.length
    · simp only [List.length_take, Nat.min_eq_left h8, Nat.sub_self, List.replicate_zero, List.append_nil,
        List.length_drop]
      rw [← List.append_assoc, List.take_append_drop]
      congr 2; omega
    · have : bytes.drop 8 = [] := by simp; omega
      rw [this]; simp [List.take_of_length_le (show bytes.length ≤ 8 by omega)]
      omega

end Sys2Proof
end

