-- ==== Sys2Proof/Laws/Memory.lean ====
section
/-!
SUPPORT. Sys2Proof/Laws/Memory.lean: the store keeps its canonical form under every operation, and a read after a write gives the
value written and leaves every other byte alone.
-/

namespace Sys2Proof.Machine

/-- The canonical form, as one recursion on the head: every later address is larger. -/
theorem memoryWf_cons (a : Nat) (b : Byte) (m : Memory) :
    memoryWf ((a, b) :: m) = true ↔
      a < 2 ^ 32 ∧ b ≠ unlistedByte ∧ memoryWf m = true ∧ ∀ c ∈ m, a < c.1 := by
  induction m generalizing a b with
  | nil => simp [memoryWf]
  | cons c rest ih =>
    obtain ⟨a', b'⟩ := c
    simp only [memoryWf, Bool.and_eq_true, decide_eq_true_eq, ih]
    constructor
    · rintro ⟨⟨h1, h2⟩, h3, h4, h5, h6⟩
      refine ⟨by omega, h2, ⟨h3, h4, h5, h6⟩, ?_⟩
      intro c hc
      rcases List.mem_cons.1 hc with rfl | hc
      · exact h1
      · have := h6 c hc; omega
    · rintro ⟨_, h2, h3, h4⟩
      exact ⟨⟨h4 _ (List.mem_cons_self ..), h2⟩, h3⟩

/-- An address below every listed one reads as unlisted. -/
theorem readByte_below {m : Memory} {a : Nat} (h : ∀ c ∈ m, a < c.1) : readByte m a = unlistedByte := by
  cases m with
  | nil => rfl
  | cons c rest =>
    obtain ⟨k, v⟩ := c
    have hk : a < k := h (k, v) (List.mem_cons_self ..)
    simp [readByte, hk, Nat.ne_of_lt hk]

/-- Addresses after one byte write: the old ones or the new one. -/
theorem mem_writeByte {m : Memory} {a : Nat} {b : Byte} {c : Host.Cell} (h : c ∈ writeByte m a b) : c ∈ m ∨ c.1 = a := by
  induction m with
  | nil =>
    simp only [writeByte] at h
    split at h <;> simp_all
  | cons d rest ih =>
    obtain ⟨k, v⟩ := d
    simp only [writeByte] at h
    split at h
    · split at h <;> simp_all
      rcases h with rfl | h <;> simp_all
    · split at h
      · split at h <;> simp_all
        rcases h with rfl | h <;> simp_all
      · rcases List.mem_cons.1 h with rfl | h
        · exact .inl (List.mem_cons_self ..)
        · rcases ih h with h | h
          · exact .inl (List.mem_cons_of_mem _ h)
          · exact .inr h

/-- One byte write keeps the canonical form. -/
theorem writeByte_wf {m : Memory} {a : Nat} {b : Byte} (hm : memoryWf m = true) (ha : a < 2 ^ 32) :
    memoryWf (writeByte m a b) = true := by
  induction m with
  | nil =>
    simp only [writeByte]
    split
    · rfl
    · simp_all [memoryWf]
  | cons d rest ih =>
    obtain ⟨k, v⟩ := d
    obtain ⟨h1, h2, h3, h4⟩ := (memoryWf_cons k v rest).1 hm
    simp only [writeByte]
    split
    · rename_i hlt
      split
      · exact hm
      · rename_i hb
        refine (memoryWf_cons ..).2 ⟨ha, hb, hm, ?_⟩
        intro c hc
        rcases List.mem_cons.1 hc with rfl | hc
        · exact hlt
        · exact Nat.lt_trans hlt (h4 c hc)
    · split
      · rename_i heq
        split
        · exact h3
        · rename_i hb
          exact (memoryWf_cons ..).2 ⟨ha, hb, h3, fun c hc => heq ▸ h4 c hc⟩
      · rename_i hlt heq
        refine (memoryWf_cons ..).2 ⟨h1, h2, ih h3, ?_⟩
        intro c hc
        rcases mem_writeByte hc with hc | rfl
        · exact h4 c hc
        · omega

/-- Reading a byte after a byte write. -/
theorem readByte_writeByte {m : Memory} {a : Nat} {b : Byte} (hm : memoryWf m = true) (a' : Nat) :
    readByte (writeByte m a b) a' = if a' = a then b else readByte m a' := by
  induction m with
  | nil =>
    simp only [writeByte]
    split
    · simp_all [readByte]
    · simp only [readByte]; split <;> simp_all
  | cons d rest ih =>
    obtain ⟨k, v⟩ := d
    obtain ⟨_, _, h3, h4⟩ := (memoryWf_cons k v rest).1 hm
    simp only [writeByte]
    split
    · rename_i hlt
      split
      · rename_i hb
        by_cases e : a' = a
        · subst e; simp [readByte, hlt, Nat.ne_of_lt hlt, hb]
        · simp [e]
      · by_cases e : a' = a
        · subst e; simp [readByte]
        · simp only [readByte, e, if_false]
          by_cases h : a' < a
          · simp [h, show a' ≠ k by omega, show a' < k by omega]
          · simp [h]
    · split
      · rename_i heq
        subst heq
        split
        · rename_i hb
          by_cases e : a' = a
          · subst e; simp [readByte_below h4, hb]
          · by_cases h : a' < a
            · simp [readByte, e, h, readByte_below fun c hc => Nat.lt_trans h (h4 c hc)]
            · simp [readByte, e, h]
        · by_cases e : a' = a <;> simp [readByte, e]
      · rename_i hlt heq
        by_cases e : a' = a
        · subst e
          simp [readByte, heq, hlt, ih h3]
        · simp [readByte, ih h3, e]

/-- Storing a word keeps the canonical form. -/
theorem writeWord_wf {m : Memory} (addr v : Word) (hm : memoryWf m = true) : memoryWf (writeWord m addr v) = true := by
  have h (i : Nat) : byteAddr addr i < 2 ^ 32 := Nat.mod_lt _ (by decide)
  exact writeByte_wf (writeByte_wf (writeByte_wf (writeByte_wf hm (h 0)) (h 1)) (h 2)) (h 3)

/-- A byte outside the stored word is as before. -/
theorem readByte_writeWord_other {m : Memory} {addr v : Word} {a : Nat} (hm : memoryWf m = true)
    (h : ∀ i < 4, a ≠ byteAddr addr i) : readByte (writeWord m addr v) a = readByte m a := by
  have hw (i : Nat) : byteAddr addr i < 2 ^ 32 := Nat.mod_lt _ (by decide)
  have w0 := writeByte_wf (b := v.extractLsb' 0 8) hm (hw 0)
  have w1 := writeByte_wf (b := v.extractLsb' 8 8) w0 (hw 1)
  have w2 := writeByte_wf (b := v.extractLsb' 16 8) w1 (hw 2)
  unfold writeWord
  rw [readByte_writeByte w2, readByte_writeByte w1, readByte_writeByte w0, readByte_writeByte hm]
  simp [h 0, h 1, h 2, h 3]

/-- Four bytes of a word, put together again. -/
theorem word_of_bytes (v : Word) :
    v.extractLsb' 24 8 ++ v.extractLsb' 16 8 ++ v.extractLsb' 8 8 ++ v.extractLsb' 0 8 = v := by
  apply BitVec.eq_of_getLsbD_eq
  intro i hi
  simp only [BitVec.getLsbD_append, BitVec.getLsbD_extractLsb']
  by_cases h8 : i < 8
  · simp [h8]
  · by_cases h16 : i - 8 < 8
    · simp [h8, h16, show 8 + (i - 8) = i by omega]
    · by_cases h24 : i - 8 - 8 < 8
      · simp [h8, h16, h24, show 16 + (i - 8 - 8) = i by omega]
      · simp [h8, h16, h24, show i - 8 - 8 - 8 < 8 by omega, show 24 + (i - 8 - 8 - 8) = i by omega]

/-- A word read after it was stored is the word stored. -/
theorem readWord_writeWord {m : Memory} (addr v : Word) (hm : memoryWf m = true) :
    readWord (writeWord m addr v) addr = v := by
  have hw (i : Nat) : byteAddr addr i < 2 ^ 32 := Nat.mod_lt _ (by decide)
  have w0 := writeByte_wf (b := v.extractLsb' 0 8) hm (hw 0)
  have w1 := writeByte_wf (b := v.extractLsb' 8 8) w0 (hw 1)
  have w2 := writeByte_wf (b := v.extractLsb' 16 8) w1 (hw 2)
  have hlt := addr.isLt
  have ne (i j : Nat) (hi : i < 4) (hj : j < 4) (h : i ≠ j) : byteAddr addr i ≠ byteAddr addr j := by
    unfold byteAddr; omega
  unfold readWord writeWord
  simp only [readByte_writeByte w2, readByte_writeByte w1, readByte_writeByte w0, readByte_writeByte hm]
  simp [ne 0 1, ne 0 2, ne 0 3, ne 1 2, ne 1 3, ne 2 3, word_of_bytes]

/-- The machine's memory at reset has the canonical form. -/
theorem reset_memory_wf : memoryWf State.reset.memory = true := rfl

/-- The environment keeps the canonical form of its store over any bus events. -/
theorem envRun_wf {e : Env} (evs : List BusEvent) (h : ∀ m, e = .backingStore m → memoryWf m = true) :
    ∀ m, envRun e evs = .backingStore m → memoryWf m = true := by
  induction evs generalizing e with
  | nil => exact h
  | cons ev evs ih =>
    cases ev with
    | rd a v =>
      refine ih ?_
      intro m hm
      match e, h with
      | .oracle (_ :: _) _, _ => simp [envAfterRead] at hm
      | .oracle [] _, _ => simp [envAfterRead] at hm
      | .backingStore m', h => exact h m hm
    | wr a v =>
      refine ih ?_
      intro m hm
      match e, h with
      | .oracle _ _, _ => simp [envAfterWrite] at hm
      | .backingStore m', h =>
        simp only [envAfterWrite, Env.backingStore.injEq] at hm
        exact hm ▸ writeWord_wf a v (h m' rfl)

end Sys2Proof.Machine
end

