-- ==== Sys2Proof/Laws/PerInstr.lean ====
section
/-!
SUPPORT. Sys2Proof/Laws/PerInstr.lean: families of statements about every command as syntax, one lemma per constructor.
-/

namespace Sys2Proof

/-- `packWords` makes as many words as it is asked for. -/
theorem packWords_length (k : Nat) (bytes : List Byte) : (packWords k bytes).length = k := by
  induction k generalizing bytes with
  | zero => rfl
  | succ k ih => simp [packWords, ih]

/-- A payload has as many words as R65 says. -/
theorem packPayload_length (bytes : List Byte) : (packPayload bytes).length = payloadWords bytes.length :=
  packWords_length _ _

namespace Laws.EncodedLength

/-- The encoding of a command is as long as the command's length (R65): the words `CP` passes are the words written. -/
def Statement (i : Instr) : Prop := (encode i).length = i.len

theorem regRead (r : Reg) : Statement (.regRead r) := rfl
theorem regWrite (r : Reg) (v : Word) : Statement (.regWrite r v) := rfl
theorem mgrRegister (t : DriverType) : Statement (.mgrRegister t) := rfl
theorem mgrInitAll (t : DriverType) : Statement (.mgrInitAll t) := rfl
theorem consoleBind : Statement .consoleBind := rfl
theorem gpioNew (pin : Byte) (f : PinFunction) (pull : Pull) (level : Level) : Statement (.gpioNew pin f pull level) := rfl
theorem gpioInit (pin : Byte) : Statement (.gpioInit pin) := rfl
theorem gpioSet (pin : Byte) : Statement (.gpioSet pin) := rfl
theorem gpioClr (pin : Byte) : Statement (.gpioClr pin) := rfl
theorem gpioSample (pin : Byte) : Statement (.gpioSample pin) := rfl
theorem gpioEdge (pin : Byte) : Statement (.gpioEdge pin) := rfl
theorem gpioRelease (pin : Byte) : Statement (.gpioRelease pin) := rfl
theorem uartNew (parity : Parity) (wlen : WordLength) (stop : StopBits) (baud : Word) : Statement (.uartNew parity wlen stop baud) := rfl
theorem uartResolveClk : Statement .uartResolveClk := rfl
theorem uartBaudDiv (target : Word) : Statement (.uartBaudDiv target) := rfl
theorem uartLineCtl (parity : Option Parity) (wlen : Option WordLength) (stop : Option StopBits) : Statement (.uartLineCtl parity wlen stop) := rfl
theorem uartFlush : Statement .uartFlush := rfl
theorem uartWriteChar (byte : Byte) : Statement (.uartWriteChar byte) := rfl
theorem uartWriteBytes (bytes : List Byte) : Statement (.uartWriteBytes bytes) := by
  simp [Statement, encode, Instr.len, packPayload_length, Nat.add_comm]
theorem uartInit : Statement .uartInit := rfl
theorem uartCharsWritten : Statement .uartCharsWritten := rfl
theorem uartReadBytes (rest : BitVec 56) : Statement (.uartReadBytes rest) := rfl
theorem uartRelease : Statement .uartRelease := rfl
theorem i2cNew (timeout : BitVec 16) (clock : Word) : Statement (.i2cNew timeout clock) := rfl
theorem i2cSetDiv : Statement .i2cSetDiv := rfl
theorem i2cSetAddr (addr : Byte) : Statement (.i2cSetAddr addr) := rfl
theorem i2cSetDir (dir : Direction) : Statement (.i2cSetDir dir) := rfl
theorem i2cWrite (addr : Byte) (bytes : List Byte) : Statement (.i2cWrite addr bytes) := by
  simp [Statement, encode, Instr.len, packPayload_length, Nat.add_comm]
theorem i2cRead (addr : Byte) (n : BitVec 16) : Statement (.i2cRead addr n) := rfl
theorem i2cInit : Statement .i2cInit := rfl
theorem i2cRelease : Statement .i2cRelease := rfl
theorem irqDispatch : Statement .irqDispatch := rfl

end Laws.EncodedLength

end Sys2Proof
end

