-- ==== Sys2Proof/Laws/Steps.lean ====
section
/-!
SUPPORT. Sys2Proof/Laws/Steps.lean: what each shared sub-step of the UART, I2C and IRQ commands does when it ends well, as the list
of its bus events and its change of the unit.
-/

namespace Sys2Proof.Machine

/-- A first line that ends well, and what the rest then does. -/
theorem bind_eq {α β : Type} {c : Cmd α} {f : α → Cmd β} {s t : State} {a : α} {r : EStateM.Result Stop State β}
    (h : c s = .ok a t) (hr : f a t = r) : (c >>= f) s = r := (bind_ok h).trans hr

/-! ## States after events, with unit fields changed -/

@[simp] theorem afterEvents_withUart (s : State) (evs : List BusEvent) (u : Option UartUnit) :
    ({ s with uart := u } : State).afterEvents evs = { s.afterEvents evs with uart := u } := rfl

@[simp] theorem afterEvents_withI2c (s : State) (evs : List BusEvent) (u : Option I2cUnit) :
    ({ s with i2c := u } : State).afterEvents evs = { s.afterEvents evs with i2c := u } := rfl

@[simp] theorem afterEvents_withProgress (s : State) (evs : List BusEvent) (p : Progress) :
    ({ s with progress := p } : State).afterEvents evs = { s.afterEvents evs with progress := p } := rfl

/-- Storing the unit that is stored changes nothing. -/
theorem withUart_self {s : State} {u : UartUnit} (h : s.uart = some u) : ({ s with uart := some u } : State) = s := by
  cases s; simp_all

/-- Storing the unit that is stored changes nothing. -/
theorem withI2c_self {s : State} {u : I2cUnit} (h : s.i2c = some u) : ({ s with i2c := some u } : State) = s := by
  cases s; simp_all

/-! ## Register accesses with their answers -/

/-- A read whose answer is known (R52, R76). -/
theorem regRead_answered {r : Reg} {s : State} {a w : Word} (h : s.readableAt r a) (hw : w = envAnswer s.env a) :
    regRead r s = .ok w (s.afterEvents [.rd a w]) := by
  subst hw; exact regRead_ok h

theorem uart_readableAt {s : State} (r : UartReg) (h : (s.params.uart.desc r).perm ≠ .writeOnly) :
    s.readableAt (.uart r) (uartAddr s.params r) := ⟨_, rfl, h⟩

theorem uart_writableAt {s : State} (r : UartReg) (h : (s.params.uart.desc r).perm ≠ .readOnly) :
    s.writableAt (.uart r) (uartAddr s.params r) := ⟨_, rfl, h⟩

theorem i2c_readableAt {s : State} (r : I2cReg) (h : (s.params.i2c.desc r).perm ≠ .writeOnly) :
    s.readableAt (.i2c r) (i2cAddr s.params r) := ⟨_, rfl, h⟩

theorem i2c_writableAt {s : State} (r : I2cReg) (h : (s.params.i2c.desc r).perm ≠ .readOnly) :
    s.writableAt (.i2c r) (i2cAddr s.params r) := ⟨_, rfl, h⟩

/-- A read of an I2C register. -/
theorem i2cRead_answered {s : State} {r : I2cReg} {w : Word} (h : (s.params.i2c.desc r).perm ≠ .writeOnly)
    (hw : w = envAnswer s.env (i2cAddr s.params r)) :
    regRead (.i2c r) s = .ok w (s.afterEvents [.rd (i2cAddr s.params r) w]) := regRead_answered (i2c_readableAt r h) hw

/-- A write of an I2C register. -/
theorem i2cWrite_ok {s : State} {r : I2cReg} {v : Word} (h : (s.params.i2c.desc r).perm ≠ .readOnly) :
    regWrite (.i2c r) v s = .ok () (s.afterEvents [.wr (i2cAddr s.params r) v]) := regWrite_ok (i2c_writableAt r h)

/-- A read of a UART register. -/
theorem uartRead_answered {s : State} {r : UartReg} {w : Word} (h : (s.params.uart.desc r).perm ≠ .writeOnly)
    (hw : w = envAnswer s.env (uartAddr s.params r)) :
    regRead (.uart r) s = .ok w (s.afterEvents [.rd (uartAddr s.params r) w]) := regRead_answered (uart_readableAt r h) hw

/-- A write of a UART register. -/
theorem uartWrite_ok {s : State} {r : UartReg} {v : Word} (h : (s.params.uart.desc r).perm ≠ .readOnly) :
    regWrite (.uart r) v s = .ok () (s.afterEvents [.wr (uartAddr s.params r) v]) := regWrite_ok (uart_writableAt r h)

/-! ## UART sub-steps -/

section Uart
variable {s : State} (ho : uartOpen s.params)
include ho

theorem uartOpen_dr : (s.params.uart.desc .dr).perm = .readWrite := ho.1
theorem uartOpen_fr : (s.params.uart.desc .fr).perm ≠ .writeOnly := ho.2.1
theorem uartOpen_ibrd : (s.params.uart.desc .ibrd).perm ≠ .readOnly := ho.2.2.1
theorem uartOpen_fbrd : (s.params.uart.desc .fbrd).perm ≠ .readOnly := ho.2.2.2.1
theorem uartOpen_lcrh : (s.params.uart.desc .lcrh).perm = .readWrite := ho.2.2.2.2.1
theorem uartOpen_cr : (s.params.uart.desc .cr).perm ≠ .readOnly := ho.2.2.2.2.2

/-- The drain reads of flush (R109). -/
theorem drainReads_ok {ws : List Word} (ha : answeredBy s.env (drainEvents (uartAddr s.params .dr) ws)) :
    drainReads ws.length s = .ok () (s.afterEvents (drainEvents (uartAddr s.params .dr) ws)) := by
  induction ws generalizing s with
  | nil => simp [drainReads, drainEvents]
  | cons w ws ih =>
    obtain ⟨hw, ha⟩ := ha
    have hr := uartRead_answered (r := .dr) (by rw [uartOpen_dr ho]; decide) hw
    rw [List.length_cons, drainReads]
    refine bind_eq hr ((ih (s := s.afterEvents [.rd (uartAddr s.params .dr) w]) ho ha).trans ?_)
    rw [afterEvents_append]; rfl

/-- The FIFO off, then on (R109). -/
theorem toggleFifo_ok {l : Word} (hl : l = envAnswer s.env (uartAddr s.params .lcrh)) :
    toggleFifo s = .ok () (s.afterEvents [.rd (uartAddr s.params .lcrh) l,
      .wr (uartAddr s.params .lcrh) (l &&& ~~~(lcrhFen s.params.lcrh)),
      .wr (uartAddr s.params .lcrh) (l ||| lcrhFen s.params.lcrh)]) := by
  have hp := uartOpen_lcrh ho
  have hr := uartRead_answered (r := .lcrh) (by rw [hp]; decide) hl
  have hw (t : State) (v : Word) (ht : t.params = s.params) :
      regWrite (.uart .lcrh) v t = .ok () (t.afterEvents [.wr (uartAddr s.params .lcrh) v]) := by
    rw [← ht]; exact uartWrite_ok (by rw [ht, hp]; decide)
  rw [toggleFifo, getState_bind]
  refine bind_eq hr (bind_eq (hw _ _ (by rfl)) ((hw _ _ (by rfl)).trans ?_))
  rw [afterEvents_append, afterEvents_append]; rfl

/-- Flush (R109). -/
theorem flush_ok {fr l : Word} {ws : List Word} (hn : ws.length = s.params.uartFifoDepth + 1)
    (ha : answeredBy s.env
      (flushEvents s.params (uartAddr s.params .fr) (uartAddr s.params .lcrh) (uartAddr s.params .dr) fr l ws)) :
    flush s = .ok () (s.afterEvents
      (flushEvents s.params (uartAddr s.params .fr) (uartAddr s.params .lcrh) (uartAddr s.params .dr) fr l ws)) := by
  obtain ⟨ha, hd⟩ := (answeredBy_append _ _ _).1 ha
  obtain ⟨⟨hfr, -⟩, hl⟩ := (answeredBy_append _ _ _).1 ha
  have hr := uartRead_answered (uartOpen_fr ho) hfr
  rw [flush, getState_bind, bind_ok hr, ← hn, flushEvents, ← afterEvents_append, ← afterEvents_append]
  rw [envRun_append] at hd
  cases ht : testMask fr s.params.uartFrTxPending
  · cases hx : testMask fr s.params.uartFrRxPending
    · simp [bind_apply]
    · simp only [ht, hx, if_true, Bool.false_eq_true, if_false, whenever_true, whenever_false, bind_apply, pure_apply,
        afterEvents_nil] at hl hd ⊢
      exact drainReads_ok (s := s.afterEvents _) ho hd
  · rw [ht, if_pos rfl] at hl hd
    have h1 := toggleFifo_ok (s := s.afterEvents [.rd (uartAddr s.params .fr) fr]) ho hl.1
    rw [whenever_true, bind_ok h1, if_pos rfl]
    cases hx : testMask fr s.params.uartFrRxPending
    · simp
    · rw [hx, if_pos rfl] at hd
      rw [whenever_true, if_pos rfl]
      exact drainReads_ok (s := (s.afterEvents _).afterEvents _) ho hd

/-- The line-control step (R107, R108). -/
theorem applyLineControl_ok {u : UartUnit} {p : Option Parity} {w : Option WordLength} {st : Option StopBits} {l : Word}
    (hl : l = envAnswer s.env (uartAddr s.params .lcrh)) :
    applyLineControl u p w st s = .ok () { s.afterEvents [.rd (uartAddr s.params .lcrh) l,
      .wr (uartAddr s.params .lcrh) (lcrhApply s.params.lcrh l (withSettings u p w st).parity
        (withSettings u p w st).wordLength (withSettings u p w st).stopBits)] with uart := some (withSettings u p w st) } := by
  have hp := uartOpen_lcrh ho
  have hr := uartRead_answered (s := { s with uart := some (withSettings u p w st) }) (r := .lcrh) (by rw [hp]; decide) hl
  have hw (t : State) (v : Word) (ht : t.params = s.params) :
      regWrite (.uart .lcrh) v t = .ok () (t.afterEvents [.wr (uartAddr s.params .lcrh) v]) := by
    rw [← ht]; exact uartWrite_ok (by rw [ht, hp]; decide)
  rw [applyLineControl, getState_bind, putUart_bind]
  refine bind_eq hr ((hw _ _ (by rfl)).trans ?_)
  rw [afterEvents_append]; rfl

/-- The line-control step with every setting omitted: the unit is as it was (R108). -/
theorem applyLineControl_none_ok {u : UartUnit} {l : Word} (hu : s.uart = some u)
    (hl : l = envAnswer s.env (uartAddr s.params .lcrh)) :
    applyLineControl u none none none s = .ok () (s.afterEvents [.rd (uartAddr s.params .lcrh) l,
      .wr (uartAddr s.params .lcrh) (lcrhApply s.params.lcrh l u.parity u.wordLength u.stopBits)]) := by
  have h := applyLineControl_ok (p := none) (w := none) (st := none) (u := u) ho hl
  have hs : withSettings u none none none = u := rfl
  rw [hs] at h
  rw [h]
  exact congrArg _ (withUart_self (s := s.afterEvents _) hu)

/-- Transmitting units, each after a poll that finds room (R111). -/
theorem transmitAll_ok {u : UartUnit} {xs : List Byte} {frs : List Word} {k : Nat} (hu : s.uart = some u)
    (hn : frs.length = xs.length) (hf : ∀ w ∈ frs, w &&& s.params.uartFrTxff = 0#32)
    (ha : answeredBy s.env
      (transmitEvents s.params.uartTxPoll (uartAddr s.params .fr) (uartAddr s.params .dr) xs frs)) :
    transmitAll k xs s = .ok () { s.afterEvents
        (transmitEvents s.params.uartTxPoll (uartAddr s.params .fr) (uartAddr s.params .dr) xs frs) with
      uart := some { u with charsWritten := u.charsWritten + BitVec.ofNat 64 xs.length } } := by
  induction xs generalizing s u frs k with
  | nil => simp [transmitAll, transmitEvents, withUart_self hu]
  | cons x xs ih =>
    obtain ⟨f, frs, rfl⟩ := List.exists_cons_of_length_eq_add_one hn
    obtain ⟨ha1, ha2⟩ := (answeredBy_append _ _ _).1 ha
    have hpoll : pollTransmit k s = .ok () (s.afterEvents
        (if s.params.uartTxPoll then [.rd (uartAddr s.params .fr) f] else [])) := by
      cases hp : s.params.uartTxPoll
      · simp [pollTransmit, hp]
      · rw [hp] at ha1
        have hr := uartRead_answered (uartOpen_fr ho) ha1.1
        have ht : testMask f s.params.uartFrTxff = false := by simp [testMask, hf f (List.mem_cons_self ..)]
        simp only [List.headD_cons] at hr
        rw [pollTransmit, getState_bind, hp, whenever_true, bind_ok hr, ht]
        rfl
    have hdr := uartWrite_ok (v := x.setWidth 32) (r := .dr)
      (s := s.afterEvents (if s.params.uartTxPoll then [.rd (uartAddr s.params .fr) f] else []))
      ((uartOpen_dr ho).trans_ne (by decide))
    have ht : transmit k x s = .ok () (({ s with uart := some { u with charsWritten := u.charsWritten + 1 } } :
        State).afterEvents ((if s.params.uartTxPoll then [BusEvent.rd (uartAddr s.params .fr) f] else []) ++
          [BusEvent.wr (uartAddr s.params .dr) (x.setWidth 32)])) := by
      refine bind_eq hpoll (bind_eq hdr ((updateUart_apply _ _).trans ?_))
      simp only [afterEvents_uart, hu, Option.map_some, afterEvents_append, afterEvents_withUart, afterEvents_params]
    rw [transmitAll]
    refine bind_eq ht ((ih (u := { u with charsWritten := u.charsWritten + 1 }) (frs := frs)
      (s := ({ s with uart := _ } : State).afterEvents _) ho rfl (by simpa using hn)
      (fun w hw => hf w (List.mem_cons_of_mem _ hw)) ?_).trans ?_)
    · simpa [answeredBy, envRun_append, envRun] using ha2
    · have hc : u.charsWritten + 1 + BitVec.ofNat 64 xs.length = u.charsWritten + BitVec.ofNat 64 (xs.length + 1) := by
        rw [Nat.add_comm xs.length 1, BitVec.ofNat_add, ← BitVec.add_assoc]; rfl
      simp only [hc, afterEvents_append, transmitEvents, afterEvents_params, List.append_assoc, List.headD_cons,
        List.tail_cons, List.length_cons]
      rfl

omit ho in
/-- Transmitting a list of units is transmitting its parts (R117). -/
theorem transmitAll_append (k : Nat) (xs ys : List Byte) :
    transmitAll k (xs ++ ys) = (transmitAll k xs >>= fun _ => transmitAll (k + xs.length) ys) := by
  induction xs generalizing k with
  | nil => rfl
  | cons x xs ih => simp [transmitAll, ih, Nat.add_comm, Nat.add_assoc]

/-- Transmitting units up to one whose poll finds the FIFO full (R111, R167). -/
theorem transmitAll_full {u : UartUnit} {xs ys : List Byte} {frs : List Word} {full : Word} {k : Nat} (hu : s.uart = some u)
    (hp : s.params.uartTxPoll = true) (hy : ys ≠ []) (hn : frs.length = xs.length)
    (hf : ∀ w ∈ frs, w &&& s.params.uartFrTxff = 0#32) (hfull : full &&& s.params.uartFrTxff ≠ 0#32)
    (ha : answeredBy s.env (transmitEvents true (uartAddr s.params .fr) (uartAddr s.params .dr) xs frs ++
      [.rd (uartAddr s.params .fr) full])) :
    transmitAll k (xs ++ ys) s = .error .poll { s.afterEvents
        (transmitEvents true (uartAddr s.params .fr) (uartAddr s.params .dr) xs frs ++ [.rd (uartAddr s.params .fr) full]) with
      uart := some { u with charsWritten := u.charsWritten + BitVec.ofNat 64 xs.length }
      progress := .uartTx (k + xs.length) } := by
  obtain ⟨y, ys, rfl⟩ := List.exists_cons_of_ne_nil hy
  obtain ⟨ha, hw⟩ := (answeredBy_append _ _ _).1 ha
  rw [← hp] at ha hw
  have h1 := transmitAll_ok (k := k) ho hu hn hf ha
  have hr := uartRead_answered (s := { s.afterEvents (transmitEvents s.params.uartTxPoll (uartAddr s.params .fr)
      (uartAddr s.params .dr) xs frs) with
    uart := some { u with charsWritten := u.charsWritten + BitVec.ofNat 64 xs.length } }) (r := .fr) (w := full)
    (uartOpen_fr (s := s) ho) hw.1
  rw [transmitAll_append]
  refine bind_eq h1 (bind_error (bind_error ?_))
  rw [pollTransmit, getState_bind]
  simp only [afterEvents_params, hp, whenever_true] at hr ⊢
  refine bind_eq hr ?_
  simp [testMask, hfull, State.afterEvents, envRun_append]

end Uart

/-! ## I2C sub-steps -/

section I2c
variable {s : State} {u : I2cUnit} (ho : i2cOpen s.params) (hu : s.i2c = some u)

theorem i2cOpen_c (ho : i2cOpen s.params) : (s.params.i2c.desc .c).perm = .readWrite := ho.1
theorem i2cOpen_s (ho : i2cOpen s.params) : (s.params.i2c.desc .s).perm = .readWrite := ho.2.1
theorem i2cOpen_dlen (ho : i2cOpen s.params) : (s.params.i2c.desc .dlen).perm ≠ .readOnly := ho.2.2.1
theorem i2cOpen_a (ho : i2cOpen s.params) : (s.params.i2c.desc .a).perm ≠ .readOnly := ho.2.2.2.1
theorem i2cOpen_fifo (ho : i2cOpen s.params) : (s.params.i2c.desc .fifo).perm = .readWrite := ho.2.2.2.2.1
theorem i2cOpen_div (ho : i2cOpen s.params) : (s.params.i2c.desc .div).perm ≠ .readOnly := ho.2.2.2.2.2.1
theorem i2cOpen_clkt (ho : i2cOpen s.params) : (s.params.i2c.desc .clkt).perm ≠ .readOnly := ho.2.2.2.2.2.2

include ho in
/-- A read of the control register. -/
theorem readC_ok {c : Word} (hc : c = envAnswer s.env (i2cAddr s.params .c)) :
    regRead (.i2c .c) s = .ok c (s.afterEvents [.rd (i2cAddr s.params .c) c]) :=
  i2cRead_answered (by rw [i2cOpen_c ho]; decide) hc

include ho in
/-- A write of the control register. -/
theorem writeC_ok {v : Word} :
    regWrite (.i2c .c) v s = .ok () (s.afterEvents [.wr (i2cAddr s.params .c) v]) :=
  i2cWrite_ok (by rw [i2cOpen_c ho]; decide)

include ho hu in
/-- The direction step (R125). -/
theorem setDirection_ok {d : Direction} {c : Word} (hc : c = envAnswer s.env (i2cAddr s.params .c)) :
    setDirection d s = .ok () { s.afterEvents [.rd (i2cAddr s.params .c) c,
      .wr (i2cAddr s.params .c) (withDirection s.params.i2cCRead c d)] with
      i2c := some { u with transferDirection := d } } := by
  have h1 := readC_ok (s := { s with i2c := some { u with transferDirection := d } }) ho hc
  have h2 (v : Word) := writeC_ok (s := ({ s with i2c := some { u with transferDirection := d } } : State).afterEvents
    [.rd (i2cAddr s.params .c) c]) (v := v) ho
  rw [setDirection, getState_bind, updateI2c_bind, hu, Option.map_some, bind_ok h1]
  exact (h2 _).trans (by rw [afterEvents_append]; rfl)

include ho hu in
/-- The address step of a 7-bit address (R124). -/
theorem setAddress_ok {addr : Byte} (h7 : addr.getLsbD 7 = false) :
    setAddress addr s = .ok () { s.afterEvents [.wr (i2cAddr s.params .a) (addr.setWidth 32)] with
      i2c := some { u with slaveAddress := addr.setWidth 7 } } := by
  have h1 := i2cWrite_ok (s := { s with i2c := some { u with slaveAddress := addr.setWidth 7 } }) (r := .a)
    (v := addr.setWidth 32) (i2cOpen_a ho)
  rw [setAddress, h7, whenever_false, bind_ok (pure_apply () s), updateI2c_bind, hu, Option.map_some]
  exact h1

/-- The address step of an address with its eighth bit set (R124). -/
theorem setAddress_fatal {addr : Byte} (h7 : addr.getLsbD 7 = true) :
    setAddress addr s = .error (.fatal .i2cAddress) s := by
  rw [setAddress, h7]; rfl

include ho hu in
/-- The length step (R126). -/
theorem setLength_ok {n : BitVec 16} :
    setLength n s = .ok () { s.afterEvents [.wr (i2cAddr s.params .dlen) (n.setWidth 32)] with
      i2c := some { u with dataLength := n, fsm := .configured } } := by
  have h1 := i2cWrite_ok (s := { s with i2c := some { u with dataLength := n } }) (r := .dlen)
    (v := n.setWidth 32) (i2cOpen_dlen ho)
  rw [setLength, updateI2c_bind, hu, Option.map_some, bind_ok h1]
  rfl

include ho in
/-- The clear-FIFO step (R127). -/
theorem clearFifo_ok {c : Word} (hc : c = envAnswer s.env (i2cAddr s.params .c)) :
    clearFifo s = .ok () (s.afterEvents [.rd (i2cAddr s.params .c) c,
      .wr (i2cAddr s.params .c) (c ||| s.params.i2cCClearMask)]) := by
  have h2 (v : Word) := writeC_ok (s := s.afterEvents [.rd (i2cAddr s.params .c) c]) (v := v) ho
  rw [clearFifo, getState_bind, bind_ok (readC_ok ho hc)]
  exact (h2 _).trans (by rw [afterEvents_append]; rfl)

include ho in
/-- The clear-status step (R128). -/
theorem clearStatus_ok :
    clearStatus s = .ok () (s.afterEvents [.wr (i2cAddr s.params .s) s.params.i2cSClearMask]) := by
  rw [clearStatus, getState_bind]
  exact i2cWrite_ok (by rw [i2cOpen_s ho]; decide)

include ho hu in
/-- The start step with the enable bit set (R129). -/
theorem startTransfer_ok {c : Word} (hc : c = envAnswer s.env (i2cAddr s.params .c))
    (he : c &&& s.params.i2cCI2cen ≠ 0#32) :
    startTransfer s = .ok () { s.afterEvents (i2cStartEvents s.params c) with i2c := some { u with fsm := .transferring } } := by
  have h2 (v : Word) := writeC_ok (s := s.afterEvents [.rd (i2cAddr s.params .c) c]) (v := v) ho
  have ht : testMask c s.params.i2cCI2cen = true := by simp [testMask, he]
  rw [startTransfer, getState_bind, bind_ok (readC_ok ho hc), ht, Bool.not_true, whenever_false, bind_ok (pure_apply () _),
    bind_ok (h2 _), afterEvents_append]
  change EStateM.Result.ok _ _ = _
  simp only [State.afterEvents, hu, Option.map_some]
  rfl

include ho in
/-- The start step with the enable bit clear (R129): the read is made, the write is not. -/
theorem startTransfer_fatal {c : Word} (hc : c = envAnswer s.env (i2cAddr s.params .c))
    (he : c &&& s.params.i2cCI2cen = 0#32) :
    startTransfer s = .error (.fatal .i2cNotEnabled) (s.afterEvents [.rd (i2cAddr s.params .c) c]) := by
  have ht : testMask c s.params.i2cCI2cen = false := by simp [testMask, he]
  rw [startTransfer, getState_bind, bind_ok (readC_ok ho hc), ht]
  rfl

include ho in
/-- The bytes pushed into the FIFO register (R130). -/
theorem pushFifo_ok (bytes : List Byte) :
    pushFifo bytes s = .ok () (s.afterEvents (bytes.map fun b => .wr (i2cAddr s.params .fifo) (b.setWidth 32))) := by
  induction bytes generalizing s with
  | nil => simp [pushFifo]
  | cons b bytes ih =>
    have h1 := i2cWrite_ok (s := s) (r := .fifo) (v := b.setWidth 32) (by rw [i2cOpen_fifo ho]; decide)
    rw [pushFifo, bind_ok h1]
    refine (ih (s := s.afterEvents _) ho).trans ?_
    rw [afterEvents_append]; rfl

include ho hu in
/-- The steps before the data, shared by the two transfers (R125, R124, R126, R127). -/
theorem setup_ok {d : Direction} {addr : Byte} {n : BitVec 16} {c1 c2 : Word} (h7 : addr.getLsbD 7 = false)
    (ha : answeredBy s.env (i2cSetupEvents s.params d addr n c1 c2)) :
    (do setDirection d; setAddress addr; setLength n; clearFifo : Cmd Unit) s =
      .ok () { s.afterEvents (i2cSetupEvents s.params d addr n c1 c2) with i2c := some { u with
        transferDirection := d, slaveAddress := addr.setWidth 7, dataLength := n, fsm := .configured } } := by
  simp only [i2cSetupEvents, answeredBy] at ha
  let s1 : State := { s.afterEvents [.rd (i2cAddr s.params .c) c1,
    .wr (i2cAddr s.params .c) (withDirection s.params.i2cCRead c1 d)] with
    i2c := some { u with transferDirection := d } }
  let s2 : State := { s1.afterEvents [.wr (i2cAddr s.params .a) (addr.setWidth 32)] with
    i2c := some { u with transferDirection := d, slaveAddress := addr.setWidth 7 } }
  let s3 : State := { s2.afterEvents [.wr (i2cAddr s.params .dlen) (n.setWidth 32)] with
    i2c := some { u with transferDirection := d, slaveAddress := addr.setWidth 7, dataLength := n, fsm := .configured } }
  have h1 : setDirection d s = .ok () s1 := setDirection_ok ho hu ha.1
  have h2 : setAddress addr s1 = .ok () s2 := setAddress_ok (s := s1) ho rfl h7
  have h3 : setLength n s2 = .ok () s3 := setLength_ok (s := s2) ho rfl
  have h4 := clearFifo_ok (s := s3) (c := c2) ho ha.2.1
  refine bind_eq h1 (bind_eq h2 (bind_eq h3 (h4.trans ?_)))
  simp only [s1, s2, s3, State.afterEvents, List.append_assoc]
  rfl

include ho hu in
/-- `write_slave` (R130). -/
theorem writeSlave_ok {addr : Byte} {bytes : List Byte} {c1 c2 c3 : Word} (h7 : addr.getLsbD 7 = false)
    (he : c3 &&& s.params.i2cCI2cen ≠ 0#32) (ha : answeredBy s.env (writeSlaveEvents s.params addr bytes c1 c2 c3)) :
    writeSlave addr bytes s = .ok () { s.afterEvents (writeSlaveEvents s.params addr bytes c1 c2 c3) with
      i2c := some { u with
        transferDirection := .write, slaveAddress := addr.setWidth 7, dataLength := BitVec.ofNat 16 bytes.length,
        fsm := .transferring } } := by
  obtain ⟨ha, h3⟩ := (answeredBy_append _ _ _).1 ha
  obtain ⟨ha, -⟩ := (answeredBy_append _ _ _).1 ha
  obtain ⟨ha, -⟩ := (answeredBy_append _ _ _).1 ha
  have h1 := setup_ok ho hu h7 ha
  have h2 : writeSlave addr bytes =
      ((do setDirection .write; setAddress addr; setLength (BitVec.ofNat 16 bytes.length); clearFifo : Cmd Unit) >>=
        fun _ => do pushFifo bytes; clearStatus; startTransfer) := by
    simp only [writeSlave, bind_assoc]
  rw [h2]
  let s1 : State := { s.afterEvents (i2cSetupEvents s.params .write addr (BitVec.ofNat 16 bytes.length) c1 c2) with
    i2c := some { u with
      transferDirection := .write, slaveAddress := addr.setWidth 7, dataLength := BitVec.ofNat 16 bytes.length,
      fsm := .configured } }
  let s2 := s1.afterEvents (bytes.map fun b => .wr (i2cAddr s.params .fifo) (b.setWidth 32))
  let s3 := s2.afterEvents [.wr (i2cAddr s.params .s) s.params.i2cSClearMask]
  have h4 : pushFifo bytes s1 = .ok () s2 := pushFifo_ok (s := s1) ho bytes
  have h5 : clearStatus s2 = .ok () s3 := clearStatus_ok (s := s2) ho
  have h6 := startTransfer_ok (s := s3) (c := c3) ho rfl
    (by simpa [s1, s2, s3, State.afterEvents, envRun_append] using h3.1) he
  refine bind_eq h1 (bind_eq h4 (bind_eq h5 (h6.trans ?_)))
  simp only [s1, s2, s3, State.afterEvents, envRun_append, List.append_assoc, writeSlaveEvents]

include ho hu in
/-- Receiving bytes, each after a poll that finds one (R131). -/
theorem receiveAll_ok {got : Nat} {ws sts : List Word} (hn : sts.length = ws.length)
    (hs : ∀ w ∈ sts, w &&& s.params.i2cSRxd ≠ 0#32) (ha : answeredBy s.env (receiveEvents s.params ws sts)) :
    receiveAll got ws.length s = .ok () { s.afterEvents (receiveEvents s.params ws sts) with
      i2c := some { u with rxbuf := receivedInto u.rxbuf got ws } } := by
  induction ws generalizing s u sts got with
  | nil => simp [receiveAll, receiveEvents, receivedInto, withI2c_self hu]
  | cons w ws ih =>
    obtain ⟨f, sts, rfl⟩ := List.exists_cons_of_length_eq_add_one hn
    obtain ⟨ha1, ha2⟩ := (answeredBy_append _ _ _).1 ha
    have hpoll : pollReceive got s = .ok () (s.afterEvents
        (if s.params.i2cRxPoll then [.rd (i2cAddr s.params .s) f] else [])) := by
      cases hp : s.params.i2cRxPoll
      · simp [pollReceive, hp]
      · rw [hp] at ha1
        have hr := i2cRead_answered (r := .s) (by rw [i2cOpen_s ho]; decide) ha1.1
        have ht : testMask f s.params.i2cSRxd = true := by simp [testMask, hs f (List.mem_cons_self ..)]
        simp only [List.headD_cons] at hr
        rw [pollReceive, getState_bind, hp, whenever_true]
        refine bind_eq hr ?_
        rw [ht]; rfl
    have hrd := i2cRead_answered (r := .fifo) (w := w)
      (s := s.afterEvents (if s.params.i2cRxPoll then [.rd (i2cAddr s.params .s) f] else []))
      ((i2cOpen_fifo ho).trans_ne (by decide)) (by simpa using ha2.1)
    have ht : receiveByte got s = .ok () (({ s with i2c := some { u with rxbuf := u.rxbuf.set got (w.setWidth 8) } } :
        State).afterEvents ((if s.params.i2cRxPoll then [BusEvent.rd (i2cAddr s.params .s) f] else []) ++
          [BusEvent.rd (i2cAddr s.params .fifo) w])) := by
      refine bind_eq hpoll (bind_eq hrd ((updateI2c_apply _ _).trans ?_))
      simp only [afterEvents_i2c, hu, Option.map_some, afterEvents_append, afterEvents_withI2c, afterEvents_params]
    rw [List.length_cons, receiveAll]
    refine bind_eq ht ((ih (u := { u with rxbuf := u.rxbuf.set got (w.setWidth 8) }) (sts := sts)
      (s := ({ s with i2c := _ } : State).afterEvents _) ho rfl (by simpa using hn)
      (fun w hw => hs w (List.mem_cons_of_mem _ hw)) ?_).trans ?_)
    · simpa [answeredBy, envRun_append, envRun] using ha2.2
    · simp only [afterEvents_append, receiveEvents, afterEvents_params, List.append_assoc, List.headD_cons,
        List.tail_cons, receivedInto]
      rfl

/-- Receiving a number of bytes is receiving its parts (R131). -/
theorem receiveAll_add (got a b : Nat) :
    receiveAll got (a + b) = (receiveAll got a >>= fun _ => receiveAll (got + a) b) := by
  induction a generalizing got with
  | zero => simp [receiveAll]
  | succ a ih =>
    rw [Nat.succ_add, receiveAll, receiveAll, ih]
    simp [Nat.add_assoc, Nat.add_comm 1 a]

include ho hu in
/-- Receiving bytes up to one whose poll finds nothing (R131, R167). -/
theorem receiveAll_empty {got k : Nat} {ws sts : List Word} {empty : Word} (hp : s.params.i2cRxPoll = true)
    (hk : ws.length < k) (hn : sts.length = ws.length) (hs : ∀ w ∈ sts, w &&& s.params.i2cSRxd ≠ 0#32)
    (hz : empty &&& s.params.i2cSRxd = 0#32)
    (ha : answeredBy s.env (receiveEvents s.params ws sts ++ [.rd (i2cAddr s.params .s) empty])) :
    receiveAll got k s = .error .poll { s.afterEvents
        (receiveEvents s.params ws sts ++ [.rd (i2cAddr s.params .s) empty]) with
      i2c := some { u with rxbuf := receivedInto u.rxbuf got ws }
      progress := .i2cRx (got + ws.length) } := by
  obtain ⟨j, rfl⟩ := Nat.exists_eq_add_of_lt hk
  obtain ⟨ha, hw⟩ := (answeredBy_append _ _ _).1 ha
  have h1 := receiveAll_ok (got := got) ho hu hn hs ha
  have hr := i2cRead_answered (s := { s.afterEvents (receiveEvents s.params ws sts) with
    i2c := some { u with rxbuf := receivedInto u.rxbuf got ws } }) (r := .s) (w := empty)
    (by simp only [afterEvents_params]; rw [i2cOpen_s ho]; decide) hw.1
  rw [Nat.add_assoc, receiveAll_add]
  refine bind_eq h1 ?_
  rw [receiveAll]
  refine bind_error (bind_error ?_)
  rw [pollReceive, getState_bind]
  simp only [afterEvents_params, hp, whenever_true] at hr ⊢
  refine bind_eq hr ?_
  simp [testMask, hz, State.afterEvents, envRun_append]

end I2c

/-- What the buffer holds after a whole transfer into it (R131). -/
theorem receivedInto_eq (ws : List Word) (pre buf : List Byte) (h : ws.length ≤ buf.length) :
    receivedInto (pre ++ buf) pre.length ws = pre ++ ws.map (fun w => w.setWidth 8) ++ buf.drop ws.length := by
  induction ws generalizing pre buf with
  | nil => simp [receivedInto]
  | cons w ws ih =>
    obtain _ | ⟨b, buf⟩ := buf
    · simp at h
    · have := ih (pre ++ [w.setWidth 8]) buf (by simpa using h)
      simpa [receivedInto] using this

/-! ## Interrupt dispatch -/

/-- The state after a list of results of the command at `CP` (R22). -/
def State.withOuts (s : State) (vs : List OutValue) : State := { s with out := s.out ++ vs.map fun v => ⟨s.cp, v⟩ }

theorem withOuts_append (s : State) (xs ys : List OutValue) :
    (s.withOuts xs).withOuts ys = s.withOuts (xs ++ ys) := by
  simp [State.withOuts]

theorem withOuts_nil (s : State) : s.withOuts [] = s := by simp [State.withOuts]

theorem withOuts_afterEvents (s : State) (vs : List OutValue) (evs : List BusEvent) :
    (s.withOuts vs).afterEvents evs = (s.afterEvents evs).withOuts vs := rfl

/-- Results in order (R140). -/
theorem emitAll_ok (vs : List OutValue) (s : State) : emitAll vs s = .ok () (s.withOuts vs) := by
  induction vs generalizing s with
  | nil => simp [emitAll, withOuts_nil]
  | cons v vs ih =>
    rw [emitAll, emitOut_bind, ih]
    simp [State.withOuts, State.withOut]

end Sys2Proof.Machine
end

