-- ==== Sys2Proof/Machine/Assembler.lean ====
section
/-!
DEFINITION. Sys2Proof/Machine/Assembler.lean: the textual form of a command and the pseudo-instructions (R75, R87). It is a form of
writing; no step depends on it (log 20).
-/

namespace Sys2Proof.Machine

/-- An operand as the assembler writes it (R75): a number, a variant or register name, an omitted setting `-`, or a payload. -/
inductive AsmOperand where
  | num (n : Nat)
  | name (s : String)
  | omitted
  | bytes (bs : List Byte)
  deriving DecidableEq, Repr

/-- A line: the mnemonic and its operands in the order of R66. -/
structure AsmLine where
  mnemonic : String
  operands : List AsmOperand
  deriving DecidableEq, Repr

/-- Register names of R24. -/
def gpioRegName : GpioReg → String
  | .fsel0 => "FSEL0"
  | .fsel1 => "FSEL1"
  | .fsel2 => "FSEL2"
  | .fsel3 => "FSEL3"
  | .fsel4 => "FSEL4"
  | .fsel5 => "FSEL5"
  | .set0 => "SET0"
  | .set1 => "SET1"
  | .clr0 => "CLR0"
  | .clr1 => "CLR1"
  | .lev0 => "LEV0"
  | .lev1 => "LEV1"
  | .eds0 => "EDS0"
  | .eds1 => "EDS1"

/-- Register names of R30. -/
def uartRegName : UartReg → String
  | .dr => "DR"
  | .fr => "FR"
  | .ibrd => "IBRD"
  | .fbrd => "FBRD"
  | .lcrh => "LCRH"
  | .cr => "CR"

/-- Register names of R36. -/
def i2cRegName : I2cReg → String
  | .c => "C"
  | .s => "S"
  | .dlen => "DLEN"
  | .a => "A"
  | .fifo => "FIFO"
  | .div => "DIV"
  | .clkt => "CLKT"

/-- Block and register operands of REG_READ and REG_WRITE. -/
def regOperands : Reg → List AsmOperand
  | .gpio r => [.name "GPIO", .name (gpioRegName r)]
  | .uart r => [.name "UART", .name (uartRegName r)]
  | .i2c r => [.name "I2C", .name (i2cRegName r)]
  | .pend i => [.name "IRQ", .name ("PEND[" ++ toString i ++ "]")]
  | .secstat => [.name "IRQ", .name "SECSTAT"]

/-- Driver type names (R68). -/
def driverTypeName : DriverType → String
  | .uart => "UART"
  | .i2c => "I2C"

/-- Function names (R68). -/
def functionName : PinFunction → String
  | .input => "Input"
  | .output => "Output"
  | .alt0 => "Alt0"
  | .alt1 => "Alt1"
  | .alt2 => "Alt2"
  | .alt3 => "Alt3"
  | .alt4 => "Alt4"
  | .alt5 => "Alt5"

/-- Pull names (R68). -/
def pullName : Pull → String
  | .none => "None"
  | .up => "Up"
  | .down => "Down"

/-- Level names (R68). -/
def levelName : Level → String
  | .low => "Low"
  | .high => "High"

/-- Parity names (R68). -/
def parityName : Parity → String
  | .none => "None"
  | .odd => "Odd"
  | .even => "Even"

/-- Word lengths are written 5, 6, 7, 8 (R75). -/
def wordLengthNumber : WordLength → Nat
  | .five => 5
  | .six => 6
  | .seven => 7
  | .eight => 8

/-- Stop-bit names (R68). -/
def stopBitsName : StopBits → String
  | .one => "One"
  | .two => "Two"

/-- Direction names (R68). -/
def directionName : Direction → String
  | .write => "Write"
  | .read => "Read"

/-- A setting of UART_LINE_CTL; an omitted one is written `-` (R75). -/
def optionalOperand {α : Type} (f : α → AsmOperand) : Option α → AsmOperand
  | some x => f x
  | none => .omitted

/-- The line of a command (R66, R75). -/
def asmLine : Instr → AsmLine
  | .regRead r => ⟨"REG_READ", regOperands r⟩
  | .regWrite r v => ⟨"REG_WRITE", regOperands r ++ [.num v.toNat]⟩
  | .mgrRegister t => ⟨"MGR_REGISTER", [.name (driverTypeName t)]⟩
  | .mgrInitAll t => ⟨"MGR_INIT_ALL", [.name (driverTypeName t)]⟩
  | .consoleBind => ⟨"CONSOLE_BIND", []⟩
  | .gpioNew pin f pull level =>
    ⟨"GPIO_NEW", [.num pin.toNat, .name (functionName f), .name (pullName pull), .name (levelName level)]⟩
  | .gpioInit pin => ⟨"GPIO_INIT", [.num pin.toNat]⟩
  | .gpioSet pin => ⟨"GPIO_SET", [.num pin.toNat]⟩
  | .gpioClr pin => ⟨"GPIO_CLR", [.num pin.toNat]⟩
  | .gpioSample pin => ⟨"GPIO_SAMPLE", [.num pin.toNat]⟩
  | .gpioEdge pin => ⟨"GPIO_EDGE", [.num pin.toNat]⟩
  | .gpioRelease pin => ⟨"GPIO_RELEASE", [.num pin.toNat]⟩
  | .uartNew parity wlen stop baud =>
    ⟨"UART_NEW",
      [.name (parityName parity), .num (wordLengthNumber wlen), .name (stopBitsName stop), .num baud.toNat]⟩
  | .uartResolveClk => ⟨"UART_RESOLVE_CLK", []⟩
  | .uartBaudDiv target => ⟨"UART_BAUD_DIV", [.num target.toNat]⟩
  | .uartLineCtl parity wlen stop =>
    ⟨"UART_LINE_CTL",
      [optionalOperand (fun p => .name (parityName p)) parity, optionalOperand (fun w => .num (wordLengthNumber w)) wlen,
        optionalOperand (fun s => .name (stopBitsName s)) stop]⟩
  | .uartFlush => ⟨"UART_FLUSH", []⟩
  | .uartWriteChar byte => ⟨"UART_WRITE_CHAR", [.num byte.toNat]⟩
  | .uartWriteBytes bytes => ⟨"UART_WRITE_BYTES", [.bytes bytes]⟩
  | .uartInit => ⟨"UART_INIT", []⟩
  | .uartCharsWritten => ⟨"UART_CHARS_WRITTEN", []⟩
  | .uartReadBytes _ => ⟨"UART_READ_BYTES", []⟩
  | .uartRelease => ⟨"UART_RELEASE", []⟩
  | .i2cNew timeout clock => ⟨"I2C_NEW", [.num timeout.toNat, .num clock.toNat]⟩
  | .i2cSetDiv => ⟨"I2C_SET_DIV", []⟩
  | .i2cSetAddr addr => ⟨"I2C_SET_ADDR", [.num addr.toNat]⟩
  | .i2cSetDir dir => ⟨"I2C_SET_DIR", [.name (directionName dir)]⟩
  | .i2cWrite addr bytes => ⟨"I2C_WRITE", [.num addr.toNat, .bytes bytes]⟩
  | .i2cRead addr n => ⟨"I2C_READ", [.num addr.toNat, .num n.toNat]⟩
  | .i2cInit => ⟨"I2C_INIT", []⟩
  | .i2cRelease => ⟨"I2C_RELEASE", []⟩
  | .irqDispatch => ⟨"IRQ_DISPATCH", []⟩

/-- Text of an operand: numbers in decimal, a payload as a bracketed list of byte values (R75). -/
def operandText : AsmOperand → String
  | .num n => toString n
  | .name s => s
  | .omitted => "-"
  | .bytes bs => "[" ++ ", ".intercalate (bs.map fun b => toString b.toNat) ++ "]"

/-- Text of a line (R75). -/
def lineText (l : AsmLine) : String :=
  match l.operands with
  | [] => l.mnemonic
  | os => l.mnemonic ++ " " ++ ", ".intercalate (os.map operandText)

/-- The pseudo-instruction `UART_PUTS "text"`: each character one byte (R75). -/
def uartPuts (text : String) : Instr := .uartWriteBytes (text.toList.map fun c => BitVec.ofNat 8 c.toNat)

/-- A pin of `BRINGUP_PINS` (R87). -/
structure BringupPin where
  pin : Byte
  function : PinFunction
  pull : Pull
  level : Level
  deriving DecidableEq, Repr

/-- `BRINGUP_UART` (R87). -/
structure BringupUart where
  parity : Parity
  wlen : WordLength
  stop : StopBits
  baud : Word
  deriving DecidableEq, Repr

/-- `BRINGUP_I2C` (R87). -/
structure BringupI2c where
  timeout : BitVec 16
  clock : Word
  deriving DecidableEq, Repr

/-- The expansion of the pseudo-instruction `BRINGUP` (R87, R157). -/
def bringup (pins : List BringupPin) (u : BringupUart) (i : BringupI2c) : List Instr :=
  pins.flatMap (fun p => [.gpioNew p.pin p.function p.pull p.level, .gpioInit p.pin]) ++
    [.uartNew u.parity u.wlen u.stop u.baud, .mgrRegister .uart, .mgrInitAll .uart, .i2cNew i.timeout i.clock,
      .mgrRegister .i2c, .mgrInitAll .i2c, .consoleBind]

end Sys2Proof.Machine
end

