-- ==== Sys2Proof/Tests/Slice0.lean ====
section
/-!
SUPPORT. Sys2Proof/Tests/Slice0.lean: tests with the spec's own vectors (95_test_vectors.md and the examples of the rules), and for
each obligation with hypotheses a state that meets them. Every expected value is the spec's, but for the two addresses of
pending words, which the spec leaves OPEN (R135).
-/

namespace Sys2Proof.Tests

open Sys2Proof.Machine

/- Each kernel evaluation would otherwise hold a thread while it waits for the one before it. -/
set_option Elab.async false

/-! ## Helpers -/

/-- Reset, with the answers the environment will give. -/
def start (script : List Word) : State := { State.reset with env := .oracle script 0 }

/-- A live pin unit in its slot, not yet initialised. -/
def withPin (pin : Byte) (f : PinFunction) (level : Level) (s : State) : State :=
  s.setPin pin ⟨pin.setWidth 6, f, .none, level, .unconfigured⟩

/-- The UART unit of V-UART-30. -/
def uart9600 : UartUnit := ⟨.none, .eight, .one, 9600#32, 0#64, false⟩

/-- The I2C unit of V-I2C-1. -/
def i2c100k : I2cUnit := ⟨100000#32, 64#16, 0#7, .write, 0#16, .idle, List.replicate 16 0#8, false⟩

def uartStart (script : List Word) : State := { start script with uart := some uart9600 }

def i2cStart (script : List Word) : State := { start script with i2c := some i2c100k }

/-- UART live, clock resolved. -/
def clocked (hz : Word) : State := { uartStart [] with uclk := .resolved hz }

/-- The interrupt tables of the example of R140; the two addresses are the test's own. -/
def irqParams : Params := { Params.default with
  irqBanks := [⟨1, 0xFE00B204#32, .readOnly⟩, ⟨3, 0xFE00B20C#32, .readOnly⟩]
  irqKnown := [⟨1, 17, "gpio-bank0"⟩]
  irqFamilyBit := [⟨25, .uart⟩, ⟨21, .i2c⟩]
  irqSubvariant := [⟨.uart, [⟨0x00100000#32, "uart0"⟩, ⟨0x00080000#32, "uart2"⟩]⟩, ⟨.i2c, [⟨0x00000100#32, "i2c0"⟩]⟩] }

def irqStart (script : List Word) : State := { start script with params := irqParams }

/-- The bus events of a run that goes on. -/
def eventsOf (o : Host.Outcome State Fault Refusal) : Option (List BusEvent) :=
  match o with
  | .next t => some t.trace
  | .fault _ => none
  | .refused _ => none

/-- The results. -/
def outOf (o : Host.Outcome State Fault Refusal) : Option (List OutValue) :=
  match o with
  | .next t => some (t.out.map (·.value))
  | .fault _ => none
  | .refused _ => none

/-- `HALT` and `CP`. -/
def haltOf (o : Host.Outcome State Fault Refusal) : Option (Option FatalCode × Nat) :=
  match o with
  | .next t => some (t.halt.map (·.code), t.cp)
  | .fault _ => none
  | .refused _ => none

/-- A pin unit after the step. -/
def pinOf (pin : Byte) (o : Host.Outcome State Fault Refusal) : Option (Option PinUnit) :=
  match o with
  | .next t => some (t.pinSlot pin)
  | .fault _ => none
  | .refused _ => none

/-- The UART unit after the step. -/
def uartOf (o : Host.Outcome State Fault Refusal) : Option (Option UartUnit) :=
  match o with
  | .next t => some t.uart
  | .fault _ => none
  | .refused _ => none

/-- The I2C unit after the step. -/
def i2cOf (o : Host.Outcome State Fault Refusal) : Option (Option I2cUnit) :=
  match o with
  | .next t => some t.i2c
  | .fault _ => none
  | .refused _ => none

/-- Whether a run goes on. -/
def goesOn (o : Host.Outcome State Fault Refusal) : Bool :=
  match o with
  | .next _ => true
  | .fault _ => false
  | .refused _ => false

theorem next_of_goesOn {o : Host.Outcome State Fault Refusal} (h : goesOn o = true) : ∃ t, o = .next t := by
  cases o with
  | next t => exact ⟨t, rfl⟩
  | fault r => cases h
  | refused r => cases h

/-- `answeredBy`, as a test. -/
def answers (e : Env) : List BusEvent → Bool
  | [] => true
  | .rd a v :: evs => decide (v = envAnswer e a) && answers (envAfterRead e) evs
  | .wr a v :: evs => answers (envAfterWrite e a v) evs

theorem answeredBy_of_answers {e : Env} {evs : List BusEvent} (h : answers e evs = true) : answeredBy e evs := by
  induction evs generalizing e with
  | nil => trivial
  | cons ev evs ih =>
    cases ev with
    | rd a v =>
      simp only [answers, Bool.and_eq_true, decide_eq_true_eq] at h
      exact ⟨h.1, ih h.2⟩
    | wr a v => exact ih (e := envAfterWrite e a v) h

/-! ## Ill-formed commands -/

/-- No pending word with this index in the tables. -/
theorem test_wellFormed_refuses_pend : (Instr.regRead (.pend 1)).wellFormed .default = false := by decide
theorem test_wellFormed_refuses_pend_write : (Instr.regWrite (.pend 255) 0#32).wellFormed .default = false := by decide
/-- A register the table omits. -/
theorem test_wellFormed_refuses_omitted :
    (Instr.regRead (.gpio .eds1)).wellFormed { Params.default with gpio := { GpioTable.default with eds1 := none } } = false := by
  decide
/-- 65,536 bytes or more: no field `B` holds the length. -/
theorem test_wellFormed_refuses_long_uart (bytes : List Byte) (h : bytes.length = 65536) :
    (Instr.uartWriteBytes bytes).wellFormed .default = false := decide_eq_false (by omega)
theorem test_wellFormed_refuses_long_i2c (bytes : List Byte) (h : bytes.length = 65536) :
    (Instr.i2cWrite 0x50#8 bytes).wellFormed .default = false := decide_eq_false (by omega)

/-! ## Words and the commands they stand for -/

def decodesTo (ws : List CmdWord) (i : Instr) (len : Nat) : Prop := decode .default ws = .command i len

theorem test_decode_regRead : decodesTo [0x0100000A00000000#64] (.regRead (.gpio .lev0)) 1 := by
  unfold decodesTo; decide +kernel
theorem test_decode_regRead_secstat : decodesTo [0x010300FF00000000#64] (.regRead .secstat) 1 := by
  unfold decodesTo; decide +kernel
theorem test_decode_regRead_pend : decodesTo [0x0103000000000000#64] (.regRead (.pend 0)) 1 := by
  unfold decodesTo; decide +kernel
theorem test_decode_regWrite : decodesTo [0x0201000200000138#64] (.regWrite (.uart .ibrd) 312#32) 1 := by
  unfold decodesTo; decide +kernel
theorem test_decode_mgrRegister : decodesTo [0x1001000000000000#64] (.mgrRegister .i2c) 1 := by
  unfold decodesTo; decide +kernel
theorem test_decode_mgrInitAll : decodesTo [0x1101000000000000#64] (.mgrInitAll .i2c) 1 := by
  unfold decodesTo; decide +kernel
theorem test_decode_consoleBind : decodesTo [0x1200000000000000#64] .consoleBind 1 := by
  unfold decodesTo; decide +kernel
theorem test_decode_gpioNew : decodesTo [0x2009003700000000#64] (.gpioNew 9#8 .alt5 .down .high) 1 := by
  unfold decodesTo; decide +kernel
theorem test_decode_gpioInit : decodesTo [0x2139000000000000#64] (.gpioInit 57#8) 1 := by
  unfold decodesTo; decide +kernel
theorem test_decode_gpioSet : decodesTo [0x2220000000000000#64] (.gpioSet 32#8) 1 := by
  unfold decodesTo; decide +kernel
theorem test_decode_gpioClr : decodesTo [0x231F000000000000#64] (.gpioClr 31#8) 1 := by
  unfold decodesTo; decide +kernel
theorem test_decode_gpioSample : decodesTo [0x2421000000000000#64] (.gpioSample 33#8) 1 := by
  unfold decodesTo; decide +kernel
theorem test_decode_gpioEdge : decodesTo [0x250E000000000000#64] (.gpioEdge 14#8) 1 := by
  unfold decodesTo; decide +kernel
theorem test_decode_gpioRelease : decodesTo [0x2620000000000000#64] (.gpioRelease 32#8) 1 := by
  unfold decodesTo; decide +kernel
theorem test_decode_uartNew : decodesTo [0x301A00000001C200#64] (.uartNew .even .seven .two 115200#32) 1 := by
  unfold decodesTo; decide +kernel
theorem test_decode_uartResolveClk : decodesTo [0x3100000000000000#64] .uartResolveClk 1 := by
  unfold decodesTo; decide +kernel
theorem test_decode_uartBaudDiv : decodesTo [0x3200000000002580#64] (.uartBaudDiv 9600#32) 1 := by
  unfold decodesTo; decide +kernel
theorem test_decode_uartLineCtl : decodesTo [0x3302000100000000#64] (.uartLineCtl (some .even) none none) 1 := by
  unfold decodesTo; decide +kernel
theorem test_decode_uartLineCtl_all :
    decodesTo [0x3319000700000000#64] (.uartLineCtl (some .odd) (some .seven) (some .two)) 1 := by
  unfold decodesTo; decide +kernel
theorem test_decode_uartFlush : decodesTo [0x3400000000000000#64] .uartFlush 1 := by
  unfold decodesTo; decide +kernel
theorem test_decode_uartWriteChar : decodesTo [0x3541000000000000#64] (.uartWriteChar 0x41#8) 1 := by
  unfold decodesTo; decide +kernel
/-- V-ENC-19. -/
theorem test_decode_uartWriteBytes :
    decodesTo [0x3600000900000000#64, 0x3837363534333231#64, 0x0000000000000039#64] (uartPuts "123456789") 3 := by
  unfold decodesTo; decide +kernel
theorem test_decode_uartInit : decodesTo [0x3700000000000000#64] .uartInit 1 := by
  unfold decodesTo; decide +kernel
theorem test_decode_uartCharsWritten : decodesTo [0x3800000000000000#64] .uartCharsWritten 1 := by
  unfold decodesTo; decide +kernel
theorem test_decode_uartReadBytes : decodesTo [0x3900000000000000#64] (.uartReadBytes 0#56) 1 := by
  unfold decodesTo; decide +kernel
theorem test_decode_uartRelease : decodesTo [0x3A00000000000000#64] .uartRelease 1 := by
  unfold decodesTo; decide +kernel
theorem test_decode_i2cNew : decodesTo [0x40000040000186A0#64] (.i2cNew 64#16 100000#32) 1 := by
  unfold decodesTo; decide +kernel
theorem test_decode_i2cSetDiv : decodesTo [0x4100000000000000#64] .i2cSetDiv 1 := by
  unfold decodesTo; decide +kernel
theorem test_decode_i2cSetAddr : decodesTo [0x4280000000000000#64] (.i2cSetAddr 128#8) 1 := by
  unfold decodesTo; decide +kernel
theorem test_decode_i2cSetDir : decodesTo [0x4301000000000000#64] (.i2cSetDir .read) 1 := by
  unfold decodesTo; decide +kernel
theorem test_decode_i2cWrite :
    decodesTo [0x4450000200000000#64, 0x0000000000001000#64] (.i2cWrite 0x50#8 [0x00#8, 0x10#8]) 2 := by
  unfold decodesTo; decide +kernel
theorem test_decode_i2cRead : decodesTo [0x4550000200000000#64] (.i2cRead 0x50#8 2#16) 1 := by
  unfold decodesTo; decide +kernel
theorem test_decode_i2cInit : decodesTo [0x4600000000000000#64] .i2cInit 1 := by
  unfold decodesTo; decide +kernel
theorem test_decode_i2cRelease : decodesTo [0x4700000000000000#64] .i2cRelease 1 := by
  unfold decodesTo; decide +kernel
theorem test_decode_irqDispatch : decodesTo [0x5000000000000000#64] .irqDispatch 1 := by
  unfold decodesTo; decide +kernel

/-! ## Reserved words (V-ENC-1 to V-ENC-14) -/

theorem test_reserved_words :
    [[0x0000000000000000#64], [0x0300000000000000#64], [0x3900000000000000#64], [0x2105000100000000#64], [0x2005001800000000#64],
      [0x0104000000000000#64], [0x0100000E00000000#64], [0x3003000000002580#64], [0x5000000000000001#64],
      [0x4302000000000000#64], [0x1002000000000000#64], [0x3302000000000000#64], [0x3600000300000000#64],
      [0x3600000300000000#64, 0x00000001000A4B4F#64]].map (fun ws => (decode .default ws).isReserved) =
    List.replicate 14 true := by decide +kernel

/-- The reasons follow the items of R67. -/
theorem test_reserved_reasons :
    [[0x0300000000000000#64], [0x2105000100000000#64], [0x2005001800000000#64], [0x3302000000000000#64],
      [0x3600000300000000#64]].map (decode .default) =
    [.reserved .unknownOpcode, .reserved .nonzeroUnused, .reserved .badVariant, .reserved .absentValueGiven,
      .reserved .badPayload] := by decide +kernel

/-! ## The row's words and the fetch -/

theorem test_tableWord_regRead : decodeTableWord 64 0x0100000A00000000 = some (.regRead (.gpio .lev0)) := by decide +kernel
/-- The first word is the low half; payload bits the table does not give are 0. -/
theorem test_tableWord_payload :
    decodeTableWord 64 0x3600000900000000 = some (.uartWriteBytes (List.replicate 9 0#8)) := by decide +kernel
theorem test_fetchWord_runs :
    step (State.reset.withFetchWord 64 0x1101000000000000) = exec (.mgrInitAll .i2c) (State.reset.withFetchWord 64 0x1101000000000000) := by
  rfl

/-! ## Encodings written by the encoder -/

theorem test_encode_payload :
    encode (uartPuts "123456789") = [0x3600000900000000#64, 0x3837363534333231#64, 0x0000000000000039#64] := by decide +kernel
theorem test_encode_lineCtl : encode (.uartLineCtl none (some .five) none) = [0x3300000200000000#64] := by decide +kernel

/-! ## Register access (V-REG) -/

theorem test_regRead : eventsOf (exec (.regRead (.gpio .lev0)) (start [0x00004000#32])) = some [.rd 0xFE200034#32 0x00004000#32] := by
  decide +kernel
theorem test_regRead_writeOnly : haltOf (exec (.regRead (.gpio .clr1)) (start [])) = some (some .permissionViolation, 0) := by
  decide +kernel
theorem test_regWrite : eventsOf (exec (.regWrite (.uart .ibrd) 312#32) (start [])) = some [.wr 0xFE201024#32 0x00000138#32] := by
  decide +kernel
theorem test_regWrite_readOnly : haltOf (exec (.regWrite (.uart .fr) 0#32) (start [])) = some (some .permissionViolation, 0) := by
  decide +kernel

/-! ## Lifecycle (V-LCF) -/

theorem test_mgrRegister_absent : exec (.mgrRegister .uart) (start []) = .refused .noSuchUnit := by rfl
theorem test_mgrRegister : haltOf (exec (.mgrRegister .uart) (uartStart [])) = some (none, 1) := by decide +kernel
theorem test_mgrInitAll_empty : eventsOf (exec (.mgrInitAll .i2c) (start [])) = some [] := by decide +kernel
/-- The 14 events of the example of R132. -/
theorem test_mgrInitAll_i2c :
    eventsOf (exec (.mgrInitAll .i2c) { i2cStart [0#32, 0x8000#32, 0x8000#32, 0x8000#32] with mgrI2c := .registered }) = some
      [.rd 0xFE804000#32 0#32, .wr 0xFE804000#32 0x8000#32, .wr 0xFE804014#32 0x5DC#32, .wr 0xFE80401C#32 0x40#32,
       .rd 0xFE804000#32 0x8000#32, .wr 0xFE804000#32 0x8000#32, .wr 0xFE80400C#32 0x50#32, .wr 0xFE804008#32 1#32,
       .rd 0xFE804000#32 0x8000#32, .wr 0xFE804000#32 0x8010#32, .wr 0xFE804010#32 0#32, .wr 0xFE804004#32 0x302#32,
       .rd 0xFE804000#32 0x8000#32, .wr 0xFE804000#32 0x8080#32] := by decide +kernel
theorem test_consoleBind_absent : exec .consoleBind (start []) = .refused .noSuchUnit := by rfl
theorem test_consoleBind : haltOf (exec .consoleBind (uartStart [])) = some (none, 1) := by decide +kernel

/-! ## GPIO (S-1, S-2, V-GPIO) -/

theorem test_gpioNew :
    pinOf 14#8 (exec (.gpioNew 14#8 .alt0 .none .low) (start [])) = some (some ⟨14#6, .alt0, .none, .low, .unconfigured⟩) := by
  decide +kernel
theorem test_gpioNew_58 : haltOf (exec (.gpioNew 58#8 .input .none .low) (start [])) = some (some .invalidPin, 0) := by
  decide +kernel
theorem test_gpioInit_9 :
    eventsOf (exec (.gpioInit 9#8) (withPin 9#8 .alt5 .high (start [0xFFFFFFFF#32, 0x200#32]))) = some
      [.wr 0xFE20001C#32 0x200#32, .rd 0xFE200000#32 0xFFFFFFFF#32, .wr 0xFE200000#32 0xD7FFFFFF#32,
       .rd 0xFE200034#32 0x200#32] := by decide +kernel
theorem test_gpioInit_19 :
    eventsOf (exec (.gpioInit 19#8) (withPin 19#8 .alt3 .low (start [0x12345678#32, 0#32]))) = some
      [.wr 0xFE200028#32 0x00080000#32, .rd 0xFE200004#32 0x12345678#32, .wr 0xFE200004#32 0x3A345678#32,
       .rd 0xFE200034#32 0#32] := by decide +kernel
theorem test_gpioSet_31 :
    eventsOf (exec (.gpioSet 31#8) (withPin 31#8 .output .low (start []))) = some [.wr 0xFE20001C#32 0x80000000#32] := by
  decide +kernel
theorem test_gpioSet_32 :
    eventsOf (exec (.gpioSet 32#8) (withPin 32#8 .output .low (start []))) = some [.wr 0xFE200020#32 1#32] := by
  decide +kernel
theorem test_gpioClr_31 :
    eventsOf (exec (.gpioClr 31#8) (withPin 31#8 .output .low (start []))) = some [.wr 0xFE200028#32 0x80000000#32] := by
  decide +kernel
theorem test_gpioClr_57 :
    eventsOf (exec (.gpioClr 57#8) (withPin 57#8 .output .low (start []))) = some [.wr 0xFE20002C#32 0x02000000#32] := by
  decide +kernel
theorem test_gpioSample_high :
    outOf (exec (.gpioSample 33#8) (withPin 33#8 .input .low (start [2#32]))) = some [.bit true] := by decide +kernel
theorem test_gpioSample_low :
    pinOf 33#8 (exec (.gpioSample 33#8) (withPin 33#8 .input .high (start [1#32]))) =
      some (some ⟨33#6, .input, .none, .low, .unconfigured⟩) := by decide +kernel
theorem test_gpioEdge : outOf (exec (.gpioEdge 14#8) (withPin 14#8 .input .low (start [0x4000#32]))) = some [.bit true] := by
  decide +kernel
theorem test_gpioEdge_none :
    outOf (exec (.gpioEdge 32#8) (withPin 32#8 .input .low (start [0xFFFFFFFE#32]))) = some [.bit false] := by decide +kernel
theorem test_gpioRelease :
    eventsOf (exec (.gpioRelease 32#8) (withPin 32#8 .output .high (start []))) = some [.wr 0xFE20002C#32 1#32] := by
  decide +kernel
theorem test_gpioRelease_state :
    pinOf 32#8 (exec (.gpioRelease 32#8) (withPin 32#8 .output .high (start []))) =
      some (some ⟨32#6, .output, .none, .high, .released⟩) := by decide +kernel

/-! ## UART (S-3, S-4, V-UART) -/

theorem test_uartNew :
    uartOf (exec (.uartNew .none .eight .one 9600#32) (start [])) = some (some ⟨.none, .eight, .one, 9600#32, 0#64, false⟩) := by
  decide +kernel
theorem test_uartNew_live : exec (.uartNew .none .eight .one 9600#32) (uartStart []) = .refused .unitExists := by rfl
theorem test_uartResolveClk :
    (match exec .uartResolveClk (start []) with
      | .next t => decide (t.uclk = .resolved 48000000#32 ∧ t.diag = [.clockDefaulted])
      | .fault _ => false
      | .refused _ => false) = true := by decide +kernel
/-- V-UART-1, 2, 5, 10, 13, 15, 22, in this order. -/
theorem test_uartBaudDiv :
    [(48000000#32, 9600#32), (48000000#32, 115200#32), (48000000#32, 6000000#32), (48075599#32, 9600#32),
      (48000000#32, 12190476#32), (63000000#32, 16000000#32), (4294967295#32, 1#32)].map
        (fun v => outOf (exec (.uartBaudDiv v.2) (clocked v.1))) =
    [some [.divisor 312 32], some [.divisor 26 3], some [.divisor 0 32], some [.divisor 312 63], some [.divisor 0 16],
      some [.divisor 0 16], some [.divisor 268435455 60]] := by decide +kernel
/-- V-UART-6, 8, 9, 14, 17, 18, 19, in this order. -/
theorem test_uartBaudDiv_fatal :
    [(48000000#32, 12288000#32), (48076200#32, 9600#32), (48075600#32, 9600#32), (48000000#32, 12190477#32),
      (65000001#32, 16000000#32), (1#32, 48000000#32), (0#32, 9600#32)].map
        (fun v => haltOf (exec (.uartBaudDiv v.2) (clocked v.1))) =
    [some (some .baudUnattainable, 0), some (some .divisorOverflow, 0), some (some .divisorOverflow, 0),
      some (some .baudUnattainable, 0), some (some .baudUnattainable, 0), some (some .baudUnattainable, 0),
      some (some .baudUnattainable, 0)] := by decide +kernel
theorem test_uartLineCtl :
    eventsOf (exec (.uartLineCtl (some .odd) (some .seven) (some .two)) (uartStart [0xFFFFFFFF#32])) = some
      [.rd 0xFE20102C#32 0xFFFFFFFF#32, .wr 0xFE20102C#32 0xFFFFFFDB#32] := by decide +kernel
theorem test_uartLineCtl_unit :
    uartOf (exec (.uartLineCtl (some .even) none none) (uartStart [0x10#32])) =
      some (some ⟨.even, .eight, .one, 9600#32, 0#64, false⟩) := by decide +kernel
theorem test_uartFlush_tx :
    eventsOf (exec .uartFlush (uartStart [0x08#32, 0x70#32])) = some
      [.rd 0xFE201018#32 0x08#32, .rd 0xFE20102C#32 0x70#32, .wr 0xFE20102C#32 0x60#32, .wr 0xFE20102C#32 0x70#32] := by
  decide +kernel
/-- V-UART-40: 21 events. -/
theorem test_uartFlush_both :
    (eventsOf (exec .uartFlush (uartStart ([0x48#32, 0x60#32] ++ List.replicate 17 7#32)))).map List.length = some 21 := by
  decide +kernel
theorem test_uartWriteChar_newline :
    eventsOf (exec (.uartWriteChar 0x0A#8) (uartStart [0x90#32, 0x90#32])) = some
      [.rd 0xFE201018#32 0x90#32, .wr 0xFE201000#32 0x0D#32, .rd 0xFE201018#32 0x90#32, .wr 0xFE201000#32 0x0A#32] := by
  decide +kernel
/-- P7: the full FIFO: one more poll read, and the command stays at `CP`. -/
theorem test_uartWriteChar_full :
    haltOf (exec (.uartWriteChar 0x41#8) (uartStart [0x20#32])) = some (none, 0) := by decide +kernel
theorem test_uartWriteBytes :
    eventsOf (exec (.uartWriteBytes [0x0D#8, 0x0A#8]) (uartStart [0x90#32, 0x90#32, 0x90#32])) = some
      [.rd 0xFE201018#32 0x90#32, .wr 0xFE201000#32 0x0D#32, .rd 0xFE201018#32 0x90#32, .wr 0xFE201000#32 0x0D#32,
       .rd 0xFE201018#32 0x90#32, .wr 0xFE201000#32 0x0A#32] := by decide +kernel
theorem test_uartWriteBytes_empty : haltOf (exec (.uartWriteBytes []) (uartStart [])) = some (none, 1) := by decide +kernel
/-- S-8. -/
theorem test_uartInit :
    eventsOf (exec .uartInit (uartStart [0x90#32, 0#32])) = some
      [.wr 0xFE201030#32 0x301#32, .wr 0xFE201024#32 0x138#32, .wr 0xFE201028#32 0x20#32, .rd 0xFE201018#32 0x90#32,
       .rd 0xFE20102C#32 0#32, .wr 0xFE20102C#32 0x60#32] := by decide +kernel
/-- P5. -/
theorem test_uartInit_overflow :
    eventsOf (exec .uartInit { uartStart [] with clkFact := some 48076200#32 }) = some [.wr 0xFE201030#32 0x301#32] := by
  decide +kernel
theorem test_uartCharsWritten :
    outOf (exec .uartCharsWritten { start [] with uart := some { uart9600 with charsWritten := 3#64 } }) = some [.count 3#64] := by
  decide +kernel
theorem test_uartReadBytes : exec (.uartReadBytes 0#56) (uartStart []) = .refused .reservedEncoding := by rfl
theorem test_uartRelease :
    uartOf (exec .uartRelease (uartStart [])) = some (some { uart9600 with released := true }) := by decide +kernel

/-! ## I2C (S-5, V-I2C) -/

/-- R123: a quotient above 32 bits is written modulo 2^32. -/
theorem test_i2cDivisor_wraps : i2cDivisor (2 ^ 33 + 5) 1 = 5#32 := by decide

theorem test_i2cNew : i2cOf (exec (.i2cNew 64#16 100000#32) (start [])) = some (some i2c100k) := by decide +kernel
theorem test_i2cNew_live : exec (.i2cNew 64#16 100000#32) (i2cStart []) = .refused .unitExists := by rfl
theorem test_i2cSetDiv : eventsOf (exec .i2cSetDiv (i2cStart [])) = some [.wr 0xFE804014#32 0x5DC#32] := by decide +kernel
theorem test_i2cSetDiv_fast :
    eventsOf (exec .i2cSetDiv { start [] with i2c := some { i2c100k with clockRateHz := 200000000#32 } }) =
      some [.wr 0xFE804014#32 0#32] := by decide +kernel
theorem test_i2cSetAddr : eventsOf (exec (.i2cSetAddr 127#8) (i2cStart [])) = some [.wr 0xFE80400C#32 0x7F#32] := by decide +kernel
theorem test_i2cSetAddr_128 : haltOf (exec (.i2cSetAddr 128#8) (i2cStart [])) = some (some .i2cAddress, 0) := by decide +kernel
theorem test_i2cSetDir :
    eventsOf (exec (.i2cSetDir .read) (i2cStart [0x8000#32])) = some [.rd 0xFE804000#32 0x8000#32, .wr 0xFE804000#32 0x8001#32] := by
  decide +kernel
theorem test_i2cSetDir_write :
    eventsOf (exec (.i2cSetDir .write) (i2cStart [0x8001#32])) =
      some [.rd 0xFE804000#32 0x8001#32, .wr 0xFE804000#32 0x8000#32] := by decide +kernel
/-- V-I2C-13. -/
theorem test_i2cWrite_notEnabled :
    eventsOf (exec (.i2cWrite 0x68#8 [0x6B#8, 0x00#8, 0x01#8]) (i2cStart [0#32, 0#32, 0#32])) = some
      [.rd 0xFE804000#32 0#32, .wr 0xFE804000#32 0#32, .wr 0xFE80400C#32 0x68#32, .wr 0xFE804008#32 3#32,
       .rd 0xFE804000#32 0#32, .wr 0xFE804000#32 0x10#32, .wr 0xFE804010#32 0x6B#32, .wr 0xFE804010#32 0#32,
       .wr 0xFE804010#32 1#32, .wr 0xFE804004#32 0x302#32, .rd 0xFE804000#32 0#32] := by decide +kernel
/-- V-I2C-10. -/
theorem test_i2cWrite_unit :
    i2cOf (exec (.i2cWrite 0x50#8 [0x00#8, 0x10#8]) (i2cStart [0x8000#32, 0x8000#32, 0x8000#32])) =
      some (some { i2c100k with slaveAddress := 0x50#7, dataLength := 2#16 }) := by decide +kernel
/-- V-I2C-14, with a poll that finds data at once. -/
theorem test_i2cRead :
    outOf (exec (.i2cRead 0x50#8 2#16)
      (i2cStart [0x8000#32, 0x8001#32, 0x8001#32, 0x21#32, 0xAB#32, 0x22#32, 0xCD#32])) = some [.bytes [0xAB#8, 0xCD#8]] := by
  decide +kernel
/-- V-I2C-15. -/
theorem test_i2cRead_zero :
    eventsOf (exec (.i2cRead 0x50#8 0#16) (i2cStart [0x8000#32, 0x8000#32, 0x8000#32])) = some
      [.rd 0xFE804000#32 0x8000#32, .wr 0xFE804000#32 0x8001#32, .wr 0xFE80400C#32 0x50#32, .wr 0xFE804008#32 0#32,
       .rd 0xFE804000#32 0x8000#32, .wr 0xFE804000#32 0x8010#32, .rd 0xFE804000#32 0x8000#32, .wr 0xFE804000#32 0x8080#32] := by
  decide +kernel
/-- V-I2C-19: the fatal condition after 13 events. -/
theorem test_i2cInit_notEnabled :
    haltOf (exec .i2cInit (i2cStart [0#32, 0#32, 0#32, 0#32])) = some (some .i2cNotEnabled, 0) := by decide +kernel
theorem test_i2cInit_events :
    (eventsOf (exec .i2cInit (i2cStart [0#32, 0#32, 0#32, 0#32]))).map List.length = some 13 := by decide +kernel
theorem test_i2cRelease : i2cOf (exec .i2cRelease (i2cStart [])) = some (some { i2c100k with released := true }) := by
  decide +kernel

/-! ## Interrupt dispatch (V-IRQ) -/

/-- V-IRQ-2, the example of R140. -/
theorem test_irqDispatch :
    outOf (exec .irqDispatch (irqStart [0x00020001#32, 0x02200000#32, 0x00000100#32, 0x00180000#32])) = some
      [.irq 1 17 (.known "gpio-bank0"), .irq 3 21 (.family .i2c "i2c0"), .irq 3 25 (.family .uart "uart0"),
       .irq 3 25 (.family .uart "uart2")] := by decide +kernel
/-- V-IRQ-3: nothing matches, no status read. -/
theorem test_irqDispatch_unmatched :
    eventsOf (exec .irqDispatch (irqStart [0xFFFDFFFF#32, 1#32])) = some
      [.rd 0xFE00B204#32 0xFFFDFFFF#32, .rd 0xFE00B20C#32 1#32] := by decide +kernel

/-! ## States that meet the hypotheses of the obligations

One theorem for each obligation with hypotheses, named after it; where the clauses exclude each other, one state for each. -/

/-- The default permissions are open to every command. -/
theorem uartOpen_default : uartOpen Params.default := by unfold uartOpen; decide
theorem i2cOpen_default : i2cOpen Params.default := by unfold i2cOpen; decide

/-- A property of each word of a list, word by word. -/
theorem each_of_all {l : List Word} {p : Word → Prop} [DecidablePred p] (h : l.all (fun w => decide (p w)) = true) :
    ∀ w ∈ l, p w := by simpa using h

theorem witness_DecodeOfEncode :
    (Instr.regRead (.pend 0)).wellFormed .default = true ∧ (Instr.uartWriteBytes [0x0A#8]).wellFormed .default = true := by
  decide

theorem witness_EncodeOfDecode : decode .default [0x4450000200000000#64, 0x1000#64] = .command (.i2cWrite 0x50#8 [0x00#8, 0x10#8]) 2 := by
  decide +kernel

/-- Opcodes `0x00`, `0x03`, `0x51`, `0xFF`; opcode `0x39`; a payload of 9 bytes with one word. -/
theorem witness_ReservedWords :
    [0x0000000000000000#64, 0x0300000000000000#64, 0x5100000000000000#64, 0xFF00000000000000#64].map opField =
      [0x00#8, 0x03#8, 0x51#8, 0xFF#8] ∧
    opField 0x3900000000000000#64 = 0x39#8 ∧
    opField 0x3600000900000000#64 = 0x36#8 ∧ 8 * [0#64].length < (bField 0x3600000900000000#64).toNat := by decide

/-- Halted; at the end of the stream; a command at `CP`; a reserved word at `CP`. -/
theorem witness_StepRunsTheDecodedCommand :
    (takeFatal .invalidPin (start [])).halt = some ⟨.invalidPin, 0⟩ ∧
    ((start []).halt = none ∧ (start []).stream.length ≤ (start []).cp) ∧
    decode Params.default [0x3400000000000000#64] = .command .uartFlush 1 ∧
    decode Params.default [0x3400000000000001#64] = .reserved .nonzeroUnused := by
  refine ⟨rfl, ⟨rfl, Nat.le_refl _⟩, ?_, ?_⟩ <;> decide +kernel

theorem witness_RegReadPrimitive :
    [Reg.gpio .lev0, .uart .fr, .i2c .clkt, .pend 0, .secstat].map (portOf irqParams) =
      [some ⟨0xFE200034#32, .readOnly⟩, some ⟨0xFE201018#32, .readOnly⟩, some ⟨0xFE80401C#32, .readWrite⟩,
        some ⟨0xFE00B204#32, .readOnly⟩, some ⟨0xFE204E00#32, .readOnly⟩] := by decide +kernel

theorem witness_RegWritePrimitive :
    [Reg.gpio .set1, .uart .dr, .i2c .c].map (portOf Params.default) =
      [some ⟨0xFE200020#32, .writeOnly⟩, some ⟨0xFE201000#32, .readWrite⟩, some ⟨0xFE804000#32, .readWrite⟩] := by decide +kernel

theorem witness_RawAccessCompletes :
    (start []).params.hasReg (.uart .lcrh) = true ∧ (start []).readableAt (.uart .lcrh) 0xFE20102C#32 ∧
    (start []).writableAt (.uart .lcrh) 0xFE20102C#32 :=
  ⟨rfl, ⟨.readWrite, rfl, by decide⟩, ⟨.readWrite, rfl, by decide⟩⟩

theorem witness_RawAccessViolation :
    Params.default.hasReg (.gpio .clr1) = true ∧ portOf Params.default (.gpio .clr1) = some ⟨0xFE20002C#32, .writeOnly⟩ ∧
    Params.default.hasReg (.uart .fr) = true ∧ portOf Params.default (.uart .fr) = some ⟨0xFE201018#32, .readOnly⟩ := by
  decide +kernel

/-- A reset machine over the store of R54. -/
def stored (m : Memory) : State := { State.reset with env := .backingStore m }

theorem witness_BackingStorePersists :
    (stored []).params.hasReg (.uart .lcrh) = true ∧
    portOf (stored []).params (.uart .lcrh) = some ⟨0xFE20102C#32, .readWrite⟩ ∧ (stored []).env = .backingStore [] ∧
    memoryWf [] = true ∧ ∃ t, exec (.regWrite (.uart .lcrh) 0x70#32) (stored []) = .next t :=
  ⟨rfl, rfl, rfl, rfl, next_of_goesOn (by decide +kernel)⟩

theorem witness_AbsentUnitIsRefused :
    guardPasses (.gpioSet 58#8) (start []) = false ∧ guardPasses .uartFlush (start []) = false ∧
    guardPasses .i2cInit { start [] with i2c := some { i2c100k with released := true } } = false ∧
    guardPasses (.mgrInitAll .uart) { start [] with mgrUart := .registered } = false := by decide +kernel

theorem witness_RegisterAndBindComplete :
    (uartStart []).liveUart = some uart9600 ∧ (i2cStart []).liveI2c = some i2c100k := ⟨rfl, rfl⟩

theorem witness_InitAllFollowsTheManager :
    (start []).mgrUart = .empty ∧ (start []).mgrI2c = .empty ∧ { start [] with mgrUart := .registered }.mgrUart = .registered ∧
    { start [] with mgrI2c := .registered }.mgrI2c = .registered := ⟨rfl, rfl, rfl, rfl⟩

/-- The first and the last pin; two pins of one bank. -/
theorem witness_FunctionSelectBanking :
    (0#8 : Byte).toNat < 58 ∧ (57#8 : Byte).toNat < 58 ∧ fselReg 50#8 = fselReg 57#8 ∧ (50#8 : Byte) ≠ 57#8 := by decide

/-- The pins at the ends of both banks. -/
theorem witness_LowAndHighBanks :
    (0#8 : Byte).toNat < 58 ∧ (31#8 : Byte).toNat < 32 ∧ 32 ≤ (32#8 : Byte).toNat ∧ (57#8 : Byte).toNat < 58 := by decide

theorem witness_GpioNewResult :
    ((57#8 : Byte).toNat < 58 ∧ (start []).livePin 57#8 = none) ∧ 58 ≤ (58#8 : Byte).toNat ∧
    (withPin 57#8 .output .low (start [])).livePin 57#8 = some ⟨57#6, .output, .none, .low, .unconfigured⟩ := by decide +kernel

theorem witness_GpioInitCompletes :
    let s := withPin 57#8 .output .low (start [0x00E00000#32, 0#32])
    s.livePin 57#8 = some ⟨57#6, .output, .none, .low, .unconfigured⟩ ∧
    s.writableAt (bankReg (assertKind .low) 57#8) 0xFE20002C#32 ∧ s.readableAt (fselReg 57#8) 0xFE200014#32 ∧
    s.writableAt (fselReg 57#8) 0xFE200014#32 ∧ s.readableAt (bankReg .lev 57#8) 0xFE200038#32 ∧
    answeredBy s.env [.wr 0xFE20002C#32 (bankMask 57#8), .rd 0xFE200014#32 0x00E00000#32, .wr 0xFE200014#32 0x00200000#32,
      .rd 0xFE200038#32 0#32] := by
  refine ⟨by decide +kernel, ⟨.writeOnly, by decide +kernel, by decide⟩, ⟨.readWrite, by decide +kernel, by decide⟩,
    ⟨.readWrite, by decide +kernel, by decide⟩, ⟨.readOnly, by decide +kernel, by decide⟩,
    answeredBy_of_answers (by decide +kernel)⟩

theorem witness_FunctionFieldOnly : (57#8 : Byte).toNat < 58 ∧ 20 < fselShift 57#8 ∧ fselShift 57#8 + 3 ≤ 24 := by decide

theorem witness_GpioPulsesComplete :
    let s := withPin 31#8 .output .low (start [])
    s.livePin 31#8 = some ⟨31#6, .output, .none, .low, .unconfigured⟩ ∧ s.writableAt (bankReg .set 31#8) 0xFE20001C#32 ∧
    s.writableAt (bankReg .clr 31#8) 0xFE200028#32 :=
  ⟨by decide +kernel, ⟨.writeOnly, by decide +kernel, by decide⟩, ⟨.writeOnly, by decide +kernel, by decide⟩⟩

theorem witness_GpioTestsComplete :
    let s := withPin 32#8 .input .low (start [1#32])
    s.livePin 32#8 = some ⟨32#6, .input, .none, .low, .unconfigured⟩ ∧ s.readableAt (bankReg .lev 32#8) 0xFE200038#32 ∧
    s.readableAt (bankReg .eds 32#8) 0xFE200044#32 :=
  ⟨by decide +kernel, ⟨.readOnly, by decide +kernel, by decide⟩, ⟨.readWrite, by decide +kernel, by decide⟩⟩

/-- Tables without the high registers of each kind and without the last function-select register (R98). -/
def sparse : Params := { Params.default with
  gpio := { GpioTable.default with set1 := none, clr1 := none, lev1 := none, eds1 := none, fsel5 := none } }

theorem witness_UnmappedGpioRegister :
    let s := withPin 57#8 .output .low { start [] with params := sparse }
    s.livePin 57#8 = some ⟨57#6, .output, .none, .low, .unconfigured⟩ ∧
    [bankReg .set 57#8, bankReg .clr 57#8, bankReg .lev 57#8, bankReg .eds 57#8, fselReg 57#8].map (portOf s.params) =
      [none, none, none, none, none] ∧
    (withPin 57#8 .output .low (start [])).params.gpio = .default := by decide +kernel

theorem witness_UnitConstruction :
    (start []).liveUart = none ∧ (start []).liveI2c = none ∧ (uartStart []).liveUart = some uart9600 ∧
    (i2cStart []).liveI2c = some i2c100k := ⟨rfl, rfl, rfl, rfl⟩

theorem witness_ClockResolution :
    (clocked 3000000#32).uclk = .resolved 3000000#32 ∧
    ({ start [] with clkFact := some 3000000#32 }.uclk = .unresolved ∧
      { start [] with clkFact := some 3000000#32 }.clkFact = some 3000000#32) ∧
    ((start []).uclk = .unresolved ∧ (start []).clkFact = none) := ⟨rfl, ⟨rfl, rfl⟩, rfl, rfl⟩

/-- V-UART-15: the bound of R104 met exactly. -/
theorem witness_BaudDivCompletes :
    (clocked 63000000#32).liveUart = some uart9600 ∧ (clocked 63000000#32).uclk = .resolved 63000000#32 ∧
    (16000000#32 : Word) ≠ 0#32 ∧
    (let d := 16 * (16000000#32 : Word).toNat
     let fbrd := (128 * ((63000000#32 : Word).toNat % d) + d) / (2 * d)
     let n := 64 * ((63000000#32 : Word).toNat / d) + fbrd
     fbrd ≤ 63 ∧ n ≠ 0 ∧
       64 * ((4 * (63000000#32 : Word).toNat : Int) - (16000000#32 : Word).toNat * n).natAbs ≤ (16000000#32 : Word).toNat * n) :=
  ⟨rfl, rfl, by decide, by decide +kernel⟩

/-- Unresolved; target 0; V-UART-9 (fraction 64); V-UART-17 (just outside the bound); V-UART-18 (divisor 0). -/
theorem witness_BaudDivStops :
    ((uartStart []).liveUart = some uart9600 ∧ (uartStart []).uclk = .unresolved) ∧
    baudFraction 48075600 9600 = 64 ∧
    (let n := baudSixtyFourths 65000001 16000000
     baudFraction 65000001 16000000 ≤ 63 ∧ 16000000 * n < 64 * ((4 * 65000001 : Int) - 16000000 * n).natAbs) ∧
    (baudFraction 1 48000000 ≤ 63 ∧ baudSixtyFourths 1 48000000 = 0) := ⟨⟨rfl, rfl⟩, by decide +kernel⟩

/-- A divisor of exactly 32 64ths (V-UART-5), and an integer part of exactly 1 (V-UART-4). -/
theorem witness_LargeDivisorsAreAccurate :
    (baudFraction 48000000 6000000 ≤ 63 ∧ baudSixtyFourths 48000000 6000000 = 32) ∧
    (baudFraction 48000000 3000000 ≤ 63 ∧ baudInteger 48000000 3000000 = 1) := by decide +kernel

theorem witness_LineCtlCompletes :
    (uartStart [0x10#32]).liveUart = some uart9600 ∧ (uartStart [0x10#32]).readableAt (.uart .lcrh) 0xFE20102C#32 ∧
    (uartStart [0x10#32]).writableAt (.uart .lcrh) 0xFE20102C#32 :=
  ⟨rfl, ⟨.readWrite, rfl, by decide⟩, ⟨.readWrite, rfl, by decide⟩⟩

/-- V-UART-40: both halves of flush. -/
theorem witness_FlushCompletes :
    let s := uartStart ([0x48#32, 0x60#32] ++ List.replicate 17 7#32)
    s.liveUart = some uart9600 ∧ uartOpen s.params ∧ (List.replicate 17 7#32 : List Word).length = s.params.uartFifoDepth + 1 ∧
    answeredBy s.env (flushEvents s.params (uartAddr s.params .fr) (uartAddr s.params .lcrh) (uartAddr s.params .dr) 0x48#32
      0x60#32 (List.replicate 17 7#32)) :=
  ⟨rfl, uartOpen_default, rfl, answeredBy_of_answers (by decide +kernel)⟩

/-- V-UART-43 from its first unit, and resumed at its second. -/
theorem witness_TransmitCompletes :
    let s := uartStart [0x90#32, 0x90#32]
    let s' := { uartStart [0x90#32] with progress := .uartTx 1 }
    (s.liveUart = some uart9600 ∧ uartOpen s.params ∧
      [0x0D#8, 0x0A#8] = (if (0x0A#8 : Byte) = 0x0A#8 then [0x0D#8, 0x0A#8] else [0x0A#8]).drop (unitsSent s) ∧
      (∀ w ∈ [0x90#32, 0x90#32], w &&& s.params.uartFrTxff = 0#32) ∧
      answeredBy s.env (transmitEvents s.params.uartTxPoll (uartAddr s.params .fr) (uartAddr s.params .dr) [0x0D#8, 0x0A#8]
        [0x90#32, 0x90#32])) ∧
    ([0x0A#8] = ([0x0A#8].flatMap fun b : Byte => if b = 0x0A#8 then [0x0D#8, 0x0A#8] else [b]).drop (unitsSent s') ∧
      answeredBy s'.env (transmitEvents s'.params.uartTxPoll (uartAddr s'.params .fr) (uartAddr s'.params .dr) [0x0A#8]
        [0x90#32])) :=
  ⟨⟨rfl, uartOpen_default, by decide +kernel, each_of_all (by decide +kernel), answeredBy_of_answers (by decide +kernel)⟩,
    by decide +kernel, answeredBy_of_answers (by decide +kernel)⟩

/-- The first poll full; one unit sent, then the FIFO full; the last of two units left from an earlier step. -/
theorem witness_TransmitWaits :
    let s := uartStart [0x20#32]
    let s2 := uartStart [0x90#32, 0x20#32]
    let s3 := { uartStart [0x20#32] with progress := .uartTx 1 }
    let evs (p : Params) (sent : List Byte) (frs : List Word) :=
      transmitEvents true (uartAddr p .fr) (uartAddr p .dr) sent frs ++ [.rd (uartAddr p .fr) 0x20#32]
    (s.liveUart = some uart9600 ∧ uartOpen s.params ∧ s.params.uartTxPoll = true ∧ 0x20#32 &&& s.params.uartFrTxff ≠ 0#32 ∧
      answeredBy s.env (evs s.params [] []) ∧
      [] ++ [0x41#8] = (if (0x41#8 : Byte) = 0x0A#8 then [0x0D#8, 0x0A#8] else [0x41#8]).drop (unitsSent s)) ∧
    ((∀ w ∈ [0x90#32], w &&& s2.params.uartFrTxff = 0#32) ∧ answeredBy s2.env (evs s2.params [0x0D#8] [0x90#32]) ∧
      [0x0D#8] ++ [0x0A#8] = (if (0x0A#8 : Byte) = 0x0A#8 then [0x0D#8, 0x0A#8] else [0x0A#8]).drop (unitsSent s2)) ∧
    (answeredBy s3.env (evs s3.params [] []) ∧
      [] ++ [0x42#8] =
        ([0x41#8, 0x42#8].flatMap fun b : Byte => if b = 0x0A#8 then [0x0D#8, 0x0A#8] else [b]).drop (unitsSent s3)) :=
  ⟨⟨rfl, uartOpen_default, rfl, by decide +kernel, answeredBy_of_answers (by decide +kernel), by decide +kernel⟩,
    ⟨each_of_all (by decide +kernel), answeredBy_of_answers (by decide +kernel), by decide +kernel⟩,
    answeredBy_of_answers (by decide +kernel), by decide +kernel⟩

/-- P7. -/
theorem witness_FullFifoPollsForever :
    let s : State := { uartStart [] with
      stream := [0x3541000000000000#64], env := .backingStore (storeOf [(0xFE201018#32, 0x20#32)]) }
    s.halt = none ∧ s.cp < s.stream.length ∧ decode s.params s.fetch = .command (.uartWriteChar 0x41#8) 1 ∧ s.progress = .idle ∧
    s.liveUart = some uart9600 ∧ uartOpen s.params ∧ s.params.uartTxPoll = true ∧
    readWord (storeOf [(0xFE201018#32, 0x20#32)]) (uartAddr s.params .fr) = 0x20#32 ∧
    0x20#32 &&& s.params.uartFrTxff ≠ 0#32 :=
  ⟨rfl, by decide, by decide +kernel, rfl, rfl, uartOpen_default, rfl, by decide +kernel, by decide +kernel⟩

/-- S-8. -/
theorem witness_UartInitCompletes :
    let s := uartStart [0x90#32, 0#32]
    let p := s.params
    let ws : List Word := List.replicate 17 0#32
    s.liveUart = some uart9600 ∧ uartOpen p ∧ ws.length = p.uartFifoDepth + 1 ∧ uart9600.baudRate ≠ 0#32 ∧
    baudFraction s.clockRate.toNat uart9600.baudRate.toNat ≤ 63 ∧
    baudAccurate s.clockRate.toNat uart9600.baudRate.toNat = true ∧
    answeredBy s.env ([.wr (uartAddr p .cr) p.uartCrEnable,
        .wr (uartAddr p .ibrd) (BitVec.ofNat 32 (baudInteger s.clockRate.toNat uart9600.baudRate.toNat)),
        .wr (uartAddr p .fbrd) (BitVec.ofNat 32 (baudFraction s.clockRate.toNat uart9600.baudRate.toNat))] ++
      flushEvents p (uartAddr p .fr) (uartAddr p .lcrh) (uartAddr p .dr) 0x90#32 0#32 ws ++
      [.rd (uartAddr p .lcrh) 0#32, .wr (uartAddr p .lcrh) (lcrhApply p.lcrh 0#32 .none .eight .one)]) :=
  ⟨rfl, uartOpen_default, rfl, by decide, by decide +kernel, by decide +kernel, answeredBy_of_answers (by decide +kernel)⟩

/-- A unit with baud 0 (V-UART-50); P5; V-UART-51. -/
theorem witness_UartInitStopsAtTheDivisor :
    ({ start [] with uart := some { uart9600 with baudRate := 0#32 } } : State).liveUart = some { uart9600 with baudRate := 0#32 } ∧
    uartOpen (start []).params ∧
    63 < baudFraction ({ uartStart [] with clkFact := some 48076200#32 } : State).clockRate.toNat 9600 ∧
    (baudFraction (start []).clockRate.toNat 150000000 ≤ 63 ∧ baudAccurate (start []).clockRate.toNat 150000000 = false) :=
  ⟨rfl, uartOpen_default, by decide +kernel, by decide +kernel⟩

theorem witness_UartCounterAndRelease : (uartStart []).liveUart = some uart9600 := rfl

theorem witness_UartReadBytesIsRefused :
    let s : State := { start [] with stream := [0x3900000000000001#64] }
    s.halt = none ∧ s.fetch = [0x3900000000000001#64] ∧ opField 0x3900000000000001#64 = 0x39#8 := ⟨rfl, rfl, by decide⟩

theorem witness_I2cStepsComplete :
    (i2cStart []).liveI2c = some i2c100k ∧ i2cOpen (i2cStart []).params ∧ i2c100k.clockRateHz ≠ 0#32 ∧
    (127#8 : Byte).getLsbD 7 = false := ⟨rfl, i2cOpen_default, by decide, by decide⟩

/-- V-I2C-10, and the empty write of V-I2C-11. -/
theorem witness_I2cWriteCompletes :
    let s := i2cStart [0x8000#32, 0x8000#32, 0x8000#32]
    s.liveI2c = some i2c100k ∧ i2cOpen s.params ∧ (0x50#8 : Byte).getLsbD 7 = false ∧
    0x8000#32 &&& s.params.i2cCI2cen ≠ 0#32 ∧
    answeredBy s.env (writeSlaveEvents s.params 0x50#8 [0x00#8, 0x10#8] 0x8000#32 0x8000#32 0x8000#32) ∧
    answeredBy s.env (writeSlaveEvents s.params 0x50#8 [] 0x8000#32 0x8000#32 0x8000#32) :=
  ⟨rfl, i2cOpen_default, by decide, by decide +kernel, answeredBy_of_answers (by decide +kernel),
    answeredBy_of_answers (by decide +kernel)⟩

theorem witness_I2cAddressIsFatal :
    (i2cStart []).liveI2c = some i2c100k ∧ i2cOpen (i2cStart []).params ∧ (128#8 : Byte).getLsbD 7 = true ∧
    (i2cStart []).progress = .idle ∧ (16#16 : BitVec 16).toNat ≤ (i2cStart []).params.i2cRxbufSize :=
  ⟨rfl, i2cOpen_default, by decide, rfl, by decide +kernel⟩

/-- V-I2C-13, and a read of the buffer's whole size. -/
theorem witness_I2cNotEnabledIsFatal :
    let s := i2cStart [0#32, 0#32, 0#32]
    s.liveI2c = some i2c100k ∧ i2cOpen s.params ∧ (0x68#8 : Byte).getLsbD 7 = false ∧ 0#32 &&& s.params.i2cCI2cen = 0#32 ∧
    answeredBy s.env (i2cSetupEvents s.params .write 0x68#8 1#16 0#32 0#32 ++
      [0x6B#8].map (fun b : Byte => .wr (i2cAddr s.params .fifo) (b.setWidth 32)) ++
      [.wr (i2cAddr s.params .s) s.params.i2cSClearMask, .rd (i2cAddr s.params .c) 0#32]) ∧
    s.progress = .idle ∧ (16#16 : BitVec 16).toNat ≤ s.params.i2cRxbufSize ∧
    answeredBy s.env (i2cSetupEvents s.params .read 0x68#8 16#16 0#32 0#32 ++ [.rd (i2cAddr s.params .c) 0#32]) :=
  ⟨rfl, i2cOpen_default, by decide, by decide +kernel, answeredBy_of_answers (by decide +kernel), rfl, by decide +kernel,
    answeredBy_of_answers (by decide +kernel)⟩

theorem rxbufSized_i2cStart (script : List Word) : rxbufSized (i2cStart script) := by
  intro u hu
  cases hu
  rfl

/-- V-I2C-14, without its first poll. -/
theorem witness_I2cReadCompletes :
    let s := i2cStart [0x8000#32, 0x8001#32, 0x8001#32, 0x21#32, 0xAB#32, 0x22#32, 0xCD#32]
    s.liveI2c = some i2c100k ∧ i2cOpen s.params ∧ rxbufSized s ∧ s.progress = .idle ∧ (0x50#8 : Byte).getLsbD 7 = false ∧
    (2#16 : BitVec 16).toNat ≤ s.params.i2cRxbufSize ∧ 0x8001#32 &&& s.params.i2cCI2cen ≠ 0#32 ∧
    (∀ w ∈ [0x21#32, 0x22#32], w &&& s.params.i2cSRxd ≠ 0#32) ∧
    answeredBy s.env (i2cSetupEvents s.params .read 0x50#8 2#16 0x8000#32 0x8001#32 ++ i2cStartEvents s.params 0x8001#32 ++
      receiveEvents s.params [0xAB#32, 0xCD#32] [0x21#32, 0x22#32]) :=
  ⟨rfl, i2cOpen_default, rxbufSized_i2cStart _, rfl, by decide, by decide +kernel, by decide +kernel, each_of_all (by decide +kernel),
    answeredBy_of_answers (by decide +kernel)⟩

/-- The first poll of V-I2C-14; a poll that finds nothing after one byte, in the first step and in a resumed one; a later poll
before the last byte. -/
theorem witness_I2cReadWaits :
    let s := i2cStart [0x8000#32, 0x8001#32, 0x8001#32, 0x01#32]
    let s1 := i2cStart [0x8000#32, 0x8001#32, 0x8001#32, 0x21#32, 0xAB#32, 0x01#32]
    let s2 := { i2cStart [0x01#32] with progress := .i2cRx 1 }
    let s3 := { i2cStart [0x21#32, 0xAB#32, 0x01#32] with progress := .i2cRx 1 }
    let setup (p : Params) := i2cSetupEvents p .read 0x50#8 2#16 0x8000#32 0x8001#32 ++ i2cStartEvents p 0x8001#32
    let drain (p : Params) (ws sts : List Word) := receiveEvents p ws sts ++ [.rd (i2cAddr p .s) 0x01#32]
    (s.liveI2c = some i2c100k ∧ i2cOpen s.params ∧ s.params.i2cRxPoll = true ∧ 0x01#32 &&& s.params.i2cSRxd = 0#32 ∧
      (∀ w ∈ [0x21#32], w &&& s.params.i2cSRxd ≠ 0#32) ∧
      s.progress = .idle ∧ (0x50#8 : Byte).getLsbD 7 = false ∧ (2#16 : BitVec 16).toNat ≤ s.params.i2cRxbufSize ∧
      0x8001#32 &&& s.params.i2cCI2cen ≠ 0#32 ∧ answeredBy s.env (setup s.params ++ drain s.params [] []) ∧
      [0xAB#32].length < (2#16 : BitVec 16).toNat ∧
      answeredBy s1.env (setup s1.params ++ drain s1.params [0xAB#32] [0x21#32])) ∧
    (s2.liveI2c = some i2c100k ∧ s2.progress = .i2cRx 1 ∧ 1 + ([] : List Word).length < (2#16 : BitVec 16).toNat ∧
      answeredBy s2.env (drain s2.params [] [])) ∧
    (s3.progress = .i2cRx 1 ∧ 1 + [0xAB#32].length < (3#16 : BitVec 16).toNat ∧
      answeredBy s3.env (drain s3.params [0xAB#32] [0x21#32])) :=
  ⟨⟨rfl, i2cOpen_default, rfl, by decide +kernel, each_of_all (by decide +kernel), rfl, by decide, by decide +kernel,
      by decide +kernel, answeredBy_of_answers (by decide +kernel), by decide, answeredBy_of_answers (by decide +kernel)⟩,
    ⟨rfl, rfl, by decide, answeredBy_of_answers (by decide +kernel)⟩, rfl, by decide,
    answeredBy_of_answers (by decide +kernel)⟩

theorem witness_I2cReadResumes :
    let s := { i2cStart [0x22#32, 0xCD#32] with progress := .i2cRx 1 }
    s.liveI2c = some i2c100k ∧ i2cOpen s.params ∧ s.progress = .i2cRx 1 ∧ 1 + [0xCD#32].length = (2#16 : BitVec 16).toNat ∧
    (∀ w ∈ [0x22#32], w &&& s.params.i2cSRxd ≠ 0#32) ∧
    answeredBy s.env (receiveEvents s.params [0xCD#32] [0x22#32]) :=
  ⟨rfl, i2cOpen_default, rfl, by decide, each_of_all (by decide +kernel), answeredBy_of_answers (by decide +kernel)⟩

/-- V-I2C-16 and V-I2C-20. -/
theorem witness_I2cRefusals :
    ((i2cStart []).liveI2c = some i2c100k ∧ i2cOpen (i2cStart []).params ∧ (i2cStart []).progress = .idle ∧
      (i2cStart []).params.i2cRxbufSize < (17#16 : BitVec 16).toNat) ∧
    ({ start [] with i2c := some { i2c100k with clockRateHz := 0#32 } } : State).liveI2c =
      some { i2c100k with clockRateHz := 0#32 } := ⟨⟨rfl, i2cOpen_default, rfl, by decide +kernel⟩, rfl⟩

/-- The example of R132. -/
theorem witness_I2cInitCompletes :
    let s := i2cStart [0#32, 0x8000#32, 0x8000#32, 0x8000#32]
    let p := s.params
    s.liveI2c = some i2c100k ∧ i2cOpen p ∧ i2c100k.clockRateHz ≠ 0#32 ∧ p.i2cProbeAddr.getLsbD 7 = false ∧
    0x8000#32 &&& p.i2cCI2cen ≠ 0#32 ∧
    answeredBy s.env ([.rd (i2cAddr p .c) 0#32, .wr (i2cAddr p .c) (0#32 ||| p.i2cCI2cen),
        .wr (i2cAddr p .div) (BitVec.ofNat 32 (p.i2cCoreClockHz / i2c100k.clockRateHz.toNat)),
        .wr (i2cAddr p .clkt) (i2c100k.timeoutTicks.setWidth 32)] ++
      writeSlaveEvents p p.i2cProbeAddr p.i2cProbeBytes 0x8000#32 0x8000#32 0x8000#32) :=
  ⟨rfl, i2cOpen_default, by decide, by decide +kernel, by decide +kernel, answeredBy_of_answers (by decide +kernel)⟩

/-- A probe at address 128, and V-I2C-19. -/
theorem witness_I2cInitFatals :
    let s : State := { i2cStart [0#32, 0#32] with params := { Params.default with i2cProbeAddr := 128#8 } }
    let s' := i2cStart [0#32, 0#32, 0#32, 0#32]
    let pre (p : Params) : List BusEvent := [.rd (i2cAddr p .c) 0#32, .wr (i2cAddr p .c) (0#32 ||| p.i2cCI2cen),
        .wr (i2cAddr p .div) (BitVec.ofNat 32 (p.i2cCoreClockHz / i2c100k.clockRateHz.toNat)),
        .wr (i2cAddr p .clkt) (i2c100k.timeoutTicks.setWidth 32)]
    (s.liveI2c = some i2c100k ∧ i2cOpen s.params ∧ i2c100k.clockRateHz ≠ 0#32 ∧ s.params.i2cProbeAddr.getLsbD 7 = true ∧
      answeredBy s.env (pre s.params ++ [.rd (i2cAddr s.params .c) 0#32, .wr (i2cAddr s.params .c) (0#32 &&& ~~~s.params.i2cCRead)])) ∧
    (s'.liveI2c = some i2c100k ∧ i2cOpen s'.params ∧ s'.params.i2cProbeAddr.getLsbD 7 = false ∧
      0#32 &&& s'.params.i2cCI2cen = 0#32 ∧
      answeredBy s'.env (pre s'.params ++ i2cSetupEvents s'.params .write s'.params.i2cProbeAddr 1#16 0#32 0#32 ++
        s'.params.i2cProbeBytes.map (fun b => .wr (i2cAddr s'.params .fifo) (b.setWidth 32)) ++
        [.wr (i2cAddr s'.params .s) s'.params.i2cSClearMask, .rd (i2cAddr s'.params .c) 0#32])) :=
  ⟨⟨rfl, i2cOpen_default, by decide, by decide +kernel, answeredBy_of_answers (by decide +kernel)⟩, rfl, i2cOpen_default,
    by decide +kernel, by decide +kernel, answeredBy_of_answers (by decide +kernel)⟩

/-- The example of R140. -/
theorem witness_IrqDispatchCompletes :
    let s := irqStart [0x00020001#32, 0x02200000#32, 0x00000100#32, 0x00180000#32]
    let as : List BankAnswer := [⟨0x00020001#32, []⟩, ⟨0x02200000#32, [0x00000100#32, 0x00180000#32]⟩]
    as.length = s.params.irqBanks.length ∧ (∀ b ∈ s.params.irqBanks, b.perm ≠ .writeOnly) ∧ s.params.secstatPerm ≠ .writeOnly ∧
    (∀ x ∈ s.params.irqBanks.zip as, bankAnswerFits s.params x.1 x.2) ∧
    answeredBy s.env ((s.params.irqBanks.zip as).flatMap fun x => bankEvents s.params x.1 x.2) := by
  refine ⟨rfl, by decide +kernel, by decide, ?_, answeredBy_of_answers (by decide +kernel)⟩
  unfold bankAnswerFits
  decide +kernel

/-- A run that waits before its second unit: `\n` to transmit, `\r` sent, the FIFO full. -/
def waiting : State := { uartStart [0x20#32] with stream := [0x350A000000000000#64], progress := .uartTx 1 }

theorem waiting_inv : waiting.Inv where
  memory := rfl
  pins := by
    intro k u h
    have e : waiting.pu[k] = none := Vector.getElem_replicate ..
    rw [e] at h
    cases h
  rxbuf := by
    intro u h
    cases h
  cpBound := by decide
  halt := by
    intro h hh
    cases hh
  progress := by
    have h : decode waiting.params waiting.fetch = .command (.uartWriteChar 0x0A#8) 1 := by decide +kernel
    have hp : waiting.progress = .uartTx 1 := rfl
    unfold progressFits
    rw [h, hp]
    decide

/-- Parameters a run may have, with a canonical store; a misaligned bank, no bank labelled 3, a mask of 0. -/
theorem witness_ResetHasTheInvariant :
    paramsOk irqParams = true ∧ memoryWf (storeOf [(0xFE201018#32, 0x20#32)]) = true ∧
    (∃ t, State.configure irqParams [] none (.backingStore (storeOf [(0xFE201018#32, 0x20#32)])) = .next t) ∧
    paramsOk { irqParams with irqBanks := [⟨3, 0x1002#32, .readOnly⟩] } = false ∧ (0x1002#32 : Word).toNat % 4 ≠ 0 ∧
    paramsOk { irqParams with irqBanks := [] } = false ∧
    paramsOk { irqParams with irqSubvariant := [⟨.uart, [⟨0#32, "UART0"⟩]⟩] } = false :=
  ⟨by decide +kernel, by decide +kernel, next_of_goesOn (by decide +kernel), by decide +kernel, by decide, by decide +kernel,
    by decide +kernel⟩

theorem witness_StepKeepsTheInvariant : waiting.Inv ∧ ∃ t, step waiting = .next t :=
  ⟨waiting_inv, next_of_goesOn (by decide +kernel)⟩

/-- A command that completes, one that waits, one that raises. -/
theorem witness_CommandPointerAfterACommand :
    (uartStart []).halt = none ∧ (∃ t, exec .uartCharsWritten (uartStart []) = .next t) ∧
    (∃ t, exec (.uartWriteChar 0x41#8) (uartStart [0x20#32]) = .next t) ∧
    (∃ t, exec (.gpioNew 58#8 .input .none .low) (uartStart []) = .next t) :=
  ⟨rfl, next_of_goesOn (by decide +kernel), next_of_goesOn (by decide +kernel), next_of_goesOn (by decide +kernel)⟩

theorem witness_TraceIsWhatHappened : ∃ t, step waiting = .next t := next_of_goesOn (by decide +kernel)

theorem witness_OnlyRegistersAreTouched :
    (∃ t, step waiting = .next t) ∧ paramsOk irqParams = true := ⟨next_of_goesOn (by decide +kernel), by decide +kernel⟩

/-- A command with results, and one without. -/
theorem witness_ResultsAreAppendedAndTagged :
    (∃ t, exec (.regRead (.gpio .lev0)) (start [7#32]) = .next t) ∧
    (returnsResults (.gpioSet 5#8) = false ∧ ∃ t, exec (.gpioSet 5#8) (withPin 5#8 .output .low (start [])) = .next t) :=
  ⟨next_of_goesOn (by decide +kernel), rfl, next_of_goesOn (by decide +kernel)⟩

theorem witness_InputsAndBindingsAreStable :
    let s : State := { waiting with mgrUart := .registered, mgrI2c := .registered, console := .bound, uclk := .resolved 1#32 }
    (∃ t, step s = .next t) ∧ s.mgrUart = .registered ∧ s.mgrI2c = .registered ∧ s.console = .bound ∧ s.uclk = .resolved 1#32 :=
  ⟨next_of_goesOn (by decide +kernel), rfl, rfl, rfl, rfl⟩

theorem witness_UnitsHaveTheirWriters :
    (∃ t, exec (.gpioSet 5#8) (withPin 5#8 .output .low (start [])) = .next t) ∧ writesPin (.gpioSet 5#8) ≠ some 4#8 ∧
    writesUart (.gpioSet 5#8) = false ∧ writesI2c (.gpioSet 5#8) = false ∧ writesClock (.gpioSet 5#8) = false :=
  ⟨next_of_goesOn (by decide +kernel), by decide, rfl, rfl, rfl⟩

theorem witness_StoreFrame :
    (memoryWf (stored []).memory = true ∧ ∃ t, exec (.regWrite (.uart .lcrh) 0x70#32) (stored []) = .next t) ∧
    (writesNoBus (.regRead (.uart .lcrh)) = true ∧ ∃ t, exec (.regRead (.uart .lcrh)) (stored []) = .next t) :=
  ⟨⟨rfl, next_of_goesOn (by decide +kernel)⟩, rfl, next_of_goesOn (by decide +kernel)⟩

theorem witness_LogsAreNeverRead : ∃ t, exec (.regRead (.gpio .lev0)) (start [7#32]) = .next t :=
  next_of_goesOn (by decide +kernel)

/-- A fatal condition that is no permission violation, and a raw access that raises one. -/
theorem witness_DefaultTablesPermitTheCommands :
    defaultTables Params.default ∧
    haltOf (exec (.i2cSetAddr 128#8) (i2cStart [])) = some (some .i2cAddress, 0) ∧
    haltOf (exec (.regRead (.gpio .clr1)) (start [])) = some (some .permissionViolation, 0) := by
  refine ⟨⟨rfl, rfl, rfl, rfl, ?_⟩, by decide +kernel, by decide +kernel⟩
  intro b hb
  cases hb with
  | head => rfl
  | tail _ h => cases h

end Sys2Proof.Tests
end

/-!
Proofs of the statements about the state (10_state.md). First what one command does, derived once for all commands: the grammar of
its lines (`Lines`, `Ends`), its frame (`Frame`) and its outcomes (`exec_next_cases`); then the statements.
-/

namespace Sys2Proof.Machine

/-! ## What a command may change -/

/-- Where a command may wait: before one of its units or bytes (R111, R131, R167). -/
def pollAt : Instr → Progress → Prop
  | .uartWriteChar b, .uartTx k => k < (unitsOf b).length
  | .uartWriteBytes bs, .uartTx k => k < (expandNewlines bs).length
  | .i2cRead _ n, .i2cRx j => j < n.toNat
  | _, _ => False

/-- Only a polling command waits, and then its poll is in progress. -/
theorem pollAt_hasPoll {i : Instr} {p : Progress} (h : pollAt i p) : hasPoll i = true ∧ p ≠ .idle := by
  unfold pollAt at h
  split at h
  · exact ⟨rfl, Progress.noConfusion⟩
  · exact ⟨rfl, Progress.noConfusion⟩
  · exact ⟨rfl, Progress.noConfusion⟩
  · exact h.elim

/-- What the lines of command `i` leave alone between `s` and `t`, its completion and its fatal condition aside: `CP` and `HALT`, the
entries of the logs, and every unit that `i` is not one of the commands to write. -/
structure Frame (i : Instr) (s t : State) : Prop where
  cp : t.cp = s.cp
  halt : t.halt = s.halt
  out : ∃ os, t.out = s.out ++ os ∧ (∀ o ∈ os, o.cp = s.cp) ∧ (returnsResults i = false → os = [])
  diag : ∃ ds, t.diag = s.diag ++ ds
  pins : ∀ pin, writesPin i ≠ some pin → t.pinSlot pin = s.pinSlot pin
  uart : writesUart i = false → t.uart = s.uart
  i2c : writesI2c i = false → t.i2c = s.i2c
  clock : writesClock i = false → t.uclk = s.uclk
  managers : (∀ u, i ≠ .mgrRegister u) → t.mgrUart = s.mgrUart ∧ t.mgrI2c = s.mgrI2c
  console : i ≠ .consoleBind → t.console = s.console

namespace Frame
variable {i : Instr} {s t u : State}

theorem refl (i : Instr) (s : State) : Frame i s s where
  cp := rfl
  halt := rfl
  out := ⟨[], by simp⟩
  diag := ⟨[], by simp⟩
  pins _ _ := rfl
  uart _ := rfl
  i2c _ := rfl
  clock _ := rfl
  managers _ := ⟨rfl, rfl⟩
  console _ := rfl

theorem trans (h : Frame i s t) (k : Frame i t u) : Frame i s u where
  cp := k.cp.trans h.cp
  halt := k.halt.trans h.halt
  out := by
    obtain ⟨xs, hx, hxcp, hxnil⟩ := h.out
    obtain ⟨ys, hy, hycp, hynil⟩ := k.out
    refine ⟨xs ++ ys, by rw [hy, hx, List.append_assoc], ?_, fun hr => by rw [hxnil hr, hynil hr]; rfl⟩
    intro o ho
    rcases List.mem_append.1 ho with ho | ho
    · exact hxcp o ho
    · exact (hycp o ho).trans h.cp
  diag := by
    obtain ⟨xs, hx⟩ := h.diag
    obtain ⟨ys, hy⟩ := k.diag
    exact ⟨xs ++ ys, by rw [hy, hx, List.append_assoc]⟩
  pins pin hp := (k.pins pin hp).trans (h.pins pin hp)
  uart hw := (k.uart hw).trans (h.uart hw)
  i2c hw := (k.i2c hw).trans (h.i2c hw)
  clock hw := (k.clock hw).trans (h.clock hw)
  managers hw := ⟨(k.managers hw).1.trans (h.managers hw).1, (k.managers hw).2.trans (h.managers hw).2⟩
  console hw := (k.console hw).trans (h.console hw)

/-- Bus events and the poll's own field change nothing of the frame. -/
theorem afterEvents (i : Instr) (s : State) (evs : List BusEvent) : Frame i s (s.afterEvents evs) := { refl i s with }

theorem withProgress (i : Instr) (s : State) (p : Progress) : Frame i s { s with progress := p } := { refl i s with }

theorem withOut (hr : returnsResults i = true) (v : OutValue) : Frame i s (s.withOut v) :=
  { refl i s with out := ⟨[⟨s.cp, v⟩], by simp [hr]⟩ }

theorem setPin {pin : Byte} (hw : writesPin i = some pin) (u : PinUnit) : Frame i s (s.setPin pin u) where
  cp := setPin_cp ..
  halt := setPin_halt ..
  out := ⟨[], by simp⟩
  diag := ⟨[], by simp⟩
  pins q hq := pinSlot_setPin_other s pin u fun e => hq (e ▸ hw)
  uart _ := setPin_uart ..
  i2c _ := setPin_i2c ..
  clock _ := setPin_uclk ..
  managers _ := ⟨setPin_mgrUart .., setPin_mgrI2c ..⟩
  console _ := setPin_console ..

theorem withUart (hw : writesUart i = true) (u : Option UartUnit) : Frame i s { s with uart := u } :=
  { refl i s with uart := by simp [hw] }

theorem withI2c (hw : writesI2c i = true) (u : Option I2cUnit) : Frame i s { s with i2c := u } :=
  { refl i s with i2c := by simp [hw] }

theorem withUclk (hw : writesClock i = true) (c : Uclk) : Frame i s { s with uclk := c } :=
  { refl i s with clock := by simp [hw] }

theorem withDiag (i : Instr) (s : State) (d : Diagnostic) : Frame i s { s with diag := s.diag ++ [d] } :=
  { refl i s with diag := ⟨[d], rfl⟩ }

theorem setRegistered {ty : DriverType} (hw : i = .mgrRegister ty) : Frame i s (setRegistered ty s) := by
  cases ty
  · exact { refl i s with managers := fun h => absurd hw (h _) }
  · exact { refl i s with managers := fun h => absurd hw (h _) }

theorem withConsole (hw : i = .consoleBind) (c : Console) : Frame i s { s with console := c } :=
  { refl i s with console := fun h => absurd hw h }

end Frame

/-! ## The lines of a command -/

/-- The state with other entries before those of its three logs. -/
def State.behindLogs (s : State) (o : List OutEntry) (d : List Diagnostic) (e : List BusEvent) : State :=
  { s with out := o ++ s.out, diag := d ++ s.diag, trace := e ++ s.trace }

/-- The lines that command `i` is made of before it completes. A look at the state sees no log (R13), and a line that changes a unit
stands only in a command that may write that unit (R14 to R19). -/
inductive Lines (i : Instr) : {α : Type} → Cmd α → Prop
  | pure {α : Type} (a : α) : Lines i (pure a : Cmd α)
  | bind {α β : Type} {c : Cmd α} {f : α → Cmd β} : Lines i c → (∀ a, Lines i (f a)) → Lines i (c >>= f)
  | look {α : Type} {f : State → Cmd α} : (∀ s, Lines i (f s)) → (∀ s o d e, f (s.behindLogs o d e) = f s) →
      Lines i (getState >>= f)
  | raise {α : Type} (code : FatalCode) : Lines i (raiseFatal code : Cmd α)
  | refuse {α : Type} (why : RefuseWhy) : Lines i (refuse why : Cmd α)
  | wait {α : Type} {p : Progress} : pollAt i p → Lines i (pollAgain p : Cmd α)
  | read (r : Reg) : Lines i (regRead r)
  | write (r : Reg) (v : Word) : Lines i (regWrite r v)
  | emit (v : OutValue) : returnsResults i = true → Lines i (emitOut v)
  | putPin {pin : Byte} (u : PinUnit) : writesPin i = some pin → Lines i (putPin pin u)
  | putUart (u : UartUnit) : writesUart i = true → Lines i (putUart u)
  | updateUart (f : UartUnit → UartUnit) : writesUart i = true → Lines i (updateUart f)
  | putI2c (u : I2cUnit) : writesI2c i = true → Lines i (putI2c u)
  | updateI2c (f : I2cUnit → I2cUnit) : writesI2c i = true → Lines i (updateI2c f)
  | resolveClock : writesClock i = true → Lines i resolveClock
  | register {ty : DriverType} : i = .mgrRegister ty → Lines i (update (setRegistered ty))
  | bindConsole : i = .consoleBind → Lines i (update fun s => { s with console := .bound })
  /-- A command that may not write the UART unit puts back the unit it has found (UART_INIT overrides no setting, R115). -/
  | putBackUart {α β : Type} {c : UartUnit → Cmd α} {f : UartUnit → Cmd β} : writesUart i = false →
      (∀ u, Lines i (c u)) → (∀ u, Lines i (f u)) →
      Lines i (uartUnit >>= fun u => c u >>= fun _ => Machine.putUart u >>= fun _ => f u)

/-- A whole command: its lines, and at their end its completion by its own length (R20). -/
inductive Ends (i : Instr) : Cmd Unit → Prop
  | complete {n : Nat} : n = i.len → Ends i (complete n)
  | bind {α : Type} {c : Cmd α} {f : α → Cmd Unit} : Lines i c → (∀ a, Ends i (f a)) → Ends i (c >>= f)
  | look {f : State → Cmd Unit} : (∀ s, Ends i (f s)) → (∀ s o d e, f (s.behindLogs o d e) = f s) →
      Ends i (getState >>= f)
  | refuse (why : RefuseWhy) : Ends i (refuse why)

section Outcomes
variable {i : Instr} {α β : Type}

/-- What is known after lines of command `i` from `s`, however they end. -/
def Leaves (i : Instr) (s : State) : EStateM.Result Stop State α → Prop
  | .ok _ t => Frame i s t
  | .error .poll t => Frame i s t ∧ pollAt i t.progress
  | .error (.fatal _) t => Frame i s t
  | .error (.refuse _) t => Frame i s t

/-- More lines after lines that ended well. -/
theorem leaves_trans {s t : State} (h : Frame i s t) {r : EStateM.Result Stop State β} (hr : Leaves i t r) : Leaves i s r := by
  match r, hr with
  | .ok _ _, hr => exact h.trans hr
  | .error .poll _, ⟨hf, hp⟩ => exact ⟨h.trans hf, hp⟩
  | .error (.fatal _) _, hr => exact h.trans hr
  | .error (.refuse _) _, hr => exact h.trans hr

theorem leaves_bind {s : State} {c : Cmd α} {f : α → Cmd β} (hc : Leaves i s (c s))
    (hf : ∀ a t, c s = .ok a t → Leaves i t (f a t)) : Leaves i s ((c >>= f) s) := by
  match hcs : c s, hc with
  | .ok a t, hc => rw [bind_ok hcs]; exact leaves_trans hc (hf a t hcs)
  | .error .poll t, hc => rw [bind_error hcs]; exact hc
  | .error (.fatal _) t, hc => rw [bind_error hcs]; exact hc
  | .error (.refuse _) t, hc => rw [bind_error hcs]; exact hc

theorem leaves_regRead (r : Reg) (s : State) : Leaves i s (regRead r s) := by
  rcases regRead_cases r s with ⟨d, _, _, h⟩ | ⟨d, _, _, h⟩ | ⟨_, h⟩ <;> rw [h]
  · exact Frame.afterEvents ..
  · exact Frame.refl ..
  · exact Frame.refl ..

theorem leaves_regWrite (r : Reg) (v : Word) (s : State) : Leaves i s (regWrite r v s) := by
  rcases regWrite_cases r v s with ⟨d, _, _, h⟩ | ⟨d, _, _, h⟩ | ⟨_, h⟩ <;> rw [h]
  · exact Frame.afterEvents ..
  · exact Frame.refl ..
  · exact Frame.refl ..

theorem leaves_resolveClock (hw : writesClock i = true) (s : State) : Leaves i s (resolveClock s) := by
  rcases resolveClock_cases s with ⟨_, _, h⟩ | ⟨hz, _, _, h⟩ | ⟨_, _, h⟩ <;> rw [h]
  · exact Frame.refl ..
  · exact Frame.withUclk hw _
  · exact (Frame.withUclk hw (.resolved uartDefaultClock)).trans
      (Frame.withDiag i { s with uclk := .resolved uartDefaultClock } .clockDefaulted)

/-- The lines of a command keep its frame, and where they wait is a place of its poll. -/
theorem lines_leaves {c : Cmd α} (h : Lines i c) (s : State) : Leaves i s (c s) := by
  induction h generalizing s with
  | pure a => exact Frame.refl i s
  | bind _ _ hc hf => exact leaves_bind (hc s) fun a t _ => hf a t
  | look _ _ hf => exact hf s s
  | raise code => exact Frame.refl i s
  | refuse why => exact Frame.refl i s
  | wait hp => exact ⟨Frame.withProgress .., hp⟩
  | read r => exact leaves_regRead r s
  | write r v => exact leaves_regWrite r v s
  | emit v hr => exact Frame.withOut hr v
  | putPin u hw => exact Frame.setPin hw u
  | putUart u hw => exact Frame.withUart hw _
  | updateUart f hw => exact Frame.withUart hw _
  | putI2c u hw => exact Frame.withI2c hw _
  | updateI2c f hw => exact Frame.withI2c hw _
  | resolveClock hw => exact leaves_resolveClock hw s
  | register hw => exact Frame.setRegistered hw
  | bindConsole hw => exact Frame.withConsole hw _
  | putBackUart hw _ _ hc hf =>
    rcases uartUnit_cases s with ⟨u, hu, h⟩ | ⟨_, h⟩
    · rw [bind_ok h]
      refine leaves_bind (hc u s) fun a t ht => ?_
      have hframe := hc u s
      rw [ht] at hframe
      have htu : t.uart = some u := (hframe.uart hw).trans (liveUart_some hu).1
      rw [putUart_bind, withUart_self htu]
      exact hf u t
    · rw [bind_error h]; exact Frame.refl i s

/-- The outcomes of a command that answers a next state: completed, waiting, or raised. -/
def Outcomes (i : Instr) (u t : State) : Prop :=
  t = u.completed i.len ∨ (t = u ∧ pollAt i t.progress) ∨ ∃ code, t = takeFatal code u

/-- A whole command keeps its frame up to its outcome. -/
theorem ends_next_cases {c : Cmd Unit} (h : Ends i c) {s t : State} (hn : runCmd c s = .next t) :
    ∃ u, Frame i s u ∧ Outcomes i u t := by
  induction h generalizing s with
  | complete hl =>
    subst hl
    injection hn with hn
    exact ⟨s, Frame.refl i s, .inl hn.symm⟩
  | @bind _ c f hc _ ih =>
    have hl := lines_leaves hc s
    match hcs : c s with
    | .ok a u =>
      rw [hcs] at hl
      have hrun : runCmd (c >>= f) s = runCmd (f a) u := by unfold runCmd; rw [bind_ok hcs]
      obtain ⟨v, hv, ho⟩ := ih a (hrun ▸ hn)
      exact ⟨v, Frame.trans hl hv, ho⟩
    | .error .poll u =>
      rw [hcs] at hl
      rw [runCmd_poll (bind_error hcs)] at hn
      injection hn with hn
      subst hn
      exact ⟨u, hl.1, .inr (.inl ⟨rfl, hl.2⟩)⟩
    | .error (.fatal code) u =>
      rw [hcs] at hl
      rw [runCmd_fatal (bind_error hcs)] at hn
      injection hn with hn
      exact ⟨u, hl, .inr (.inr ⟨code, hn.symm⟩)⟩
    | .error (.refuse why) u =>
      rw [runCmd_refuse (bind_error hcs)] at hn
      cases hn
  | look _ _ ih => exact ih s hn
  | refuse why => cases hn

end Outcomes

/-! ## The lines of the shared sub-steps -/

namespace Lines
variable {i : Instr} {α : Type}

theorem ite {p : Prop} [Decidable p] {c d : Cmd α} (hc : Lines i c) (hd : Lines i d) : Lines i (if p then c else d) := by
  split
  · exact hc
  · exact hd

theorem whenever {p : Bool} {c : Cmd Unit} (hc : Lines i c) : Lines i (whenever p c) := ite hc (pure ())

theorem requireUnit (u : Option α) : Lines i (requireUnit u) := by
  cases u
  · exact refuse _
  · exact pure _

theorem pinUnit (pin : Byte) : Lines i (pinUnit pin) := look (fun _ => requireUnit _) fun _ _ _ _ => rfl
theorem uartUnit : Lines i uartUnit := look (fun _ => requireUnit _) fun _ _ _ _ => rfl
theorem i2cUnit : Lines i i2cUnit := look (fun _ => requireUnit _) fun _ _ _ _ => rfl

theorem getPort (r : Reg) : Lines i (getPort r) := by
  refine look (fun s => ?_) fun _ _ _ _ => rfl
  cases portOf s.params r
  · exact raise _
  · exact pure _

theorem requireMapped (rs : List Reg) : Lines i (requireMapped rs) := by
  induction rs with
  | nil => exact pure _
  | cons r rs ih => exact bind (getPort r) fun _ => ih

theorem requireEncodable (r : Reg) : Lines i (requireEncodable r) :=
  look (fun _ => ite (pure _) (refuse _)) fun _ _ _ _ => rfl

theorem requireDriver (ty : DriverType) : Lines i (requireDriver ty) := by
  cases ty
  · exact bind uartUnit fun _ => pure _
  · exact bind i2cUnit fun _ => pure _

/-! ### IRQ -/

section Irq
variable (hr : returnsResults i = true)
include hr

theorem emitAll (vs : List OutValue) : Lines i (emitAll vs) := by
  induction vs with
  | nil => exact pure _
  | cons v vs ih => exact bind (emit v hr) fun _ => ih

theorem classifyFamily (k : Nat) : Lines i (classifyFamily k) := by
  refine look (fun s => ?_) fun _ _ _ _ => rfl
  cases familyOf s.params.irqFamilyBit k
  · exact pure _
  · exact bind (read _) fun _ => emitAll hr _

theorem classifyBit (label k : Nat) : Lines i (classifyBit label k) := by
  refine look (fun s => ite (classifyFamily hr k) ?_) fun _ _ _ _ => rfl
  cases knownName s.params.irqKnown label k
  · exact pure _
  · exact emit _ hr

theorem classifyBits (label : Nat) (w : Word) (ks : List Nat) : Lines i (classifyBits label w ks) := by
  induction ks with
  | nil => exact pure _
  | cons k ks ih => exact bind (whenever (classifyBit hr label k)) fun _ => ih

theorem dispatchBanks (n : Nat) (bs : List IrqBank) : Lines i (dispatchBanks n bs) := by
  induction bs generalizing n with
  | nil => exact pure _
  | cons b bs ih => exact bind (read _) fun _ => bind (whenever (classifyBits hr _ _ _)) fun _ => ih _

end Irq

/-! ### UART -/

theorem clockHz : Lines i clockHz := by
  refine look (fun s => ?_) fun _ _ _ _ => rfl
  cases s.uclk
  · exact refuse _
  · exact pure _

theorem baudDiv (clock target : Word) : Lines i (baudDiv clock target) :=
  ite (refuse _) (ite (raise _) (ite (pure _) (raise _)))

theorem drainReads (k : Nat) : Lines i (drainReads k) := by
  induction k with
  | zero => exact pure _
  | succ k ih => exact bind (read _) fun _ => ih

theorem toggleFifo : Lines i toggleFifo :=
  look (fun _ => bind (read _) fun _ => bind (write _ _) fun _ => write _ _) fun _ _ _ _ => rfl

theorem flush : Lines i flush :=
  look (fun _ => bind (read _) fun _ => bind (whenever toggleFifo) fun _ => whenever (drainReads _)) fun _ _ _ _ => rfl

/-- The lines of `apply_line_control` after the unit's settings are stored: the read-modify-write of `LCRH` (R107). -/
theorem programLineControl (u : UartUnit) :
    Lines i (getState >>= fun s => regRead (.uart .lcrh) >>= fun l =>
      regWrite (.uart .lcrh) (lcrhApply s.params.lcrh l u.parity u.wordLength u.stopBits)) :=
  look (fun _ => bind (read _) fun _ => write _ _) fun _ _ _ _ => rfl

theorem applyLineControl (hw : writesUart i = true) (u : UartUnit) (p : Option Parity) (w : Option WordLength)
    (st : Option StopBits) : Lines i (applyLineControl u p w st) :=
  look (fun _ => bind (putUart _ hw) fun _ => bind (read _) fun _ => write _ _) fun _ _ _ _ => rfl

theorem pollTransmit {sent : Nat} (hp : pollAt i (.uartTx sent)) : Lines i (pollTransmit sent) :=
  look (fun _ => whenever (bind (read _) fun _ => whenever (wait hp))) fun _ _ _ _ => rfl

theorem transmitAll (hw : writesUart i = true) {sent : Nat} {xs : List Byte}
    (hp : ∀ k, sent ≤ k → k < sent + xs.length → pollAt i (.uartTx k)) : Lines i (transmitAll sent xs) := by
  induction xs generalizing sent with
  | nil => exact pure _
  | cons x xs ih =>
    have hsent : pollAt i (.uartTx sent) := hp sent (le_refl _) (by simp)
    have hrest : Lines i (Machine.transmitAll (sent + 1) xs) :=
      ih fun k h1 h2 => hp k (by omega) (by rw [List.length_cons]; omega)
    exact bind (bind (pollTransmit hsent) fun _ => bind (write _ _) fun _ => updateUart _ hw) fun _ => hrest

/-- Putting back the unit's settings unchanged, then programming them, is line control with no setting given (R108, R115). -/
theorem applyLineControl_none (u : UartUnit) :
    Machine.applyLineControl u none none none = (Machine.putUart u >>= fun _ => getState >>= fun s =>
      regRead (.uart .lcrh) >>= fun l =>
        regWrite (.uart .lcrh) (lcrhApply s.params.lcrh l u.parity u.wordLength u.stopBits)) := rfl

theorem uartInitBody (hu : writesUart i = false) (hc : writesClock i = true) : Lines i uartInitBody := by
  have prep (u : UartUnit) : Lines i (do
      Machine.resolveClock
      let s ← getState
      regWrite (.uart .cr) s.params.uartCrEnable
      let hz ← Machine.clockHz
      let d ← Machine.baudDiv hz u.baudRate
      regWrite (.uart .ibrd) (BitVec.ofNat 32 d.1)
      regWrite (.uart .fbrd) (BitVec.ofNat 32 d.2)
      Machine.flush) :=
    bind (resolveClock hc) fun _ => look (fun _ => bind (write _ _) fun _ => bind clockHz fun _ =>
      bind (baudDiv _ _) fun _ => bind (write _ _) fun _ => bind (write _ _) fun _ => flush) fun _ _ _ _ => rfl
  have h := putBackUart hu prep programLineControl
  rw [Machine.uartInitBody]
  simpa only [bind_assoc, ← applyLineControl_none] using h

/-! ### I2C -/

theorem setDiv (u : I2cUnit) : Lines i (setDiv u) :=
  look (fun _ => bind (whenever (refuse _)) fun _ => write _ _) fun _ _ _ _ => rfl

theorem clearFifo : Lines i clearFifo := look (fun _ => bind (read _) fun _ => write _ _) fun _ _ _ _ => rfl
theorem clearStatus : Lines i clearStatus := look (fun _ => write _ _) fun _ _ _ _ => rfl

theorem pushFifo (bs : List Byte) : Lines i (pushFifo bs) := by
  induction bs with
  | nil => exact pure _
  | cons b bs ih => exact bind (write _ _) fun _ => ih

theorem pollReceive {got : Nat} (hp : pollAt i (.i2cRx got)) : Lines i (pollReceive got) :=
  look (fun _ => whenever (bind (read _) fun _ => whenever (wait hp))) fun _ _ _ _ => rfl

section I2c
variable (hw : writesI2c i = true)
include hw

theorem setI2cFsm (st : I2cFsm) : Lines i (setI2cFsm st) := updateI2c _ hw

theorem setAddress (addr : Byte) : Lines i (setAddress addr) :=
  bind (whenever (raise _)) fun _ => bind (updateI2c _ hw) fun _ => write _ _

theorem setDirection (d : Direction) : Lines i (setDirection d) :=
  look (fun _ => bind (updateI2c _ hw) fun _ => bind (read _) fun _ => write _ _) fun _ _ _ _ => rfl

theorem setLength (n : BitVec 16) : Lines i (setLength n) :=
  bind (updateI2c _ hw) fun _ => bind (write _ _) fun _ => setI2cFsm hw _

theorem startTransfer : Lines i startTransfer :=
  look (fun _ => bind (read _) fun _ => bind (whenever (raise _)) fun _ => bind (write _ _) fun _ => setI2cFsm hw _)
    fun _ _ _ _ => rfl

theorem writeSlave (addr : Byte) (bs : List Byte) : Lines i (writeSlave addr bs) :=
  bind (setDirection hw _) fun _ => bind (setAddress hw _) fun _ => bind (setLength hw _) fun _ =>
    bind clearFifo fun _ => bind (pushFifo _) fun _ => bind clearStatus fun _ => startTransfer hw

theorem i2cInitBody : Lines i i2cInitBody :=
  bind i2cUnit fun _ => look (fun _ => bind (read _) fun _ => bind (write _ _) fun _ => bind (setDiv _) fun _ =>
    bind (write _ _) fun _ => bind (writeSlave hw _ _) fun _ => setI2cFsm hw _) fun _ _ _ _ => rfl

theorem readSetup (addr : Byte) (n : BitVec 16) : Lines i (readSetup addr n) :=
  look (fun _ => bind (whenever (refuse _)) fun _ => bind (setDirection hw _) fun _ => bind (setAddress hw _) fun _ =>
    bind (setLength hw _) fun _ => bind clearFifo fun _ => startTransfer hw) fun _ _ _ _ => rfl

theorem receiveAll {got k : Nat} (hp : ∀ j, got ≤ j → j < got + k → pollAt i (.i2cRx j)) :
    Lines i (receiveAll got k) := by
  induction k generalizing got with
  | zero => exact pure _
  | succ k ih =>
    have hgot : pollAt i (.i2cRx got) := hp got (le_refl _) (by omega)
    have hrest : Lines i (Machine.receiveAll (got + 1) k) := ih fun j h1 h2 => hp j (by omega) (by omega)
    exact bind (bind (pollReceive hgot) fun _ => bind (read _) fun _ => updateI2c _ hw) fun _ => hrest

theorem readTransfer {addr : Byte} {n : BitVec 16} (hp : ∀ j, j < n.toNat → pollAt i (.i2cRx j)) (p : Progress) :
    Lines i (readTransfer addr n p) := by
  have start : Lines i (readFromStart addr n) :=
    bind (readSetup hw addr n) fun _ => receiveAll hw fun j _ hj => hp j (by omega)
  cases p with
  | idle => exact start
  | uartTx k => exact start
  | i2cRx got => exact receiveAll hw fun j _ _ => hp j (by omega)

end I2c

end Lines

/-! ## Every command -/

namespace Ends
variable {i : Instr}

/-- What GPIO_SET, GPIO_CLR and GPIO_RELEASE share (R93, R94, R97). -/
theorem pulsePin {pin : Byte} (hw : writesPin i = some pin) (hl : i.len = 1) (k : BankKind) (after : PinFsm) :
    Ends i (pulsePin k after pin) :=
  bind (.pinUnit pin) fun _ => bind (.write _ _) fun _ => bind (.putPin _ hw) fun _ => complete hl.symm

/-- What the two transmit commands share (R114, R117): the resumed poll stands before one of the units. -/
theorem writeUnits (hw : writesUart i = true) {units : List Byte} (hp : ∀ k, k < units.length → pollAt i (.uartTx k))
    {len : Nat} (hl : len = i.len) : Ends i (writeUnits units len) := by
  refine bind .uartUnit fun _ => look (fun s => ?_) fun _ _ _ _ => rfl
  have hrest (k : Nat) (h1 : unitsSent s ≤ k) (h2 : k < unitsSent s + (units.drop (unitsSent s)).length) :
      pollAt i (.uartTx k) := hp k (by rw [List.length_drop] at h2; omega)
  exact bind (.transmitAll hw hrest) fun _ => complete hl

end Ends

/-- Every command is lines that it may have, and at their end its completion. -/
theorem exec_ends (i : Instr) : ∃ c, (∀ s, exec i s = runCmd c s) ∧ Ends i c := by
  cases i with
  | regRead r =>
    exact ⟨_, fun _ => rfl,
      .bind (.requireEncodable r) fun _ => .bind (.read r) fun _ => .bind (.emit _ rfl) fun _ => .complete rfl⟩
  | regWrite r v =>
    exact ⟨_, fun _ => rfl, .bind (.requireEncodable r) fun _ => .bind (.write r v) fun _ => .complete rfl⟩
  | mgrRegister ty =>
    exact ⟨_, fun _ => rfl, .bind (.requireDriver ty) fun _ => .bind (.register rfl) fun _ => .complete rfl⟩
  | mgrInitAll ty =>
    have hbody : Lines (.mgrInitAll ty) (driverInitBody ty) := by
      cases ty
      · exact .uartInitBody rfl rfl
      · exact .i2cInitBody rfl
    refine ⟨_, fun _ => rfl, .look (fun s => ?_) (fun _ _ _ _ => ?_)⟩
    · cases managerOf ty s
      · exact .complete rfl
      · exact .bind hbody fun _ => .complete rfl
    · cases ty <;> rfl
  | consoleBind => exact ⟨_, fun _ => rfl, .bind .uartUnit fun _ => .bind (.bindConsole rfl) fun _ => .complete rfl⟩
  | gpioNew pin f pull level =>
    exact ⟨_, fun _ => rfl, .bind (.whenever (.raise _)) fun _ => .look (fun _ => .bind (.whenever (.refuse _)) fun _ =>
      .bind (.putPin _ rfl) fun _ => .complete rfl) fun _ _ _ _ => rfl⟩
  | gpioInit pin =>
    exact ⟨_, fun _ => rfl,
      .bind (.pinUnit pin) fun _ => .look (fun _ => .bind (.requireMapped _) fun _ => .bind (.write _ _) fun _ =>
        .bind (.read _) fun _ => .bind (.write _ _) fun _ => .bind (.read _) fun _ => .bind (.putPin _ rfl) fun _ =>
        .complete rfl) fun _ _ _ _ => rfl⟩
  | gpioSet pin => exact ⟨_, fun _ => rfl, .pulsePin rfl rfl _ _⟩
  | gpioClr pin => exact ⟨_, fun _ => rfl, .pulsePin rfl rfl _ _⟩
  | gpioSample pin =>
    exact ⟨_, fun _ => rfl, .bind (.pinUnit pin) fun _ => .bind (.read _) fun _ => .bind (.putPin _ rfl) fun _ =>
      .bind (.emit _ rfl) fun _ => .complete rfl⟩
  | gpioEdge pin =>
    exact ⟨_, fun _ => rfl,
      .bind (.pinUnit pin) fun _ => .bind (.read _) fun _ => .bind (.emit _ rfl) fun _ => .complete rfl⟩
  | gpioRelease pin => exact ⟨_, fun _ => rfl, .pulsePin rfl rfl _ _⟩
  | uartNew p w st baud =>
    exact ⟨_, fun _ => rfl,
      .look (fun _ => .bind (.whenever (.refuse _)) fun _ => .bind (.putUart _ rfl) fun _ => .complete rfl)
        fun _ _ _ _ => rfl⟩
  | uartResolveClk => exact ⟨_, fun _ => rfl, .bind (.resolveClock rfl) fun _ => .complete rfl⟩
  | uartBaudDiv target =>
    exact ⟨_, fun _ => rfl,
      .bind .uartUnit fun _ => .bind .clockHz fun _ => .bind (.baudDiv _ _) fun _ => .bind (.emit _ rfl) fun _ =>
        .complete rfl⟩
  | uartLineCtl p w st =>
    exact ⟨_, fun _ => rfl, .bind .uartUnit fun _ => .bind (.applyLineControl rfl _ _ _ _) fun _ => .complete rfl⟩
  | uartFlush => exact ⟨_, fun _ => rfl, .bind .uartUnit fun _ => .bind .flush fun _ => .complete rfl⟩
  | uartWriteChar b =>
    have hp (k : Nat) (hk : k < (unitsOf b).length) : pollAt (.uartWriteChar b) (.uartTx k) := hk
    exact ⟨_, fun _ => rfl, .writeUnits rfl hp rfl⟩
  | uartWriteBytes bs =>
    have hp (k : Nat) (hk : k < (expandNewlines bs).length) : pollAt (.uartWriteBytes bs) (.uartTx k) := hk
    exact ⟨_, fun _ => rfl, .writeUnits rfl hp rfl⟩
  | uartInit => exact ⟨_, fun _ => rfl, .bind (.uartInitBody rfl rfl) fun _ => .complete rfl⟩
  | uartCharsWritten =>
    exact ⟨_, fun _ => rfl, .bind .uartUnit fun _ => .bind (.emit _ rfl) fun _ => .complete rfl⟩
  | uartReadBytes rest => exact ⟨_, fun _ => rfl, .refuse _⟩
  | uartRelease => exact ⟨_, fun _ => rfl, .bind .uartUnit fun _ => .bind (.putUart _ rfl) fun _ => .complete rfl⟩
  | i2cNew timeout clock =>
    exact ⟨_, fun _ => rfl,
      .look (fun _ => .bind (.whenever (.refuse _)) fun _ => .bind (.putI2c _ rfl) fun _ => .complete rfl)
        fun _ _ _ _ => rfl⟩
  | i2cSetDiv => exact ⟨_, fun _ => rfl, .bind .i2cUnit fun _ => .bind (.setDiv _) fun _ => .complete rfl⟩
  | i2cSetAddr addr =>
    exact ⟨_, fun _ => rfl,
      .bind .i2cUnit fun _ => .bind (.setAddress rfl _) fun _ => .bind (.setI2cFsm rfl _) fun _ => .complete rfl⟩
  | i2cSetDir dir =>
    exact ⟨_, fun _ => rfl, .bind .i2cUnit fun _ => .bind (.setDirection rfl _) fun _ => .bind (.setI2cFsm rfl _) fun _ =>
      .complete rfl⟩
  | i2cWrite addr bs =>
    exact ⟨_, fun _ => rfl, .bind .i2cUnit fun _ => .bind (.writeSlave rfl _ _) fun _ => .bind (.setI2cFsm rfl _) fun _ =>
      .complete rfl⟩
  | i2cRead addr n =>
    have hp (j : Nat) (hj : j < n.toNat) : pollAt (.i2cRead addr n) (.i2cRx j) := hj
    exact ⟨_, fun _ => rfl,
      .bind .i2cUnit fun _ => .look (fun _ => .bind (.readTransfer rfl hp _) fun _ => .bind .i2cUnit fun _ =>
        .bind (.emit _ rfl) fun _ => .bind (.setI2cFsm rfl _) fun _ => .complete rfl) fun _ _ _ _ => rfl⟩
  | i2cInit => exact ⟨_, fun _ => rfl, .bind (.i2cInitBody rfl) fun _ => .complete rfl⟩
  | i2cRelease => exact ⟨_, fun _ => rfl, .bind .i2cUnit fun _ => .bind (.putI2c _ rfl) fun _ => .complete rfl⟩
  | irqDispatch =>
    exact ⟨_, fun _ => rfl, .look (fun _ => .bind (.dispatchBanks rfl _ _) fun _ => .complete rfl) fun _ _ _ _ => rfl⟩

/-- Everything a command that answers a next state does: within its frame, and then it completes, waits or raises. -/
theorem exec_next_cases {i : Instr} {s t : State} (h : exec i s = .next t) : ∃ u, Frame i s u ∧ Outcomes i u t := by
  obtain ⟨c, he, hc⟩ := exec_ends i
  exact ends_next_cases hc (he s ▸ h)

/-! ## Logs are never read -/

section Logs
variable (o : List OutEntry) (d : List Diagnostic) (e : List BusEvent)

/-- What a line answers, with the state it leaves changed by `g`. -/
def mapState {α : Type} (g : State → State) : EStateM.Result Stop State α → EStateM.Result Stop State α
  | .ok a t => .ok a (g t)
  | .error why t => .error why (g t)

/-- The entries put before the logs stay there, and the line does what it does without them. -/
def LogBlind {α : Type} (c : Cmd α) : Prop := ∀ s, c (s.behindLogs o d e) = mapState (·.behindLogs o d e) (c s)

theorem behindLogs_afterEvents (s : State) (evs : List BusEvent) :
    (s.behindLogs o d e).afterEvents evs = (s.afterEvents evs).behindLogs o d e := by
  simp [State.behindLogs, State.afterEvents]

theorem behindLogs_withOut (s : State) (v : OutValue) :
    (s.behindLogs o d e).withOut v = (s.withOut v).behindLogs o d e := by
  simp [State.behindLogs, State.withOut]

theorem behindLogs_takeFatal (s : State) (code : FatalCode) :
    takeFatal code (s.behindLogs o d e) = (takeFatal code s).behindLogs o d e := by
  simp [State.behindLogs, takeFatal]

theorem behindLogs_setPin (s : State) (pin : Byte) (u : PinUnit) :
    (s.behindLogs o d e).setPin pin u = (s.setPin pin u).behindLogs o d e := by
  unfold State.setPin
  split <;> rfl

theorem behindLogs_setRegistered (s : State) (ty : DriverType) :
    setRegistered ty (s.behindLogs o d e) = (setRegistered ty s).behindLogs o d e := by
  cases ty <;> rfl

variable {o d e} {α β : Type}

theorem logBlind_bind {c : Cmd α} {f : α → Cmd β} (hc : LogBlind o d e c) (hf : ∀ a, LogBlind o d e (f a)) :
    LogBlind o d e (c >>= f) := by
  intro s
  rw [bind_apply, bind_apply, hc s]
  cases c s with
  | ok a t => exact hf a t
  | error why t => rfl

theorem logBlind_look {f : State → Cmd α} (hf : ∀ s, LogBlind o d e (f s)) (hb : ∀ s, f (s.behindLogs o d e) = f s) :
    LogBlind o d e (getState >>= f) := by
  intro s
  rw [getState_bind, getState_bind, hb s]
  exact hf s s

theorem logBlind_regRead (r : Reg) : LogBlind o d e (regRead r) := by
  intro s
  have hpar : (s.behindLogs o d e).params = s.params := rfl
  simp only [regRead, getPort, bind_apply, getState_apply, hpar]
  cases portOf s.params r with
  | none => rfl
  | some p =>
    simp only [pure_apply, readPort]
    split
    · rfl
    · rw [memRead_apply, memRead_apply, behindLogs_afterEvents]; rfl

theorem logBlind_regWrite (r : Reg) (v : Word) : LogBlind o d e (regWrite r v) := by
  intro s
  have hpar : (s.behindLogs o d e).params = s.params := rfl
  simp only [regWrite, getPort, bind_apply, getState_apply, hpar]
  cases portOf s.params r with
  | none => rfl
  | some p =>
    simp only [pure_apply, writePort]
    split
    · rfl
    · rw [memWrite_apply, memWrite_apply, behindLogs_afterEvents]; rfl

theorem logBlind_emitOut (v : OutValue) : LogBlind o d e (emitOut v) := fun s =>
  congrArg (EStateM.Result.ok ()) (behindLogs_withOut o d e s v)

theorem logBlind_emitDiag (x : Diagnostic) : LogBlind o d e (emitDiag x) := by
  intro s
  simp [State.behindLogs, mapState]

theorem logBlind_resolveClock : LogBlind o d e resolveClock := by
  refine logBlind_look (fun s => ?_) fun _ => rfl
  cases s.uclk with
  | resolved hz => exact fun _ => rfl
  | unresolved =>
    cases s.clkFact with
    | some hz => exact fun _ => rfl
    | none => exact logBlind_bind (c := update _) (fun _ => rfl) fun _ => logBlind_emitDiag _

theorem logBlind_uartUnit : LogBlind o d e uartUnit := by
  refine logBlind_look (fun s => ?_) fun _ => rfl
  cases s.liveUart <;> exact fun _ => rfl

/-- No line of a command reads a log. -/
theorem lines_logBlind {i : Instr} {c : Cmd α} (h : Lines i c) : LogBlind o d e c := by
  induction h with
  | pure a => exact fun _ => rfl
  | bind _ _ hc hf => exact logBlind_bind hc hf
  | look _ hb hf => exact logBlind_look hf fun s => hb s o d e
  | raise code => exact fun _ => rfl
  | refuse why => exact fun _ => rfl
  | wait hp => exact fun _ => rfl
  | read r => exact logBlind_regRead r
  | write r v => exact logBlind_regWrite r v
  | emit v hr => exact logBlind_emitOut v
  | putPin u hw => exact fun s => congrArg (EStateM.Result.ok ()) (behindLogs_setPin o d e s _ u)
  | putUart u hw => exact fun _ => rfl
  | updateUart f hw => exact fun _ => rfl
  | putI2c u hw => exact fun _ => rfl
  | updateI2c f hw => exact fun _ => rfl
  | resolveClock hw => exact logBlind_resolveClock
  | register hw => exact fun s => congrArg (EStateM.Result.ok ()) (behindLogs_setRegistered o d e s _)
  | bindConsole hw => exact fun _ => rfl
  | putBackUart hw _ _ hc hf =>
    exact logBlind_bind logBlind_uartUnit fun u => logBlind_bind (hc u) fun _ =>
      logBlind_bind (c := putUart u) (fun _ => rfl) fun _ => hf u

/-- No command reads a log. -/
theorem ends_logBlind {i : Instr} {c : Cmd Unit} (h : Ends i c) : LogBlind o d e c := by
  induction h with
  | complete hl => exact fun _ => rfl
  | bind hc _ hf => exact logBlind_bind (lines_logBlind hc) hf
  | look _ hb hf => exact logBlind_look hf fun s => hb s o d e
  | refuse why => exact fun _ => rfl

theorem runCmd_logBlind {c : Cmd Unit} (h : LogBlind o d e c) {s t : State} (hn : runCmd c s = .next t) :
    runCmd c (s.behindLogs o d e) = .next (t.behindLogs o d e) := by
  have hs := h s
  rcases runCmd_next_cases hn with hc | ⟨code, u, hc, rfl⟩ | hc <;> rw [hc] at hs
  · exact runCmd_ok hs
  · rw [runCmd_fatal hs, behindLogs_takeFatal]
  · exact runCmd_poll hs

end Logs

/-! ## The length of a decoded command -/

/-- A decoded command has its own length, and its words are there: the header and `rest` after it. -/
def LenFits (rest : List CmdWord) (r : DecodeResult) : Prop :=
  ∀ i len, r = .command i len → len = i.len ∧ len ≤ 1 + rest.length

section LenFits
variable {rest : List CmdWord}

theorem lenFits_command {i : Instr} (hl : i.len = 1) : LenFits rest (.command i 1) := by
  intro j len h
  injection h with hj hlen
  subst hj hlen
  exact ⟨hl.symm, Nat.le_add_right ..⟩

theorem lenFits_reserved (why : ReservedWhy) : LenFits rest (.reserved why) := fun _ _ h => by cases h

theorem lenFits_unusedZero {zero : Bool} {i : Instr} (hl : i.len = 1) : LenFits rest (unusedZero zero i) := by
  unfold unusedZero
  split
  · exact lenFits_command hl
  · exact lenFits_reserved _

theorem lenFits_withVariant {α : Type} {zero : Bool} {v : Option α} {i : α → Instr} (hl : ∀ x, (i x).len = 1) :
    LenFits rest (withVariant zero v i) := by
  unfold withVariant
  split
  · cases v with
    | some x => exact lenFits_command (hl x)
    | none => exact lenFits_reserved _
  · exact lenFits_reserved _

/-- A payload word holds 8 bytes. -/
theorem flatMap_wordBytes_length (ws : List CmdWord) : (ws.flatMap wordBytes).length = 8 * ws.length := by
  induction ws with
  | nil => rfl
  | cons w ws ih => rw [List.flatMap_cons, List.length_append, ih, List.length_cons]; simp [wordBytes]; omega

/-- A payload of `n` bytes has `n` bytes, and its words are there (R65). -/
theorem payloadOf_some {n : Nat} {bytes : List Byte} (h : payloadOf n rest = some bytes) :
    bytes.length = n ∧ payloadWords n ≤ rest.length := by
  unfold payloadOf at h
  split at h
  · rename_i hle
    dsimp only at h
    split at h
    · injection h with h
      subst h
      refine ⟨?_, hle⟩
      rw [List.length_take, flatMap_wordBytes_length, List.length_take, Nat.min_eq_left hle]
      unfold payloadWords
      omega
    · cases h
  · cases h

theorem lenFits_withPayload {zero : Bool} {n : Nat} {i : List Byte → Instr}
    (hl : ∀ bytes, (i bytes).len = 1 + payloadWords bytes.length) : LenFits rest (withPayload zero n rest i) := by
  unfold withPayload
  split
  · cases hp : payloadOf n rest with
    | some bytes =>
      obtain ⟨hlen, hwords⟩ := payloadOf_some hp
      intro j len h
      injection h with hj hlen'
      subst hj hlen'
      exact ⟨by rw [hl, hlen], by omega⟩
    | none => exact lenFits_reserved _
  · exact lenFits_reserved _

theorem lenFits_decodeLineCtl (a : Byte) (b : BitVec 16) (c : Word) : LenFits rest (decodeLineCtl a b c) := by
  unfold decodeLineCtl
  dsimp only
  split
  · split
    · exact lenFits_reserved _
    · split
      · exact lenFits_command rfl
      · exact lenFits_reserved _
  · exact lenFits_reserved _

theorem lenFits_decodeFields (p : Params) (op a : Byte) (b : BitVec 16) (c : Word) :
    LenFits rest (decodeFields p op a b c rest) := by
  unfold decodeFields
  split
  any_goals exact lenFits_unusedZero rfl
  any_goals exact lenFits_withVariant fun _ => rfl
  any_goals exact lenFits_withPayload fun _ => rfl
  · exact lenFits_decodeLineCtl a b c
  · exact lenFits_command rfl
  · exact lenFits_reserved _

/-- A decoded command has its own length and stands whole in the words. -/
theorem decode_command_len {p : Params} {ws : List CmdWord} {i : Instr} {len : Nat}
    (h : decode p ws = .command i len) : i.len ≤ ws.length := by
  cases ws with
  | nil => cases h
  | cons w rest =>
    obtain ⟨hl, hle⟩ := lenFits_decodeFields p _ _ _ _ i len h
    rw [List.length_cons]
    omega

end LenFits

/-! ## The relations that every effect keeps -/

/-- The bus events from `s` to `t` are on record as they happened. -/
def Recorded (s t : State) : Prop :=
  ∃ evs, t.trace = s.trace ++ evs ∧ answeredBy s.env evs ∧ t.env = envRun s.env evs

theorem recorded_of_eq {s t : State} (htrace : t.trace = s.trace) (henv : t.env = s.env) : Recorded s t :=
  ⟨[], by simp [htrace], trivial, henv⟩

theorem recorded_closed : Closed Recorded where
  refl s := recorded_of_eq rfl rfl
  trans := by
    rintro s t u ⟨xs, hx, hxa, hxe⟩ ⟨ys, hy, hya, hye⟩
    refine ⟨xs ++ ys, by rw [hy, hx, List.append_assoc], ?_, by rw [hye, hxe, envRun_append]⟩
    exact (answeredBy_append _ _ _).2 ⟨hxa, hxe ▸ hya⟩
  read s r d _ _ := ⟨_, rfl, ⟨rfl, trivial⟩, rfl⟩
  write s r d v _ _ := ⟨_, rfl, trivial, rfl⟩
  out s v := recorded_of_eq rfl rfl
  pin s pin u _ _ := recorded_of_eq (setPin_trace ..) (setPin_env ..)
  uart s u := recorded_of_eq rfl rfl
  uartFields s f := recorded_of_eq rfl rfl
  i2c s u _ := recorded_of_eq rfl rfl
  i2cFields s f _ := recorded_of_eq rfl rfl
  clockFact s hz _ _ := recorded_of_eq rfl rfl
  clockDefault s _ _ := recorded_of_eq rfl rfl
  register s ty := by cases ty <;> exact recorded_of_eq rfl rfl
  bind s := recorded_of_eq rfl rfl
  complete s n := recorded_of_eq rfl rfl
  poll s p := recorded_of_eq rfl rfl
  fatal s c := recorded_of_eq rfl rfl

/-- What stays for good: the inputs of the run, and each binding once it is made. -/
structure Stable (s t : State) : Prop where
  stream : t.stream = s.stream
  clkFact : t.clkFact = s.clkFact
  params : t.params = s.params
  mgrUart : s.mgrUart = .registered → t.mgrUart = .registered
  mgrI2c : s.mgrI2c = .registered → t.mgrI2c = .registered
  console : s.console = .bound → t.console = .bound
  uclk : ∀ hz, s.uclk = .resolved hz → t.uclk = .resolved hz

theorem Stable.refl (s : State) : Stable s s := ⟨rfl, rfl, rfl, id, id, id, fun _ => id⟩

theorem stable_closed : Closed Stable where
  refl := Stable.refl
  trans h k :=
    { stream := k.stream.trans h.stream
      clkFact := k.clkFact.trans h.clkFact
      params := k.params.trans h.params
      mgrUart := k.mgrUart ∘ h.mgrUart
      mgrI2c := k.mgrI2c ∘ h.mgrI2c
      console := k.console ∘ h.console
      uclk := fun hz => k.uclk hz ∘ h.uclk hz }
  read s r d _ _ := { Stable.refl s with }
  write s r d v _ _ := { Stable.refl s with }
  out s v := { Stable.refl s with }
  pin s pin u _ _ := by rw [setPin_eq]; exact { Stable.refl s with }
  uart s u := { Stable.refl s with }
  uartFields s f := { Stable.refl s with }
  i2c s u _ := { Stable.refl s with }
  i2cFields s f _ := { Stable.refl s with }
  clockFact s hz hu _ := { Stable.refl s with uclk := fun _ h => by rw [hu] at h; cases h }
  clockDefault s hu _ := { Stable.refl s with uclk := fun _ h => by rw [hu] at h; cases h }
  register s ty := by
    cases ty
    · exact { Stable.refl s with mgrUart := fun _ => rfl }
    · exact { Stable.refl s with mgrI2c := fun _ => rfl }
  bind s := { Stable.refl s with console := fun _ => rfl }
  complete s n := { Stable.refl s with }
  poll s p := { Stable.refl s with }
  fatal s c := { Stable.refl s with }

/-- The part of the invariant that every single effect keeps: the store canonical, the units in their slots, the buffer of its size. -/
structure KeepsUnits (s t : State) : Prop where
  params : t.params = s.params
  memory : memoryWf s.memory = true → memoryWf t.memory = true
  pins : pinsIndexed s → pinsIndexed t
  rxbuf : rxbufSized s → rxbufSized t

theorem KeepsUnits.refl (s : State) : KeepsUnits s s := ⟨rfl, id, id, id⟩

/-- The store is canonical when the environment's is. -/
theorem memory_wf_iff (s : State) :
    memoryWf s.memory = true ↔ ∀ m, s.env = .backingStore m → memoryWf m = true := by
  unfold State.memory
  cases s.env with
  | oracle script n => exact ⟨fun _ _ h => (by cases h), fun _ => rfl⟩
  | backingStore m =>
    constructor
    · intro h m' hm
      cases hm
      exact h
    · intro h
      exact h m rfl

theorem keepsUnits_afterEvents (s : State) (evs : List BusEvent) : KeepsUnits s (s.afterEvents evs) :=
  { KeepsUnits.refl s with
    memory := fun h => (memory_wf_iff _).2 (envRun_wf evs ((memory_wf_iff s).1 h)) }

/-- The units stand in the slots of their indices, read through the slots of R14. -/
theorem pinsIndexed_iff (s : State) :
    pinsIndexed s ↔ ∀ pin u, s.pinSlot pin = some u → u.index.toNat = pin.toNat := by
  constructor
  · intro h pin u hu
    unfold State.pinSlot at hu
    split at hu
    · rename_i hlt
      exact h ⟨pin.toNat, hlt⟩ u hu
    · cases hu
  · intro h k u hu
    have hk : (BitVec.ofNat 8 k.val).toNat = k.val := by
      have hlt : k.val < 58 := k.isLt
      rw [BitVec.toNat_ofNat]
      omega
    have hslot : s.pinSlot (BitVec.ofNat 8 k.val) = some u := by
      unfold State.pinSlot
      rw [dif_pos (by rw [hk]; exact k.isLt)]
      simp only [hk]
      exact hu
    rw [h _ u hslot, hk]

theorem pinsIndexed_setPin {s : State} {pin : Byte} {u : PinUnit} (hlt : pin.toNat < npin)
    (hu : u.index = pin.setWidth 6 ∨ ∃ v, s.pinSlot pin = some v ∧ u.index = v.index) (h : pinsIndexed s) :
    pinsIndexed (s.setPin pin u) := by
  rw [pinsIndexed_iff] at h ⊢
  intro q v hv
  by_cases hq : q = pin
  · subst hq
    rw [pinSlot_setPin_same s q u hlt] at hv
    injection hv with hv
    subst hv
    rcases hu with hu | ⟨w, hw, hu⟩
    · have hq : q.toNat < 58 := hlt
      rw [hu, BitVec.toNat_setWidth]
      omega
    · rw [hu]
      exact h q w hw
  · rw [pinSlot_setPin_other s pin u hq] at hv
    exact h q v hv

theorem keepsUnits_setPin {s : State} {pin : Byte} {u : PinUnit} (hlt : pin.toNat < npin)
    (hu : u.index = pin.setWidth 6 ∨ ∃ v, s.pinSlot pin = some v ∧ u.index = v.index) : KeepsUnits s (s.setPin pin u) where
  params := setPin_params ..
  memory h := by rw [memory_wf_iff, setPin_env, ← memory_wf_iff]; exact h
  pins := pinsIndexed_setPin hlt hu
  rxbuf h v hv := by rw [setPin_params]; exact h v (by rwa [setPin_i2c] at hv)

theorem keepsUnits_closed : Closed KeepsUnits where
  refl := KeepsUnits.refl
  trans h k :=
    { params := k.params.trans h.params
      memory := k.memory ∘ h.memory
      pins := k.pins ∘ h.pins
      rxbuf := k.rxbuf ∘ h.rxbuf }
  read s r d _ _ := keepsUnits_afterEvents s _
  write s r d v _ _ := keepsUnits_afterEvents s _
  out s v := { KeepsUnits.refl s with }
  pin s pin u hlt hu := keepsUnits_setPin hlt hu
  uart s u := { KeepsUnits.refl s with }
  uartFields s f := { KeepsUnits.refl s with }
  i2c s u hu := by
    refine { KeepsUnits.refl s with rxbuf := fun h v hv => ?_ }
    injection hv with hv
    subst hv
    rcases hu with hu | ⟨w, hw, hu⟩
    · exact hu
    · rw [hu]
      exact h w hw
  i2cFields s f hf := by
    refine { KeepsUnits.refl s with rxbuf := fun h v hv => ?_ }
    obtain ⟨w, hw, rfl⟩ := Option.map_eq_some_iff.1 hv
    exact (hf w).trans (h w hw)
  clockFact s hz _ _ := { KeepsUnits.refl s with }
  clockDefault s _ _ := { KeepsUnits.refl s with }
  register s ty := by cases ty <;> exact { KeepsUnits.refl s with }
  bind s := { KeepsUnits.refl s with }
  complete s n := { KeepsUnits.refl s with }
  poll s p := { KeepsUnits.refl s with }
  fatal s c := { KeepsUnits.refl s with }

/-! ## What every step keeps -/

/-- Settles O53: every effect of a command is on record, its reads with the answers given. -/
theorem traceIsWhatHappened : Obligations.TraceIsWhatHappened := by
  intro s t h
  exact step_keeps recorded_closed h

/-- Settles O56: no effect of a command changes an input or takes a binding back. -/
theorem inputsAndBindingsAreStable : Obligations.InputsAndBindingsAreStable := by
  intro s t h
  obtain ⟨hstream, hfact, hparams, huart, hi2c, hconsole, huclk⟩ := step_keeps stable_closed h
  exact ⟨hstream, hfact, hparams, huart, hi2c, hconsole, huclk⟩

/-- Settles O52: the three outcomes of a command, whose lines before them leave `CP` and `HALT` alone. -/
theorem commandPointerAfterACommand : Obligations.CommandPointerAfterACommand := by
  intro i s t hs h
  obtain ⟨u, hf, rfl | ⟨rfl, hp⟩ | ⟨code, rfl⟩⟩ := exec_next_cases h
  · exact .inl ⟨hf.halt.trans hs, by rw [completed_cp, hf.cp], rfl⟩
  · obtain ⟨hpoll, hidle⟩ := pollAt_hasPoll hp
    exact .inr (.inl ⟨hpoll, hf.halt.trans hs, hf.cp, hidle⟩)
  · refine .inr (.inr ⟨code, u.diag, ?_, hf.cp, ?_, rfl⟩)
    · rw [takeFatal_halt, hf.cp]
    · rw [takeFatal_diag, hf.cp]

/-- Settles O55: the lines of a command append its results with its `CP`, and of the outcomes only the fatal condition appends a
note. -/
theorem resultsAreAppendedAndTagged : Obligations.ResultsAreAppendedAndTagged := by
  intro i s t h
  obtain ⟨u, hf, ho⟩ := exec_next_cases h
  obtain ⟨os, hos, htag, hnone⟩ := hf.out
  obtain ⟨ds, hds⟩ := hf.diag
  rcases ho with rfl | ⟨rfl, _⟩ | ⟨code, rfl⟩
  · exact ⟨os, ds, hos, hds, htag, hnone⟩
  · exact ⟨os, ds, hos, hds, htag, hnone⟩
  · exact ⟨os, ds ++ [.fatalAt code u.cp], hos, by rw [takeFatal_diag, hds, List.append_assoc], htag, hnone⟩

/-- The outcome of a command changes no unit. -/
theorem outcomes_units {i : Instr} {u t : State} (h : Outcomes i u t) :
    (∀ pin, t.pinSlot pin = u.pinSlot pin) ∧ t.uart = u.uart ∧ t.i2c = u.i2c ∧ t.uclk = u.uclk ∧
      t.mgrUart = u.mgrUart ∧ t.mgrI2c = u.mgrI2c ∧ t.console = u.console := by
  rcases h with rfl | ⟨rfl, _⟩ | ⟨code, rfl⟩
  · exact ⟨fun _ => rfl, rfl, rfl, rfl, rfl, rfl, rfl⟩
  · exact ⟨fun _ => rfl, rfl, rfl, rfl, rfl, rfl, rfl⟩
  · exact ⟨fun _ => rfl, rfl, rfl, rfl, rfl, rfl, rfl⟩

/-- Settles O57: the units a command may not write are in its frame, and no outcome changes a unit. -/
theorem unitsHaveTheirWriters : Obligations.UnitsHaveTheirWriters := by
  intro i s t h
  obtain ⟨u, hf, ho⟩ := exec_next_cases h
  obtain ⟨hpins, huart, hi2c, huclk, hmu, hmi, hconsole⟩ := outcomes_units ho
  refine ⟨fun pin hp => (hpins pin).trans (hf.pins pin hp), fun hw => huart.trans (hf.uart hw),
    fun hw => hi2c.trans (hf.i2c hw), fun hw => huclk.trans (hf.clock hw), fun hw => ?_,
    fun hw => hconsole.trans (hf.console hw)⟩
  obtain ⟨hu, hi⟩ := hf.managers hw
  exact ⟨hmu.trans hu, hmi.trans hi⟩

/-- Settles O59: no line of a command looks at a log. -/
theorem logsAreNeverRead : Obligations.LogsAreNeverRead := by
  intro i s t o d e h
  obtain ⟨c, he, hc⟩ := exec_ends i
  rw [he] at h ⊢
  exact runCmd_logBlind (ends_logBlind hc) h

/-- A poll that the command at `CP` may repeat fits the state. -/
theorem progressFits_of_pollAt {s : State} {i : Instr} {len : Nat} (hd : decode s.params s.fetch = .command i len)
    (hp : pollAt i s.progress) : progressFits s := by
  unfold progressFits
  rw [hd]
  unfold pollAt at hp
  split at hp
  · rename_i hs
    rw [hs]
    exact hp
  · rename_i hs
    rw [hs]
    exact hp
  · rename_i hs
    rw [hs]
    exact hp
  · exact hp.elim

theorem progressFits_of_idle {s : State} (h : s.progress = .idle) : progressFits s := by
  unfold progressFits
  rw [h]
  trivial

/-- `CP`, `HALT` and the poll after a step: it completes within the stream, waits at the command, or halts there. -/
theorem step_control {s t : State} (h : step s = .next t) :
    t.cp ≤ s.stream.length ∧ haltAtCp t ∧ progressFits t := by
  obtain ⟨hhalt, hcp, i, len, hd, he⟩ := step_next_cases h
  obtain ⟨hstream, _, hparams, _⟩ := inputsAndBindingsAreStable s t h
  obtain ⟨u, hf, rfl | ⟨rfl, hp⟩ | ⟨code, rfl⟩⟩ := exec_next_cases he
  · have hlen : i.len ≤ s.stream.length - s.cp := by
      simpa only [State.fetch, List.length_drop] using decode_command_len hd
    refine ⟨by rw [completed_cp, hf.cp]; omega, fun r hr => ?_, progressFits_of_idle rfl⟩
    rw [completed_halt, hf.halt, hhalt] at hr
    cases hr
  · refine ⟨by rw [hf.cp]; omega, fun r hr => ?_, progressFits_of_pollAt (i := i) (len := len) ?_ hp⟩
    · rw [hf.halt, hhalt] at hr
      cases hr
    · rw [State.fetch, hstream, hparams, hf.cp]
      exact hd
  · refine ⟨by rw [takeFatal_cp, hf.cp]; omega, fun r hr => ?_, progressFits_of_idle rfl⟩
    injection hr with hr
    rw [← hr]
    rfl

/-- Settles O50: every effect keeps the store and the units, and the step's outcome keeps `CP`, `HALT` and the poll. -/
theorem stepKeepsTheInvariant : Obligations.StepKeepsTheInvariant := by
  intro s t hs h
  obtain ⟨_, hmemory, hpins, hrxbuf⟩ := step_keeps keepsUnits_closed h
  obtain ⟨hcp, hhalt, hprogress⟩ := step_control h
  obtain ⟨hstream, _⟩ := inputsAndBindingsAreStable s t h
  exact
    { memory := hmemory hs.memory
      pins := hpins hs.pins
      rxbuf := hrxbuf hs.rxbuf
      cpBound := by rw [hstream]; exact hcp
      halt := hhalt
      progress := hprogress }

/-! ## Reset and the start of a run -/

/-- No pin unit exists at reset. -/
theorem reset_pinSlot (pin : Byte) : State.reset.pinSlot pin = none := by
  unfold State.pinSlot
  split
  · exact Vector.getElem_replicate _
  · rfl

/-- Settles O6: the reset state of R46 and R154, field by field. -/
theorem resetState : Obligations.ResetState :=
  ⟨reset_pinSlot, rfl, rfl, rfl, rfl, rfl, rfl, rfl, rfl, rfl, rfl, rfl⟩

/-- Settles O12: every entry of the default tables, evaluated. -/
theorem defaultRegisterMap : Obligations.DefaultRegisterMap :=
  ⟨rfl, rfl, rfl, rfl, rfl, rfl, rfl, rfl, rfl, rfl, rfl, rfl, rfl, rfl, rfl, rfl, rfl, rfl, rfl⟩

/-- The start of a run has the invariant when its store is canonical (R46, R54, R155). -/
theorem configured_inv (p : Params) (stream : List CmdWord) (clkFact : Option Word) {env : Env}
    (henv : ∀ m, env = .backingStore m → memoryWf m = true) :
    ({ State.reset with params := p, stream := stream, clkFact := clkFact, env := env } : State).Inv where
  memory := (memory_wf_iff _).2 henv
  pins := by
    rw [pinsIndexed_iff]
    intro pin u hu
    cases (reset_pinSlot pin).symm.trans hu
  rxbuf u hu := by cases hu
  cpBound := Nat.zero_le _
  halt r hr := by cases hr
  progress := progressFits_of_idle rfl

/-- Parameters that R56 and R146 forbid are not accepted. -/
theorem paramsOk_false {p : Params} (h : (∃ b ∈ p.irqBanks, b.address.toNat % 4 ≠ 0) ∨ (∀ b ∈ p.irqBanks, b.label ≠ 3) ∨
    (∃ e ∈ p.irqSubvariant, ∃ v ∈ e.variants, v.mask = 0#32)) : paramsOk p = false := by
  rw [Bool.eq_false_iff]
  intro hok
  have hirq : irqTablesOk p = true := (Bool.and_eq_true_iff.1 hok).2
  simp only [irqTablesOk, Bool.and_eq_true, List.all_eq_true, List.any_eq_true, beq_iff_eq, decide_eq_true_eq, aligned4]
    at hirq
  obtain ⟨⟨⟨haligned, bank, hbank, hlabel⟩, _⟩, hmasks⟩ := hirq
  rcases h with ⟨b, hb, hmis⟩ | hnone | ⟨e, he, v, hv, hzero⟩
  · exact hmis (haligned b hb)
  · exact hnone bank hbank hlabel
  · exact hmasks e he v hv hzero

/-- Settles O51: reset is a configured run with the reset inputs, and `configure` refuses what `paramsOk` does. -/
theorem resetHasTheInvariant : Obligations.ResetHasTheInvariant := by
  have refused (p : Params) (stream : List CmdWord) (clkFact : Option Word) (env : Env) (h : paramsOk p = false) :
      State.configure p stream clkFact env = .refused .badParameter := by
    rw [State.configure, h]
    rfl
  refine ⟨configured_inv .default [] none (fun _ h => by cases h), fun p stream clkFact env => ⟨fun h => ?_, ?_,
    refused p stream clkFact env, fun h => refused p stream clkFact env (paramsOk_false h)⟩⟩
  · rw [State.configure, if_pos h]
  · intro t henv ht
    unfold State.configure at ht
    split at ht
    · injection ht with ht
      exact ht ▸ configured_inv p stream clkFact henv
    · cases ht

end Sys2Proof.Machine

/-!
Proofs of the statements about the bus and the store (20_memory.md). First the addresses of the tables (R49, R56), then what bus
events do to the store (R54), which commands leave it alone, and the raw accesses; then the statements.
-/

namespace Sys2Proof.Machine

/-! ## The addresses of the tables -/

theorem aligned4_iff (a : Word) : aligned4 a = true ↔ a.toNat % 4 = 0 := decide_eq_true_iff

/-- The conditions on the parameters of a run, one per block. -/
theorem paramsOk_iff (p : Params) : paramsOk p = true ↔
    offsetsOk (gpioOffsets p.gpio) = true ∧ offsetsOk (uartOffsets p.uart) = true ∧ offsetsOk (i2cOffsets p.i2c) = true ∧
      irqTablesOk p = true := by
  simp only [paramsOk, Bool.and_eq_true, and_assoc]

theorem offsetsOk_aligned {offsets : List Word} (h : offsetsOk offsets = true) {o : Word} (ho : o ∈ offsets) :
    o.toNat % 4 = 0 := by
  unfold offsetsOk at h
  obtain ⟨haligned, _⟩ := (Bool.and_eq_true _ _).mp h
  exact (aligned4_iff o).1 (List.all_eq_true.1 haligned o ho)

theorem irqTablesOk_aligned {p : Params} (h : irqTablesOk p = true) {b : IrqBank} (hb : b ∈ p.irqBanks) :
    b.address.toNat % 4 = 0 := by
  simp only [irqTablesOk, Bool.and_eq_true] at h
  obtain ⟨⟨⟨haligned, _⟩, _⟩, _⟩ := h
  exact (aligned4_iff _).1 (List.all_eq_true.1 haligned b hb)

theorem gpio_offset_mem {t : GpioTable} {r : GpioReg} {d : Desc} (h : t.desc r = some d) : d.offset ∈ gpioOffsets t :=
  List.mem_map_of_mem (List.mem_filterMap.2 ⟨r, by cases r <;> decide, h⟩)

theorem uart_offset_mem (t : UartTable) (r : UartReg) : (t.desc r).offset ∈ uartOffsets t :=
  List.mem_map_of_mem (List.mem_map_of_mem (by cases r <;> decide))

theorem i2c_offset_mem (t : I2cTable) (r : I2cReg) : (t.desc r).offset ∈ i2cOffsets t :=
  List.mem_map_of_mem (List.mem_map_of_mem (by cases r <;> decide))

/-- An effective address is taken in 32 bits (R50), which keeps multiples of 4. -/
theorem effective_aligned {base offset : Word} (hb : base.toNat % 4 = 0) (ho : offset.toNat % 4 = 0) :
    (base + offset).toNat % 4 = 0 := by
  rw [BitVec.toNat_add]
  omega

/-- With parameters a run may have, every register stands at a multiple of 4 (R56). -/
theorem portOf_aligned {p : Params} (hok : paramsOk p = true) {r : Reg} {d : Port} (h : portOf p r = some d) :
    d.addr.toNat % 4 = 0 := by
  obtain ⟨hgpio, huart, hi2c, hirq⟩ := (paramsOk_iff p).1 hok
  cases r with
  | gpio g =>
    obtain ⟨e, he, rfl⟩ := Option.map_eq_some_iff.1 h
    exact effective_aligned rfl (offsetsOk_aligned hgpio (gpio_offset_mem he))
  | uart u =>
    injection h with h
    subst h
    exact effective_aligned rfl (offsetsOk_aligned huart (uart_offset_mem ..))
  | i2c i =>
    injection h with h
    subst h
    exact effective_aligned rfl (offsetsOk_aligned hi2c (i2c_offset_mem ..))
  | pend k =>
    obtain ⟨b, hb, rfl⟩ := Option.map_eq_some_iff.1 h
    exact irqTablesOk_aligned hirq (List.mem_of_getElem? hb)
  | secstat =>
    injection h with h
    subst h
    exact (by decide : secstatAddr.toNat % 4 = 0)

/-! ## Only registers are touched -/

/-- The bus events from `s` to `t` are at addresses of the tables, which stay the same. -/
structure TouchesRegisters (s t : State) : Prop where
  params : t.params = s.params
  events : ∃ evs, t.trace = s.trace ++ evs ∧ ∀ e ∈ evs, isRegisterAddr s.params e.addr

/-- An effect without a bus event. -/
theorem touchesRegisters_of_eq {s t : State} (hparams : t.params = s.params) (htrace : t.trace = s.trace) :
    TouchesRegisters s t := ⟨hparams, [], by simp [htrace]⟩

/-- One access to the port of a register. -/
theorem touchesRegisters_access {s : State} {r : Reg} {d : Port} (hd : portOf s.params r = some d) {e : BusEvent}
    (he : e.addr = d.addr) : TouchesRegisters s (s.afterEvents [e]) := by
  refine ⟨rfl, [e], rfl, fun x hx => ?_⟩
  rw [List.mem_singleton.1 hx, he]
  exact ⟨r, d.perm, hd⟩

theorem touchesRegisters_closed : Closed TouchesRegisters where
  refl s := touchesRegisters_of_eq rfl rfl
  trans := by
    rintro s t u ⟨hp, xs, hx, hxr⟩ ⟨kp, ys, hy, hyr⟩
    refine ⟨kp.trans hp, xs ++ ys, by rw [hy, hx, List.append_assoc], fun e he => ?_⟩
    rcases List.mem_append.1 he with he | he
    · exact hxr e he
    · exact hp ▸ hyr e he
  read s r d hd _ := touchesRegisters_access hd rfl
  write s r d v hd _ := touchesRegisters_access hd rfl
  out s v := touchesRegisters_of_eq rfl rfl
  pin s pin u _ _ := touchesRegisters_of_eq (setPin_params ..) (setPin_trace ..)
  uart s u := touchesRegisters_of_eq rfl rfl
  uartFields s f := touchesRegisters_of_eq rfl rfl
  i2c s u _ := touchesRegisters_of_eq rfl rfl
  i2cFields s f _ := touchesRegisters_of_eq rfl rfl
  clockFact s hz _ _ := touchesRegisters_of_eq rfl rfl
  clockDefault s _ _ := touchesRegisters_of_eq rfl rfl
  register s ty := by cases ty <;> exact touchesRegisters_of_eq rfl rfl
  bind s := touchesRegisters_of_eq rfl rfl
  complete s n := touchesRegisters_of_eq rfl rfl
  poll s p := touchesRegisters_of_eq rfl rfl
  fatal s c := touchesRegisters_of_eq rfl rfl

/-! ## Bus events and the store -/

/-- The store is part of the environment. -/
theorem memory_of_env {s t : State} (h : t.env = s.env) : t.memory = s.memory := by
  unfold State.memory
  rw [h]

theorem memory_backingStore {s : State} {m : Memory} (h : s.env = .backingStore m) : s.memory = m := by
  unfold State.memory
  rw [h]

/-- A read leaves the store alone, whatever the environment. -/
theorem memory_afterRead (s : State) (w v : Word) : (s.afterEvents [.rd w v]).memory = s.memory := by
  unfold State.memory
  rw [afterEvents_env]
  match s.env with
  | .oracle [] _ => rfl
  | .oracle (_ :: _) _ => rfl
  | .backingStore _ => rfl

/-- A write changes at most the four bytes of its word: the hardware's environment exposes no store (R52), and BackingStore
stores the word (R54). -/
theorem byteAt_afterWrite {s : State} (hwf : memoryWf s.memory = true) {w v : Word} {a : Nat}
    (ha : ∀ k < 4, a ≠ byteAddr w k) : (s.afterEvents [.wr w v]).byteAt a = s.byteAt a := by
  unfold State.byteAt
  cases henv : s.env with
  | oracle script n =>
    have hsame : (s.afterEvents [.wr w v]).env = s.env := by rw [afterEvents_env, henv]; rfl
    rw [memory_of_env hsame]
  | backingStore m =>
    have hstored : (s.afterEvents [.wr w v]).env = .backingStore (writeWord m w v) := by rw [afterEvents_env, henv]; rfl
    rw [memory_backingStore henv] at hwf
    rw [memory_backingStore hstored, memory_backingStore henv]
    exact readByte_writeWord_other hwf ha

/-- Every byte outside the words written by a list of bus events is as before. -/
theorem byteAt_afterEvents {s : State} {evs : List BusEvent} (hwf : memoryWf s.memory = true) {a : Nat}
    (ha : ∀ w v k, BusEvent.wr w v ∈ evs → k < 4 → a ≠ byteAddr w k) : (s.afterEvents evs).byteAt a = s.byteAt a := by
  induction evs generalizing s with
  | nil => rw [afterEvents_nil]
  | cons e evs ih =>
    have hwf' : memoryWf (s.afterEvents [e]).memory = true := (keepsUnits_afterEvents s [e]).memory hwf
    have hrest : ((s.afterEvents [e]).afterEvents evs).byteAt a = (s.afterEvents [e]).byteAt a :=
      ih hwf' fun w v k hw => ha w v k (List.mem_cons_of_mem _ hw)
    rw [afterEvents_append] at hrest
    refine hrest.trans ?_
    cases e with
    | rd w v =>
      unfold State.byteAt
      rw [memory_afterRead]
    | wr w v => exact byteAt_afterWrite hwf fun k => ha w v k (List.mem_cons_self ..)

/-- Words at different multiples of 4 have no byte in common. -/
theorem byteAddr_disjoint {a b : Word} (ha : a.toNat % 4 = 0) (hb : b.toNat % 4 = 0) (hne : b ≠ a) {i j : Nat} (hi : i < 4)
    (hj : j < 4) : byteAddr b i ≠ byteAddr a j := by
  have hnat : b.toNat ≠ a.toNat := fun h => hne (BitVec.eq_of_toNat_eq h)
  have halt := a.isLt
  have hblt := b.isLt
  unfold byteAddr
  omega

/-- Storing a word leaves every other aligned word as it was. -/
theorem readWord_writeWord_other {m : Memory} (hm : memoryWf m = true) {a b : Word} (v : Word) (ha : a.toNat % 4 = 0)
    (hb : b.toNat % 4 = 0) (hne : b ≠ a) : readWord (writeWord m a v) b = readWord m b := by
  have hbyte (i : Nat) (hi : i < 4) : readByte (writeWord m a v) (byteAddr b i) = readByte m (byteAddr b i) :=
    readByte_writeWord_other hm fun j hj => byteAddr_disjoint ha hb hne hi hj
  unfold readWord
  rw [hbyte 0 (by decide), hbyte 1 (by decide), hbyte 2 (by decide), hbyte 3 (by decide)]

/-! ## The commands that write nothing -/

/-- The store is the same in both states. No `Closed` relation: a write does not keep it. -/
def SameStore (s t : State) : Prop := t.memory = s.memory

section SameStore
variable {α β : Type}

/-- Two lines in order: the calculus of `Keeps` asks for no `Closed` relation here. -/
theorem sameStore_bind {c : Cmd α} {f : α → Cmd β} (hc : Keeps SameStore c) (hf : ∀ a, Keeps SameStore (f a)) :
    Keeps SameStore (c >>= f) := by
  intro s
  have h := hc s
  rw [bind_apply]
  cases hcs : c s with
  | ok a t =>
    rw [hcs] at h
    exact (hf a t).trans h
  | error e t =>
    rw [hcs] at h
    exact h

theorem sameStore_pure (a : α) : Keeps SameStore (pure a : Cmd α) := fun _ => rfl
theorem sameStore_raise (code : FatalCode) : Keeps SameStore (raiseFatal code : Cmd α) := fun _ => rfl
theorem sameStore_refuse (why : RefuseWhy) : Keeps SameStore (refuse why : Cmd α) := fun _ => rfl
theorem sameStore_complete (n : Nat) : Keeps SameStore (complete n) := fun _ => rfl
theorem sameStore_emitOut (v : OutValue) : Keeps SameStore (emitOut v) := fun _ => rfl
theorem sameStore_putUart (u : UartUnit) : Keeps SameStore (putUart u) := fun _ => rfl
theorem sameStore_putI2c (u : I2cUnit) : Keeps SameStore (putI2c u) := fun _ => rfl
theorem sameStore_putPin (pin : Byte) (u : PinUnit) : Keeps SameStore (putPin pin u) :=
  fun _ => memory_of_env (setPin_env ..)

theorem sameStore_whenever {p : Bool} {c : Cmd Unit} (hc : Keeps SameStore c) : Keeps SameStore (whenever p c) :=
  keeps_ite hc (sameStore_pure _)

theorem sameStore_requireUnit (u : Option α) : Keeps SameStore (requireUnit u) := by
  cases u
  · exact sameStore_refuse _
  · exact sameStore_pure _

theorem sameStore_pinUnit (pin : Byte) : Keeps SameStore (pinUnit pin) := keeps_getState fun _ => sameStore_requireUnit _
theorem sameStore_uartUnit : Keeps SameStore uartUnit := keeps_getState fun _ => sameStore_requireUnit _
theorem sameStore_i2cUnit : Keeps SameStore i2cUnit := keeps_getState fun _ => sameStore_requireUnit _

theorem sameStore_requireEncodable (r : Reg) : Keeps SameStore (requireEncodable r) :=
  keeps_getState fun _ => keeps_ite (sameStore_pure _) (sameStore_refuse _)

theorem sameStore_requireDriver (ty : DriverType) : Keeps SameStore (requireDriver ty) := by
  cases ty
  · exact sameStore_bind sameStore_uartUnit fun _ => sameStore_pure _
  · exact sameStore_bind sameStore_i2cUnit fun _ => sameStore_pure _

theorem sameStore_register (ty : DriverType) : Keeps SameStore (update (setRegistered ty)) := by
  cases ty <;> exact fun _ => rfl

theorem sameStore_regRead (r : Reg) : Keeps SameStore (regRead r) := by
  intro s
  rcases regRead_cases r s with ⟨d, _, _, h⟩ | ⟨d, _, _, h⟩ | ⟨_, h⟩ <;> rw [h]
  · exact memory_afterRead ..
  · rfl
  · rfl

theorem sameStore_resolveClock : Keeps SameStore resolveClock := by
  intro s
  rcases resolveClock_cases s with ⟨_, _, h⟩ | ⟨_, _, _, h⟩ | ⟨_, _, h⟩ <;> rw [h] <;> rfl

theorem sameStore_clockHz : Keeps SameStore clockHz := by
  refine keeps_getState fun s => ?_
  cases s.uclk
  · exact sameStore_refuse _
  · exact sameStore_pure _

theorem sameStore_baudDiv (clock target : Word) : Keeps SameStore (baudDiv clock target) :=
  keeps_ite (sameStore_refuse _) (keeps_ite (sameStore_raise _) (keeps_ite (sameStore_pure _) (sameStore_raise _)))

theorem sameStore_emitAll (vs : List OutValue) : Keeps SameStore (emitAll vs) := by
  induction vs with
  | nil => exact sameStore_pure _
  | cons v vs ih => exact sameStore_bind (sameStore_emitOut v) fun _ => ih

theorem sameStore_classifyFamily (k : Nat) : Keeps SameStore (classifyFamily k) := by
  refine keeps_getState fun s => ?_
  cases familyOf s.params.irqFamilyBit k
  · exact sameStore_pure _
  · exact sameStore_bind (sameStore_regRead _) fun _ => sameStore_emitAll _

theorem sameStore_classifyBit (label k : Nat) : Keeps SameStore (classifyBit label k) := by
  refine keeps_getState fun s => keeps_ite (sameStore_classifyFamily k) ?_
  cases knownName s.params.irqKnown label k
  · exact sameStore_pure _
  · exact sameStore_emitOut _

theorem sameStore_classifyBits (label : Nat) (w : Word) (ks : List Nat) : Keeps SameStore (classifyBits label w ks) := by
  induction ks with
  | nil => exact sameStore_pure _
  | cons k ks ih => exact sameStore_bind (sameStore_whenever (sameStore_classifyBit label k)) fun _ => ih

theorem sameStore_dispatchBanks (n : Nat) (bs : List IrqBank) : Keeps SameStore (dispatchBanks n bs) := by
  induction bs generalizing n with
  | nil => exact sameStore_pure _
  | cons b bs ih =>
    exact sameStore_bind (sameStore_regRead _) fun _ =>
      sameStore_bind (sameStore_whenever (sameStore_classifyBits _ _ _)) fun _ => ih _

/-- No outcome of a command touches the store. -/
theorem runCmd_sameStore {c : Cmd Unit} (hc : Keeps SameStore c) {s t : State} (h : runCmd c s = .next t) :
    SameStore s t := by
  have hs := hc s
  rcases runCmd_next_cases h with hc | ⟨code, u, hc, rfl⟩ | hc <;> rw [hc] at hs
  · exact hs
  · exact hs
  · exact hs

/-- Every command that writes nothing to the bus leaves the store as it was. -/
theorem exec_sameStore {i : Instr} (hw : writesNoBus i = true) {s t : State} (h : exec i s = .next t) : SameStore s t := by
  have fin : Keeps SameStore (complete 1) := sameStore_complete 1
  cases i with
  | regRead r =>
    exact runCmd_sameStore (sameStore_bind (sameStore_requireEncodable r) fun _ =>
      sameStore_bind (sameStore_regRead r) fun _ => sameStore_bind (sameStore_emitOut _) fun _ => fin) h
  | mgrRegister ty =>
    exact runCmd_sameStore (sameStore_bind (sameStore_requireDriver ty) fun _ =>
      sameStore_bind (sameStore_register ty) fun _ => fin) h
  | consoleBind =>
    have bound : Keeps SameStore (update fun s => { s with console := .bound }) := fun _ => rfl
    exact runCmd_sameStore (sameStore_bind sameStore_uartUnit fun _ => sameStore_bind bound fun _ => fin) h
  | gpioNew pin f pull level =>
    exact runCmd_sameStore (sameStore_bind (sameStore_whenever (sameStore_raise _)) fun _ => keeps_getState fun _ =>
      sameStore_bind (sameStore_whenever (sameStore_refuse _)) fun _ => sameStore_bind (sameStore_putPin _ _) fun _ => fin) h
  | gpioSample pin =>
    exact runCmd_sameStore (sameStore_bind (sameStore_pinUnit pin) fun _ => sameStore_bind (sameStore_regRead _) fun _ =>
      sameStore_bind (sameStore_putPin _ _) fun _ => sameStore_bind (sameStore_emitOut _) fun _ => fin) h
  | gpioEdge pin =>
    exact runCmd_sameStore (sameStore_bind (sameStore_pinUnit pin) fun _ => sameStore_bind (sameStore_regRead _) fun _ =>
      sameStore_bind (sameStore_emitOut _) fun _ => fin) h
  | uartNew p w st baud =>
    exact runCmd_sameStore (keeps_getState fun _ => sameStore_bind (sameStore_whenever (sameStore_refuse _)) fun _ =>
      sameStore_bind (sameStore_putUart _) fun _ => fin) h
  | uartResolveClk => exact runCmd_sameStore (sameStore_bind sameStore_resolveClock fun _ => fin) h
  | uartBaudDiv target =>
    exact runCmd_sameStore (sameStore_bind sameStore_uartUnit fun _ => sameStore_bind sameStore_clockHz fun _ =>
      sameStore_bind (sameStore_baudDiv _ _) fun _ => sameStore_bind (sameStore_emitOut _) fun _ => fin) h
  | uartCharsWritten =>
    exact runCmd_sameStore (sameStore_bind sameStore_uartUnit fun _ => sameStore_bind (sameStore_emitOut _) fun _ => fin) h
  | uartRelease =>
    exact runCmd_sameStore (sameStore_bind sameStore_uartUnit fun _ => sameStore_bind (sameStore_putUart _) fun _ => fin) h
  | i2cNew timeout clock =>
    exact runCmd_sameStore (keeps_getState fun _ => sameStore_bind (sameStore_whenever (sameStore_refuse _)) fun _ =>
      sameStore_bind (sameStore_putI2c _) fun _ => fin) h
  | i2cRelease =>
    exact runCmd_sameStore (sameStore_bind sameStore_i2cUnit fun _ => sameStore_bind (sameStore_putI2c _) fun _ => fin) h
  | irqDispatch =>
    exact runCmd_sameStore (keeps_getState fun _ => sameStore_bind (sameStore_dispatchBanks _ _) fun _ => fin) h
  | _ => cases hw

end SameStore

/-! ## The raw accesses -/

section RawAccess
variable {s : State} {r : Reg} {a : Word}

/-- A register of the tables has an encoding (R69). -/
theorem requireEncodable_ok (hr : s.params.hasReg r = true) : requireEncodable r s = .ok () s := by
  rw [requireEncodable, getState_bind, if_pos hr, pure_apply]

/-- REG_READ of a readable register (R78). -/
theorem exec_regRead_readable (hr : s.params.hasReg r = true) (ha : s.readableAt r a) :
    exec (.regRead r) s =
      .next (((s.afterEvents [.rd a (envAnswer s.env a)]).withOut (.word (envAnswer s.env a))).completed 1) :=
  runCmd_ok (bind_eq (requireEncodable_ok hr) (bind_eq (regRead_ok ha) rfl))

/-- REG_WRITE of a writable register (R79). -/
theorem exec_regWrite_writable (hr : s.params.hasReg r = true) (ha : s.writableAt r a) (v : Word) :
    exec (.regWrite r v) s = .next ((s.afterEvents [.wr a v]).completed 1) :=
  runCmd_ok (bind_eq (requireEncodable_ok hr) (bind_eq (regWrite_ok ha) rfl))

end RawAccess

/-! ## The statements -/

/-- Settles O54: every effect of a command keeps to the addresses of the tables, and `paramsOk` aligns those. -/
theorem onlyRegistersAreTouched : Obligations.OnlyRegistersAreTouched := by
  intro s t h
  obtain ⟨_, evs, htrace, hregs⟩ := step_keeps touchesRegisters_closed h
  refine ⟨evs, htrace, fun e he => ⟨hregs e he, fun hok => ?_⟩⟩
  obtain ⟨r, perm, hport⟩ := hregs e he
  exact portOf_aligned hok hport

/-- Settles O58: the environment saw exactly the events of the command, and a command of `writesNoBus` has no write among its
lines. -/
theorem storeFrame : Obligations.StoreFrame := by
  intro i s t hwf h
  refine ⟨fun evs a htrace ha => ?_, fun hw a => congrArg (readByte · a) (exec_sameStore hw h)⟩
  obtain ⟨evs', htrace', _, henv⟩ := exec_keeps recorded_closed h
  obtain rfl : evs' = evs := List.append_cancel_left (htrace'.symm.trans htrace)
  have hmemory : t.memory = (s.afterEvents evs').memory := memory_of_env henv
  calc t.byteAt a = (s.afterEvents evs').byteAt a := congrArg (readByte · a) hmemory
    _ = s.byteAt a := byteAt_afterEvents hwf ha

/-- Settles O11: the write stores the word, so the read answers it, and no other aligned word shares a byte with it. -/
theorem backingStorePersists : Obligations.BackingStorePersists := by
  intro s t r a v m hr hport henv hwf h
  rw [exec_regWrite_writable hr ⟨.readWrite, hport, by decide⟩ v] at h
  injection h with h
  have hstored : t.env = .backingStore (writeWord m a v) := by
    rw [← h, completed_env, afterEvents_env, henv]
    rfl
  have hparams : t.params = s.params := by
    rw [← h]
    rfl
  have hanswer : envAnswer t.env a = v := by
    rw [hstored]
    exact readWord_writeWord a v hwf
  constructor
  · have hread := exec_regRead_readable (s := t) (r := r) (a := a) (by rw [hparams]; exact hr)
      ⟨.readWrite, by rw [hparams]; exact hport, by decide⟩
    rwa [hanswer] at hread
  · intro b ha hb hne
    rw [memory_backingStore hstored]
    exact readWord_writeWord_other hwf v ha hb hne

end Sys2Proof.Machine

/-!
Proofs of the statements about the encoding (30_encoding.md). First the fields of a word, the payload of R65 and the codes of R68 and
R69, mostly as equivalences that both round trips use; then what a row of the opcode map decodes, the line-control word, and the
statements.
-/

namespace Sys2Proof.Machine

/-! ## The fields of a word -/

/-- Two neighbouring fields of a word make one. -/
theorem append_extractLsb' {w : Nat} {x : BitVec w} (s n m : Nat) {y : BitVec m} (hy : y = x.extractLsb' (s + n) m) :
    y ++ x.extractLsb' s n = x.extractLsb' s (m + n) :=
  hy ▸ BitVec.extractLsb'_append_extractLsb'_eq_extractLsb' rfl

/-- A word is a concatenation exactly when its fields are the parts. -/
theorem eq_append_iff (m n : Nat) {x : BitVec (m + n)} {hi : BitVec m} {lo : BitVec n} :
    x = hi ++ lo ↔ x.extractLsb' n m = hi ∧ x.extractLsb' 0 n = lo := by
  constructor
  · rintro rfl
    exact ⟨BitVec.extractLsb'_append_eq_left, BitVec.extractLsb'_append_eq_right⟩
  · rintro ⟨rfl, rfl⟩
    exact BitVec.extractLsb'_append_extractLsb'.symm

theorem eq_append_four_iff (k l m n : Nat) {x : BitVec (k + l + m + n)} {a : BitVec k} {b : BitVec l} {c : BitVec m}
    {d : BitVec n} :
    x = a ++ b ++ c ++ d ↔
      x.extractLsb' (n + m + l) k = a ∧ x.extractLsb' (n + m) l = b ∧ x.extractLsb' n m = c ∧ x.extractLsb' 0 n = d := by
  constructor
  · rintro rfl
    simp [BitVec.extractLsb'_append_eq_of_le, BitVec.extractLsb'_append_eq_of_add_le, Nat.add_assoc]
  · rintro ⟨rfl, rfl, rfl, rfl⟩
    rw [append_extractLsb' (n + m) l k rfl, append_extractLsb' n m _ rfl, append_extractLsb' 0 n _ (by rw [Nat.zero_add]),
      BitVec.extractLsb'_eq_self]

/-- Field `A` of the line settings (R66). -/
theorem eq_lineField_iff {a : Byte} {pk wk : BitVec 2} {sk : BitVec 1} :
    a = lineField pk wk sk ↔
      a.extractLsb' 5 3 = 0#3 ∧ a.extractLsb' 4 1 = sk ∧ a.extractLsb' 2 2 = wk ∧ a.extractLsb' 0 2 = pk :=
  eq_append_four_iff 3 1 2 2

/-- Field `B` of GPIO_NEW (R66). -/
theorem eq_gpioNewField_iff {b : BitVec 16} {f : BitVec 3} {pull : BitVec 2} {level : BitVec 1} :
    b = 0#10 ++ level ++ pull ++ f ↔
      b.extractLsb' 6 10 = 0#10 ∧ b.extractLsb' 5 1 = level ∧ b.extractLsb' 3 2 = pull ∧ b.extractLsb' 0 3 = f :=
  eq_append_four_iff 10 1 2 3

theorem extractLsb'_one_eq_ofBool_iff {n : Nat} {x : BitVec n} {i : Nat} {v : Bool} :
    x.extractLsb' i 1 = BitVec.ofBool v ↔ x.getLsbD i = v := by
  rw [BitVec.getLsbD_eq_extractLsb']
  generalize x.extractLsb' i 1 = y
  revert y v
  decide

/-- Field `B` of UART_LINE_CTL: the presence bits (R66). -/
theorem eq_presenceField_iff {b : BitVec 16} {stop wlen parity : Bool} :
    b = 0#13 ++ BitVec.ofBool stop ++ BitVec.ofBool wlen ++ BitVec.ofBool parity ↔
      b.extractLsb' 3 13 = 0#13 ∧ b.getLsbD 2 = stop ∧ b.getLsbD 1 = wlen ∧ b.getLsbD 0 = parity := by
  rw [← extractLsb'_one_eq_ofBool_iff, ← extractLsb'_one_eq_ofBool_iff, ← extractLsb'_one_eq_ofBool_iff]
  exact eq_append_four_iff 13 1 1 1

/-- Field `B` of REG_READ and REG_WRITE (R69). -/
theorem eq_indexField_iff {b : BitVec 16} {idx : Byte} :
    b = 0#8 ++ idx ↔ b.extractLsb' 8 8 = 0#8 ∧ b.extractLsb' 0 8 = idx :=
  eq_append_iff 8 8

/-- Field `A` of I2C_SET_DIR (R66). -/
theorem eq_directionField_iff {a : Byte} {k : BitVec 1} :
    a = 0#7 ++ k ↔ a.extractLsb' 1 7 = 0#7 ∧ a.extractLsb' 0 1 = k :=
  eq_append_iff 7 1

/-- A header is its opcode and 56 operand bits, which the reserved opcode keeps as they stand (R116). -/
theorem header_eq_append (op a : Byte) (b : BitVec 16) (c : Word) : header op a b c = op ++ (a ++ b ++ c : BitVec 56) := by
  simp only [header, BitVec.append_assoc', BitVec.cast_eq]

/-- The operand bits of a header are its three fields. -/
theorem append_operandFields (x : BitVec 56) : x.extractLsb' 48 8 ++ x.extractLsb' 32 16 ++ x.extractLsb' 0 32 = x :=
  (append_extractLsb' 0 32 24 (append_extractLsb' 32 16 8 rfl)).trans (BitVec.extractLsb'_eq_self (x := x))

/-! ## The payload -/

/-- A payload word is packed from its bytes (R65). -/
theorem packWord_wordBytes (w : CmdWord) : packWord (wordBytes w) = w := by
  refine Eq.trans ?_ (BitVec.extractLsb'_eq_self (x := w))
  exact append_extractLsb' 0 8 56 <| append_extractLsb' 8 8 48 <| append_extractLsb' 16 8 40 <| append_extractLsb' 24 8 32 <|
    append_extractLsb' 32 8 24 <| append_extractLsb' 40 8 16 <| append_extractLsb' 48 8 8 rfl

/-- As many words with the same bytes are the same words. -/
theorem eq_of_flatMap_wordBytes_eq {xs ys : List CmdWord} (hlen : xs.length = ys.length)
    (h : xs.flatMap wordBytes = ys.flatMap wordBytes) : xs = ys := by
  induction xs generalizing ys with
  | nil => exact (List.eq_nil_of_length_eq_zero hlen.symm).symm
  | cons x xs ih =>
    cases ys with
    | nil => cases hlen
    | cons y ys =>
      rw [List.flatMap_cons, List.flatMap_cons] at h
      obtain ⟨hhead, htail⟩ := List.append_inj h rfl
      rw [Function.LeftInverse.injective packWord_wordBytes hhead, ih (Nat.succ.inj hlen) htail]

/-- The bytes of a packed payload (R65). -/
theorem flatMap_wordBytes_packPayload (bytes : List Byte) :
    (packPayload bytes).flatMap wordBytes =
      bytes ++ List.replicate (8 * payloadWords bytes.length - bytes.length) 0#8 :=
  flatMap_wordBytes_packWords _ _ (by unfold payloadWords; omega)

/-- The words of a payload are its packed bytes, the padding included (R65, R67 item 6). -/
theorem payloadOf_eq_some_iff {n : Nat} {rest : List CmdWord} {bytes : List Byte} :
    payloadOf n rest = some bytes ↔ bytes.length = n ∧ packPayload bytes <+: rest := by
  constructor
  · intro h
    obtain ⟨rfl, hwords⟩ := payloadOf_some h
    have hlen : (rest.take (payloadWords bytes.length)).length = payloadWords bytes.length :=
      List.length_take_of_le hwords
    refine ⟨rfl, ?_⟩
    suffices hpacked : packPayload bytes = rest.take (payloadWords bytes.length) from hpacked ▸ List.take_prefix ..
    refine eq_of_flatMap_wordBytes_eq (by rw [packPayload_length, hlen]) ?_
    rw [flatMap_wordBytes_packPayload]
    unfold payloadOf at h
    rw [if_pos hwords] at h
    obtain ⟨hpad, htake⟩ := Option.ite_none_right_eq_some.1 h
    have hzeros := List.eq_replicate_of_mem fun x hx => of_decide_eq_true (List.all_eq_true.1 hpad x hx)
    rw [List.length_drop, flatMap_wordBytes_length, hlen] at hzeros
    exact (congrArg₂ (· ++ ·) (Option.some.inj htake) hzeros).symm.trans (List.take_append_drop ..)
  · rintro ⟨rfl, tail, rfl⟩
    have hwords : payloadWords bytes.length ≤ (packPayload bytes ++ tail).length := by
      rw [List.length_append, packPayload_length]
      omega
    have htake : (packPayload bytes ++ tail).take (payloadWords bytes.length) = packPayload bytes :=
      List.take_left' (packPayload_length bytes)
    rw [payloadOf, if_pos hwords, htake, flatMap_wordBytes_packPayload]
    simp

/-! ## The codes -/

theorem pinFunctionOf_eq_iff {k : BitVec 3} {f : PinFunction} : pinFunctionOf k = f ↔ k = f.code := by
  revert k; cases f <;> decide

theorem pullOf_eq_some_iff {k : BitVec 2} {pull : Pull} : pullOf k = some pull ↔ k = pull.code := by
  revert k; cases pull <;> decide

theorem levelOf_eq_iff {k : BitVec 1} {level : Level} : levelOf k = level ↔ k = level.code := by
  revert k; cases level <;> decide

theorem parityOf_eq_some_iff {k : BitVec 2} {parity : Parity} : parityOf k = some parity ↔ k = parity.code := by
  revert k; cases parity <;> decide

theorem wordLengthOf_eq_iff {k : BitVec 2} {wlen : WordLength} : wordLengthOf k = wlen ↔ k = wlen.code := by
  revert k; cases wlen <;> decide

theorem stopBitsOf_eq_iff {k : BitVec 1} {stop : StopBits} : stopBitsOf k = stop ↔ k = stop.code := by
  revert k; cases stop <;> decide

theorem directionOf_eq_iff {k : BitVec 1} {dir : Direction} : directionOf k = dir ↔ k = dir.code := by
  revert k; cases dir <;> decide

theorem driverTypeOf_eq_some_iff {a : Byte} {t : DriverType} : driverTypeOf a = some t ↔ a = t.code := by
  constructor
  · intro h
    unfold driverTypeOf at h
    split at h <;> cases h <;> exact BitVec.eq_of_toNat_eq ‹_›
  · rintro rfl
    cases t <;> rfl

theorem gpioReg_ofIdx_eq_some_iff {k : Byte} {r : GpioReg} : GpioReg.ofIdx k = some r ↔ k = r.idx := by
  constructor
  · intro h
    unfold GpioReg.ofIdx at h
    split at h <;> cases h <;> exact BitVec.eq_of_toNat_eq ‹_›
  · rintro rfl
    cases r <;> rfl

theorem uartReg_ofIdx_eq_some_iff {k : Byte} {r : UartReg} : UartReg.ofIdx k = some r ↔ k = r.idx := by
  constructor
  · intro h
    unfold UartReg.ofIdx at h
    split at h <;> cases h <;> exact BitVec.eq_of_toNat_eq ‹_›
  · rintro rfl
    cases r <;> rfl

theorem i2cReg_ofIdx_eq_some_iff {k : Byte} {r : I2cReg} : I2cReg.ofIdx k = some r ↔ k = r.idx := by
  constructor
  · intro h
    unfold I2cReg.ofIdx at h
    split at h <;> cases h <;> exact BitVec.eq_of_toNat_eq ‹_›
  · rintro rfl
    cases r <;> rfl

/-- The number in the IRQ block of a register that stands there. -/
theorem irqRegOfIdx_numbers (k : Byte) : (irqRegOfIdx k).blk = 3#8 ∧ (irqRegOfIdx k).idx = k := by
  unfold irqRegOfIdx
  split
  · next h => exact ⟨rfl, h.symm⟩
  · exact ⟨rfl, BitVec.eq_of_toNat_eq (by simp [Reg.idx])⟩

/-- The numbers name no other register (R69). -/
theorem numbers_of_regOfCode {blk idx : Byte} {r : Reg} (h : regOfCode blk idx = some r) : blk = r.blk ∧ idx = r.idx := by
  unfold regOfCode at h
  split at h
  · obtain ⟨g, hg, rfl⟩ := Option.map_eq_some_iff.1 h
    exact ⟨BitVec.eq_of_toNat_eq ‹_›, gpioReg_ofIdx_eq_some_iff.1 hg⟩
  · obtain ⟨u, hu, rfl⟩ := Option.map_eq_some_iff.1 h
    exact ⟨BitVec.eq_of_toNat_eq ‹_›, uartReg_ofIdx_eq_some_iff.1 hu⟩
  · obtain ⟨i, hi, rfl⟩ := Option.map_eq_some_iff.1 h
    exact ⟨BitVec.eq_of_toNat_eq ‹_›, i2cReg_ofIdx_eq_some_iff.1 hi⟩
  · cases h
    obtain ⟨hblk, hidx⟩ := irqRegOfIdx_numbers idx
    exact ⟨(BitVec.eq_of_toNat_eq ‹_› : blk = 3#8).trans hblk.symm, hidx.symm⟩
  · cases h

/-- A register of the tables is found by its numbers; a pending word needs a place below 255 (R69, log 21). -/
theorem regOfCode_numbers {p : Params} {r : Reg} (hr : p.hasReg r = true) : regOfCode r.blk r.idx = some r := by
  cases r with
  | gpio g => exact congrArg (Option.map Reg.gpio) (gpioReg_ofIdx_eq_some_iff.2 rfl)
  | uart u => exact congrArg (Option.map Reg.uart) (uartReg_ofIdx_eq_some_iff.2 rfl)
  | i2c i => exact congrArg (Option.map Reg.i2c) (i2cReg_ofIdx_eq_some_iff.2 rfl)
  | pend i =>
    obtain ⟨_, hi⟩ := of_decide_eq_true hr
    have hnat : (BitVec.ofNat 8 i).toNat = i := Nat.mod_eq_of_lt (by omega)
    have hne : BitVec.ofNat 8 i ≠ 255#8 := fun h => by rw [h] at hnat; exact absurd hnat (by simp; omega)
    exact congrArg some ((if_neg hne).trans (congrArg Reg.pend hnat))
  | secstat => rfl

/-- The register operand of REG_READ and REG_WRITE (R69). -/
theorem regOperand_eq_some_iff {p : Params} {a : Byte} {b : BitVec 16} {r : Reg} :
    b.extractLsb' 8 8 = 0#8 ∧ regOperand p a b = some r ↔ p.hasReg r = true ∧ a = r.blk ∧ b = 0#8 ++ r.idx := by
  rw [regOperand, Option.filter_eq_some_iff, eq_indexField_iff]
  constructor
  · rintro ⟨hhigh, hcode, hr⟩
    obtain ⟨hblk, hidx⟩ := numbers_of_regOfCode hcode
    exact ⟨hr, hblk, hhigh, hidx⟩
  · rintro ⟨hr, rfl, hhigh, hidx⟩
    exact ⟨hhigh, by rw [hidx, regOfCode_numbers hr], hr⟩


/-- A setting of UART_LINE_CTL: its presence bit, and its code or zero (R66, R67 item 5). -/
theorem optionalSetting_eq_some_iff {n : Nat} {α : Type} {given : Bool} {k : BitVec n} {v : α} {code : α → BitVec n}
    (hcode : ∀ x, v = x ↔ k = code x) {o : Option α} :
    optionalSetting given k v = some o ↔ given = o.isSome ∧ k = (o.map code).getD 0#n := by
  unfold optionalSetting
  cases given <;> cases o <;> simp [hcode]

/-! ## What a row of the opcode map decodes -/

/-- What is decoded is a command of the run, and its encoding stands at the head of the words. -/
def Spelled (p : Params) (ws : List CmdWord) (r : DecodeResult) : Prop :=
  ∀ i len, r = .command i len → i.wellFormed p = true ∧ encode i <+: ws

/-- The opcodes of R66. -/
def opcodes : List Byte :=
  [0x01#8, 0x02#8, 0x10#8, 0x11#8, 0x12#8, 0x20#8, 0x21#8, 0x22#8, 0x23#8, 0x24#8, 0x25#8, 0x26#8, 0x30#8, 0x31#8, 0x32#8,
    0x33#8, 0x34#8, 0x35#8, 0x36#8, 0x37#8, 0x38#8, 0x39#8, 0x3A#8, 0x40#8, 0x41#8, 0x42#8, 0x43#8, 0x44#8, 0x45#8, 0x46#8,
    0x47#8, 0x50#8]

section Rows
variable {p : Params} {n : Nat} {op a : Byte} {b : BitVec 16} {c : Word} {rest : List CmdWord}

/-- An opcode with number `n` may be written as the literal. -/
theorem opcode_eq (hop : op.toNat = n) : op = BitVec.ofNat 8 n := by
  rw [← hop, BitVec.ofNat_toNat, BitVec.setWidth_eq]

theorem spelled_command {ws : List CmdWord} {i : Instr} {len : Nat} (hwf : i.wellFormed p = true) (he : encode i <+: ws) :
    Spelled p ws (.command i len) := by
  intro j len' h
  injection h with hj
  exact hj ▸ ⟨hwf, he⟩

theorem spelled_reserved {ws : List CmdWord} (why : ReservedWhy) : Spelled p ws (.reserved why) := fun _ _ h => by cases h

theorem spelled_unusedZero {zero : Prop} [Decidable zero] {i : Instr} (hop : op.toNat = n) (hwf : i.wellFormed p = true)
    (he : zero → encode i = [header (BitVec.ofNat 8 n) a b c]) : Spelled p (header op a b c :: rest) (unusedZero zero i) := by
  rw [opcode_eq hop]
  unfold unusedZero
  split
  · next hz => exact spelled_command hwf ⟨rest, by rw [he (of_decide_eq_true hz)]; rfl⟩
  · exact spelled_reserved _

theorem spelled_noOperand {i : Instr} (hop : op.toNat = n) (hwf : i.wellFormed p = true)
    (he : encode i = [header (BitVec.ofNat 8 n) 0#8 0#16 0#32]) :
    Spelled p (header op a b c :: rest) (unusedZero (a = 0#8 ∧ b = 0#16 ∧ c = 0#32) i) :=
  spelled_unusedZero hop hwf fun ⟨ha, hb, hc⟩ => by rw [he, ha, hb, hc]

theorem spelled_operandA {i : Instr} (hop : op.toNat = n) (hwf : i.wellFormed p = true)
    (he : encode i = [header (BitVec.ofNat 8 n) a 0#16 0#32]) :
    Spelled p (header op a b c :: rest) (unusedZero (b = 0#16 ∧ c = 0#32) i) :=
  spelled_unusedZero hop hwf fun ⟨hb, hc⟩ => by rw [he, hb, hc]

theorem spelled_withVariant {α : Type} {zero : Prop} [Decidable zero] {v : Option α} {i : α → Instr} (hop : op.toNat = n)
    (h : ∀ x, zero → v = some x → (i x).wellFormed p = true ∧ encode (i x) = [header (BitVec.ofNat 8 n) a b c]) :
    Spelled p (header op a b c :: rest) (withVariant zero v i) := by
  rw [opcode_eq hop]
  unfold withVariant
  split
  · next hz =>
    cases v with
    | some x =>
      obtain ⟨hwf, he⟩ := h x (of_decide_eq_true hz) rfl
      exact spelled_command hwf ⟨rest, by rw [he]; rfl⟩
    | none => exact spelled_reserved _
  · exact spelled_reserved _

theorem spelled_withPayload {zero : Prop} [Decidable zero] {i : List Byte → Instr} (hop : op.toNat = n)
    (hwf : ∀ bytes, bytes.length ≤ 65535 → (i bytes).wellFormed p = true)
    (he : zero → ∀ bytes, encode (i bytes) =
      header (BitVec.ofNat 8 n) a (BitVec.ofNat 16 bytes.length) c :: packPayload bytes) :
    Spelled p (header op a b c :: rest) (withPayload zero b.toNat rest i) := by
  rw [opcode_eq hop]
  unfold withPayload
  split
  · next hz =>
    cases hp : payloadOf b.toNat rest with
    | some bytes =>
      obtain ⟨hlen, hwords⟩ := payloadOf_eq_some_iff.1 hp
      have hb : BitVec.ofNat 16 bytes.length = b := by rw [hlen, BitVec.ofNat_toNat, BitVec.setWidth_eq]
      refine spelled_command (hwf bytes (by have := b.isLt; omega)) ?_
      rw [he (of_decide_eq_true hz), hb]
      exact List.prefix_cons_inj _ |>.2 hwords
    | none => exact spelled_reserved _
  · exact spelled_reserved _

theorem spelled_decodeGpioNew (hop : op.toNat = 0x20) : Spelled p (header op a b c :: rest) (decodeGpioNew a b c) := by
  refine spelled_withVariant hop fun pull hzero hpull => ⟨rfl, ?_⟩
  obtain ⟨hhigh, rfl⟩ := hzero
  rw [encode, ← eq_gpioNewField_iff.2
    ⟨hhigh, levelOf_eq_iff.1 rfl, pullOf_eq_some_iff.1 hpull, pinFunctionOf_eq_iff.1 rfl⟩]

theorem spelled_decodeUartNew (hop : op.toNat = 0x30) : Spelled p (header op a b c :: rest) (decodeUartNew a b c) := by
  refine spelled_withVariant hop fun parity hzero hparity => ⟨rfl, ?_⟩
  obtain ⟨hhigh, rfl⟩ := hzero
  rw [encode, ← eq_lineField_iff.2
    ⟨hhigh, stopBitsOf_eq_iff.1 rfl, wordLengthOf_eq_iff.1 rfl, parityOf_eq_some_iff.1 hparity⟩]

theorem spelled_decodeLineCtl (hop : op.toNat = 0x33) : Spelled p (header op a b c :: rest) (decodeLineCtl a b c) := by
  rw [opcode_eq hop]
  unfold decodeLineCtl
  dsimp only
  split
  · next hzero =>
    obtain ⟨ha, hb, rfl⟩ := hzero
    split
    · exact spelled_reserved _
    · next v hv =>
      split
      · next parity wlen stop hparity hwlen hstop =>
        obtain ⟨hp, hpk⟩ := (optionalSetting_eq_some_iff fun _ => by rw [← parityOf_eq_some_iff, hv, Option.some_inj]).1 hparity
        obtain ⟨hw, hwk⟩ := (optionalSetting_eq_some_iff fun _ => wordLengthOf_eq_iff).1 hwlen
        obtain ⟨hs, hsk⟩ := (optionalSetting_eq_some_iff fun _ => stopBitsOf_eq_iff).1 hstop
        refine spelled_command rfl ⟨rest, ?_⟩
        rw [encode, ← eq_lineField_iff.2 ⟨ha, hsk, hwk, hpk⟩, ← eq_presenceField_iff.2 ⟨hb, hs, hw, hp⟩]
        rfl
      · exact spelled_reserved _
  · exact spelled_reserved _

/-- Every row of the opcode map spells its command in one way (R66, R67). -/
theorem spelled_decodeFields : Spelled p (header op a b c :: rest) (decodeFields p op a b c rest) := by
  unfold decodeFields
  split
  any_goals exact spelled_noOperand ‹_› rfl rfl
  any_goals exact spelled_operandA ‹_› rfl rfl
  -- REG_READ
  case h_1 hop =>
    refine spelled_withVariant hop fun r hzero hr => ?_
    obtain ⟨hhigh, rfl⟩ := hzero
    obtain ⟨hwf, rfl, rfl⟩ := regOperand_eq_some_iff.1 ⟨hhigh, hr⟩
    exact ⟨hwf, rfl⟩
  -- REG_WRITE
  case h_2 hop =>
    refine spelled_withVariant hop fun r hhigh hr => ?_
    obtain ⟨hwf, rfl, rfl⟩ := regOperand_eq_some_iff.1 ⟨hhigh, hr⟩
    exact ⟨hwf, rfl⟩
  -- MGR_REGISTER, MGR_INIT_ALL
  case h_3 hop | h_4 hop =>
    refine spelled_withVariant hop fun t hzero ht => ⟨rfl, ?_⟩
    obtain ⟨rfl, rfl⟩ := hzero
    rw [driverTypeOf_eq_some_iff.1 ht]
    rfl
  -- GPIO_NEW
  case h_6 hop => exact spelled_decodeGpioNew hop
  -- UART_NEW
  case h_13 hop => exact spelled_decodeUartNew hop
  -- UART_BAUD_DIV
  case h_15 hop => exact spelled_unusedZero hop rfl fun ⟨ha, hb⟩ => by rw [ha, hb]; rfl
  -- UART_LINE_CTL
  case h_16 hop => exact spelled_decodeLineCtl hop
  -- UART_WRITE_BYTES
  case h_19 hop =>
    exact spelled_withPayload hop (fun _ => decide_eq_true) fun ⟨ha, hc⟩ _ => by rw [ha, hc]; rfl
  -- UART_READ_BYTES, reserved by name
  case h_22 hop =>
    refine spelled_command rfl ⟨rest, ?_⟩
    rw [opcode_eq hop, header_eq_append]
    rfl
  -- I2C_NEW
  case h_24 hop => exact spelled_unusedZero hop rfl fun ha => by rw [ha]; rfl
  -- I2C_SET_DIR
  case h_27 hop =>
    refine spelled_unusedZero hop rfl fun ⟨hhigh, hb, hc⟩ => ?_
    rw [encode, ← eq_directionField_iff.2 ⟨hhigh, directionOf_eq_iff.1 rfl⟩, hb, hc]
  -- I2C_WRITE
  case h_28 hop => exact spelled_withPayload hop (fun _ => decide_eq_true) fun hc _ => by rw [hc]; rfl
  -- I2C_READ
  case h_29 hop => exact spelled_unusedZero hop rfl fun hc => by rw [hc]; rfl
  -- no opcode of R66
  case h_33 => exact spelled_reserved _

/-! ### The rows of an encoding -/

theorem withVariant_some {α : Type} {zero : Prop} [Decidable zero] {v : Option α} {i : α → Instr} {x : α} (hz : zero)
    (hv : v = some x) : withVariant zero v i = .command (i x) 1 := by
  subst hv
  exact if_pos (decide_eq_true hz)

/-- A payload whose length fits field `B` is read back (R65). -/
theorem withPayload_packPayload {zero : Prop} [Decidable zero] {i : List Byte → Instr} {bytes : List Byte} (hz : zero)
    (hlen : bytes.length ≤ 65535) :
    withPayload zero (BitVec.ofNat 16 bytes.length).toNat (packPayload bytes ++ rest) i =
      .command (i bytes) (1 + payloadWords bytes.length) := by
  have hn : (BitVec.ofNat 16 bytes.length).toNat = bytes.length := Nat.mod_eq_of_lt (by omega)
  rw [withPayload, if_pos (decide_eq_true hz), hn, payloadOf_eq_some_iff.2 ⟨rfl, List.prefix_append ..⟩]

theorem decodeGpioNew_codes (pin : Byte) (f : PinFunction) (pull : Pull) (level : Level) :
    decodeGpioNew pin (0#10 ++ level.code ++ pull.code ++ f.code) 0#32 = .command (.gpioNew pin f pull level) 1 := by
  obtain ⟨hhigh, hlevel, hpull, hf⟩ := eq_gpioNewField_iff.1 (rfl : 0#10 ++ level.code ++ pull.code ++ f.code = _)
  refine (withVariant_some ⟨hhigh, rfl⟩ (pullOf_eq_some_iff.2 hpull)).trans ?_
  rw [pinFunctionOf_eq_iff.2 hf, levelOf_eq_iff.2 hlevel]

theorem decodeUartNew_codes (parity : Parity) (wlen : WordLength) (stop : StopBits) (baud : Word) :
    decodeUartNew (lineField parity.code wlen.code stop.code) 0#16 baud = .command (.uartNew parity wlen stop baud) 1 := by
  obtain ⟨hhigh, hstop, hwlen, hparity⟩ := eq_lineField_iff.1 (rfl : lineField parity.code wlen.code stop.code = _)
  refine (withVariant_some ⟨hhigh, rfl⟩ (parityOf_eq_some_iff.2 hparity)).trans ?_
  rw [wordLengthOf_eq_iff.2 hwlen, stopBitsOf_eq_iff.2 hstop]

/-- UART_LINE_CTL with any of its settings left out. An absent parity has code 0, which is a code of R68 too. -/
theorem decodeLineCtl_codes (parity : Option Parity) (wlen : Option WordLength) (stop : Option StopBits) :
    decodeLineCtl
      (lineField ((parity.map Parity.code).getD 0#2) ((wlen.map WordLength.code).getD 0#2) ((stop.map StopBits.code).getD 0#1))
      (0#13 ++ BitVec.ofBool stop.isSome ++ BitVec.ofBool wlen.isSome ++ BitVec.ofBool parity.isSome) 0#32 =
    .command (.uartLineCtl parity wlen stop) 1 := by
  obtain ⟨ha, hsk, hwk, hpk⟩ := eq_lineField_iff.1 (rfl : lineField ((parity.map Parity.code).getD 0#2)
    ((wlen.map WordLength.code).getD 0#2) ((stop.map StopBits.code).getD 0#1) = _)
  obtain ⟨hb, hs, hw, hp⟩ := eq_presenceField_iff.1
    (rfl : 0#13 ++ BitVec.ofBool stop.isSome ++ BitVec.ofBool wlen.isSome ++ BitVec.ofBool parity.isSome = _)
  have hparity : parityOf ((parity.map Parity.code).getD 0#2) = some (parity.getD .none) := by cases parity with
    | none => rfl
    | some x => exact parityOf_eq_some_iff.2 rfl
  unfold decodeLineCtl
  dsimp only
  rw [if_pos ⟨ha, hb, rfl⟩, hpk, hwk, hsk, hparity]
  dsimp only
  rw [(optionalSetting_eq_some_iff fun _ => by rw [← parityOf_eq_some_iff, hparity, Option.some_inj]).2 ⟨hp, rfl⟩,
    (optionalSetting_eq_some_iff fun _ => wordLengthOf_eq_iff).2 ⟨hw, rfl⟩,
    (optionalSetting_eq_some_iff fun _ => stopBitsOf_eq_iff).2 ⟨hs, rfl⟩]

theorem decodeFields_unknown (hop : op ∉ opcodes) : decodeFields p op a b c rest = .reserved .unknownOpcode := by
  unfold decodeFields
  split
  case h_33 => rfl
  all_goals exact absurd (opcode_eq ‹op.toNat = _› ▸ by decide) hop

theorem withPayload_short {zero : Bool} {i : List Byte → Instr} (h : 8 * rest.length < n) :
    (withPayload zero n rest i).isReserved = true := by
  have hnone : payloadOf n rest = none := by
    cases hp : payloadOf n rest with
    | none => rfl
    | some bytes =>
      obtain ⟨_, hwords⟩ := payloadOf_some hp
      unfold payloadWords at hwords
      omega
  unfold withPayload
  rw [hnone]
  cases zero <;> rfl

end Rows

/-- The encoding of a command has the command's length (R65). -/
theorem encode_length (i : Instr) : (encode i).length = i.len := by
  cases i with
  | uartWriteBytes bytes => exact Laws.EncodedLength.uartWriteBytes bytes
  | i2cWrite addr bytes => exact Laws.EncodedLength.i2cWrite addr bytes
  | _ => rfl

/-! ## The line-control word -/

/-- A field of the line-control word that the mask covers is the packed one (R107). -/
theorem extractLsb'_lcrhApply {lay : LcrhLayout} {old : Word} {parity : Parity} {wlen : WordLength} {stop : StopBits} {k n : Nat}
    (hmask : (~~~lcrhFieldsMask lay).extractLsb' k n = 0#n) :
    (lcrhApply lay old parity wlen stop).extractLsb' k n = (lcrhPack lay parity wlen stop).extractLsb' k n := by
  rw [lcrhApply, BitVec.extractLsb'_or, BitVec.extractLsb'_and, hmask, BitVec.and_zero, BitVec.zero_or]

/-- The packed settings stay under the mask of the three fields. -/
theorem lcrhPack_default_outside (parity : Parity) (wlen : WordLength) (stop : StopBits) :
    lcrhPack .default parity wlen stop &&& ~~~lcrhFieldsMask .default = 0#32 := by
  cases parity <;> cases wlen <;> cases stop <;> decide

/-- The bits that the mask does not cover are the old ones (R107). -/
theorem lcrhApply_default_outside (old : Word) (parity : Parity) (wlen : WordLength) (stop : StopBits) :
    lcrhApply .default old parity wlen stop &&& ~~~lcrhFieldsMask .default = old &&& ~~~lcrhFieldsMask .default := by
  rw [lcrhApply, BitVec.and_or_distrib_right, lcrhPack_default_outside, BitVec.or_zero, BitVec.and_assoc, BitVec.and_self]

theorem lcrhPack_default_fields (parity : Parity) (wlen : WordLength) (stop : StopBits) :
    (lcrhPack .default parity wlen stop).extractLsb' 1 2 = parCode .default parity ∧
    (lcrhPack .default parity wlen stop).extractLsb' 3 1 = stpCode .default stop ∧
    (lcrhPack .default parity wlen stop).extractLsb' 5 2 = wlenCode .default wlen := by
  cases parity <;> cases wlen <;> cases stop <;> decide

/-! ## The statements -/

/-- Settles O1: each row reads back the fields its encoding puts down; the codes and the payload invert. -/
theorem decodeOfEncode : Obligations.DecodeOfEncode := by
  intro p i rest hwf
  cases i with
  | regRead r =>
    obtain ⟨hhigh, hr⟩ := regOperand_eq_some_iff.2 ⟨hwf, rfl, rfl⟩
    exact (decode_header ..).trans (withVariant_some ⟨hhigh, rfl⟩ hr)
  | regWrite r v =>
    obtain ⟨hhigh, hr⟩ := regOperand_eq_some_iff.2 ⟨hwf, rfl, rfl⟩
    exact (decode_header ..).trans (withVariant_some hhigh hr)
  | mgrRegister t => exact (decode_header ..).trans (withVariant_some ⟨rfl, rfl⟩ (driverTypeOf_eq_some_iff.2 rfl))
  | mgrInitAll t => exact (decode_header ..).trans (withVariant_some ⟨rfl, rfl⟩ (driverTypeOf_eq_some_iff.2 rfl))
  | gpioNew pin f pull level => exact (decode_header ..).trans (decodeGpioNew_codes pin f pull level)
  | uartNew parity wlen stop baud => exact (decode_header ..).trans (decodeUartNew_codes parity wlen stop baud)
  | uartLineCtl parity wlen stop => exact (decode_header ..).trans (decodeLineCtl_codes parity wlen stop)
  | uartWriteBytes bytes =>
    exact (decode_header ..).trans (withPayload_packPayload ⟨rfl, rfl⟩ (of_decide_eq_true hwf))
  | i2cWrite addr bytes => exact (decode_header ..).trans (withPayload_packPayload rfl (of_decide_eq_true hwf))
  | uartReadBytes x =>
    rw [← append_operandFields x, encode, ← header_eq_append]
    exact decode_header ..
  | i2cSetDir dir => cases dir <;> exact decode_header ..
  | _ => exact decode_header ..

/-- Settles O2: every row spells its command in one way, and the length is the encoding's. -/
theorem encodeOfDecode : Obligations.EncodeOfDecode := by
  intro p ws i len h
  cases ws with
  | nil => cases h
  | cons w rest =>
    obtain ⟨hwf, hprefix⟩ := spelled_decodeFields (rest := rest) i len h
    obtain ⟨hlen, _⟩ := lenFits_decodeFields p _ _ _ _ i len h
    rw [header_of_fields] at hprefix
    refine ⟨hwf, hlen, ?_⟩
    rw [hlen, ← encode_length]
    exact (List.prefix_iff_eq_take.1 hprefix).symm

/-- Settles O4: the map has no other row, opcode `0x39` has the row that is reserved by name, and the payload's words are not
there. -/
theorem reservedWords : Obligations.ReservedWords := by
  refine ⟨fun p w rest hop => decodeFields_unknown hop, fun p w rest hop => ?_, fun p w rest hop hshort => ?_⟩
  · rw [decode, hop]
    rfl
  · rcases hop with hop | hop
    · rw [decode, hop]
      exact withPayload_short hshort
    · rw [decode, hop]
      exact withPayload_short hshort

/-- Settles O29: the packed codes lie under the mask 0x6E, which clears their old bits and no other. -/
theorem lineControlPacking : Obligations.LineControlPacking := by
  refine ⟨by decide, by decide, by decide, fun l parity wlen stop => ?_⟩
  obtain ⟨hpar, hstop, hwlen⟩ := lcrhPack_default_fields parity wlen stop
  refine ⟨lcrhApply_default_outside l parity wlen stop, ?_, ?_, ?_⟩
  · rw [extractLsb'_lcrhApply (by decide), hpar]
    cases parity <;> rfl
  · rw [extractLsb'_lcrhApply (by decide), hstop]
    cases stop <;> rfl
  · rw [extractLsb'_lcrhApply (by decide), hwlen]
    cases wlen <;> rfl

/-- The words of a command's encoding decode to it. -/
theorem decode_of_encode_eq {p : Params} {i : Instr} {ws : List CmdWord} (hwf : i.wellFormed p = true) (he : encode i = ws) :
    decode p ws = .command i i.len := by
  rw [← he, ← List.append_nil (encode i)]
  exact decodeOfEncode p i [] hwf

/-- Settles O3: the seven words are the encodings of the commands. -/
theorem sampleWordsDecode : Obligations.SampleWordsDecode :=
  ⟨decode_of_encode_eq rfl (by decide), decode_of_encode_eq rfl (by decide), decode_of_encode_eq rfl (by decide),
    decode_of_encode_eq rfl (by decide), decode_of_encode_eq rfl (by decide), decode_of_encode_eq rfl (by decide),
    decode_of_encode_eq rfl (by decide)⟩

end Sys2Proof.Machine

/-!
Proofs of the statements about register access (40_regaccess.md). First where the ports of the blocks stand, and what a refused access
does; then the statements.
-/

namespace Sys2Proof.Machine

/-! ## The ports of the blocks -/

section Ports
variable {p : Params}

theorem portOf_gpio {g : GpioReg} {e : Desc} (he : p.gpio.desc g = some e) :
    portOf p (.gpio g) = some ⟨gpioBase + e.offset, e.perm⟩ := Option.map_eq_some_iff.2 ⟨e, he, rfl⟩

theorem portOf_uart (u : UartReg) :
    portOf p (.uart u) = some ⟨uartBase + (p.uart.desc u).offset, (p.uart.desc u).perm⟩ := rfl

theorem portOf_i2c (i : I2cReg) :
    portOf p (.i2c i) = some ⟨i2cBase + (p.i2c.desc i).offset, (p.i2c.desc i).perm⟩ := rfl

/-- The IRQ block has no base: the bank holds the absolute address (R43). -/
theorem portOf_pend {k : Nat} {b : IrqBank} (hb : p.irqBanks[k]? = some b) :
    portOf p (.pend k) = some ⟨b.address, b.perm⟩ := Option.map_eq_some_iff.2 ⟨b, hb, rfl⟩

theorem portOf_secstat : portOf p .secstat = some ⟨secstatAddr, p.secstatPerm⟩ := rfl

/-- `d` is where the tables put register `r`: base plus offset in the three blocks with a base, the absolute address in the IRQ
block (R50, R43). -/
def PlacedByBlock (p : Params) (r : Reg) (d : Port) : Prop :=
  (∀ g e, r = .gpio g → p.gpio.desc g = some e → d = ⟨0xFE200000#32 + e.offset, e.perm⟩) ∧
  (∀ u, r = .uart u → d = ⟨0xFE201000#32 + (p.uart.desc u).offset, (p.uart.desc u).perm⟩) ∧
  (∀ i, r = .i2c i → d = ⟨0xFE804000#32 + (p.i2c.desc i).offset, (p.i2c.desc i).perm⟩) ∧
  (∀ k b, r = .pend k → p.irqBanks[k]? = some b → d = ⟨b.address, b.perm⟩) ∧
  (r = .secstat → d = ⟨0xFE204E00#32, p.secstatPerm⟩)

/-- The port that `portOf` answers is the one of the register's block. -/
theorem portOf_placedByBlock {r : Reg} {d : Port} (h : portOf p r = some d) : PlacedByBlock p r d := by
  have only {d' : Port} (h' : portOf p r = some d') : d = d' := Option.some.inj (h.symm.trans h')
  refine ⟨?gpio, ?uart, ?i2c, ?pend, ?secstat⟩
  case gpio => rintro g e rfl he; exact only (portOf_gpio he)
  case uart => rintro u rfl; exact only (portOf_uart u)
  case i2c => rintro i rfl; exact only (portOf_i2c i)
  case pend => rintro k b rfl hb; exact only (portOf_pend hb)
  case secstat => rintro rfl; exact only portOf_secstat

end Ports

/-! ## Refused accesses -/

section Refused
variable {s : State} {r : Reg} {d : Port}

/-- `RegRead` of a write-only register (R76): the check stops it on the state as it was. -/
theorem regRead_writeOnly (hd : portOf s.params r = some d) (hp : d.perm = .writeOnly) :
    regRead r s = .error (.fatal .permissionViolation) s := by
  rcases regRead_cases r s with ⟨d', hd', hne, _⟩ | ⟨_, _, _, hread⟩ | ⟨hnone, _⟩
  · obtain rfl := Option.some.inj (hd.symm.trans hd')
    exact absurd hp hne
  · exact hread
  · cases hd.symm.trans hnone

/-- `RegWrite` of a read-only register (R77). -/
theorem regWrite_readOnly (hd : portOf s.params r = some d) (hp : d.perm = .readOnly) (v : Word) :
    regWrite r v s = .error (.fatal .permissionViolation) s := by
  rcases regWrite_cases r v s with ⟨d', hd', hne, _⟩ | ⟨_, _, _, hwrite⟩ | ⟨hnone, _⟩
  · obtain rfl := Option.some.inj (hd.symm.trans hd')
    exact absurd hp hne
  · exact hwrite
  · cases hd.symm.trans hnone

/-- REG_READ of a write-only register (R78). -/
theorem exec_regRead_writeOnly (hr : s.params.hasReg r = true) (hd : portOf s.params r = some d) (hp : d.perm = .writeOnly) :
    exec (.regRead r) s = .next (takeFatal .permissionViolation s) :=
  runCmd_fatal (bind_eq (requireEncodable_ok hr) (bind_error (regRead_writeOnly hd hp)))

/-- REG_WRITE of a read-only register (R79). -/
theorem exec_regWrite_readOnly (hr : s.params.hasReg r = true) (hd : portOf s.params r = some d) (hp : d.perm = .readOnly)
    (v : Word) : exec (.regWrite r v) s = .next (takeFatal .permissionViolation s) :=
  runCmd_fatal (bind_eq (requireEncodable_ok hr) (bind_error (regWrite_readOnly hd hp v)))

end Refused

/-! ## The statements -/

/-- Settles O9: the encoding check lets a register of the tables pass, and the permission check an open one. -/
theorem rawAccessCompletes : Obligations.RawAccessCompletes :=
  fun _ _ _ hr => ⟨fun ha => exec_regRead_readable hr ha, fun v ha => exec_regWrite_writable hr ha v⟩

/-- Settles O10: the primitive stops on the state the command began with. -/
theorem rawAccessViolation : Obligations.RawAccessViolation :=
  fun _ _ _ hr => ⟨fun hd => exec_regRead_writeOnly hr hd rfl, fun v hd => exec_regWrite_readOnly hr hd rfl v⟩

/-- Settles O7, by whether the register is write-only. -/
theorem regReadPrimitive : Obligations.RegReadPrimitive := by
  intro s r d hd
  refine ⟨?_, portOf_placedByBlock hd⟩
  by_cases hp : d.perm = .writeOnly
  · rw [if_pos hp]
    exact regRead_writeOnly hd hp
  · rw [if_neg hp]
    exact regRead_ok ⟨d.perm, hd, hp⟩

/-- Settles O8, by whether the register is read-only. -/
theorem regWritePrimitive : Obligations.RegWritePrimitive := by
  intro s r v d hd
  refine ⟨?_, portOf_placedByBlock hd⟩
  by_cases hp : d.perm = .readOnly
  · rw [if_pos hp]
    exact regWrite_readOnly hd hp v
  · rw [if_neg hp]
    exact regWrite_ok ⟨d.perm, hd, hp⟩

end Sys2Proof.Machine

/-!
Proofs of the statements about the lifecycle (41_lifecycle.md). First the guard of a unit that is not live, and what the two manager
commands do for either driver type; then the statements.
-/

namespace Sys2Proof.Machine

/-! ## The guard of a unit that is not live (R85) -/

section Absent
variable {s : State}

theorem requireUnit_absent {α : Type} {u : Option α} (h : u.isSome = false) :
    requireUnit u s = .error (.refuse .noSuchUnit) s := by
  cases u with
  | none => rfl
  | some x => cases h

theorem pinUnit_absent {pin : Byte} (h : (s.livePin pin).isSome = false) :
    pinUnit pin s = .error (.refuse .noSuchUnit) s := requireUnit_absent h

theorem uartUnit_absent (h : s.liveUart.isSome = false) : uartUnit s = .error (.refuse .noSuchUnit) s :=
  requireUnit_absent h

theorem i2cUnit_absent (h : s.liveI2c.isSome = false) : i2cUnit s = .error (.refuse .noSuchUnit) s :=
  requireUnit_absent h

/-- A command is refused when its first lines are (R85, R146). -/
theorem runCmd_noSuchUnit {α : Type} {guard : Cmd α} {rest : α → Cmd Unit} (h : guard s = .error (.refuse .noSuchUnit) s) :
    runCmd (guard >>= rest) s = .refused .noSuchUnit := runCmd_refuse (bind_error h)

end Absent

/-! ## The managers, for either driver type (R82, R83) -/

section Managers
variable {s : State} {t : DriverType}

theorem requireDriver_live (h : guardPasses (.mgrRegister t) s = true) : requireDriver t s = .ok () s := by
  cases t with
  | uart =>
    obtain ⟨u, hu⟩ := Option.isSome_iff_exists.1 h
    exact bind_ok (uartUnit_ok hu)
  | i2c =>
    obtain ⟨u, hu⟩ := Option.isSome_iff_exists.1 h
    exact bind_ok (i2cUnit_ok hu)

theorem requireDriver_absent (h : guardPasses (.mgrRegister t) s = false) :
    requireDriver t s = .error (.refuse .noSuchUnit) s := by
  cases t with
  | uart => exact bind_error (uartUnit_absent h)
  | i2c => exact bind_error (i2cUnit_absent h)

/-- MGR_REGISTER of a live unit (R82). -/
theorem exec_mgrRegister_live (h : guardPasses (.mgrRegister t) s = true) :
    exec (.mgrRegister t) s = .next ((setRegistered t s).completed 1) := runCmd_ok (bind_ok (requireDriver_live h))

/-- CONSOLE_BIND with a live UART (R81). -/
theorem exec_consoleBind_live {u : UartUnit} (h : s.liveUart = some u) :
    exec .consoleBind s = .next ({ s with console := .bound }.completed 1) := runCmd_ok (bind_ok (uartUnit_ok h))

/-- The initialise command of a driver type (R84). -/
def initCommand : DriverType → Instr
  | .uart => .uartInit
  | .i2c => .i2cInit

theorem exec_initCommand (t : DriverType) (s : State) :
    exec (initCommand t) s = runCmd (do driverInitBody t; complete 1) s := by
  cases t <;> rfl

/-- The initialise command of a driver whose unit is not live. -/
theorem exec_initCommand_absent (h : guardPasses (initCommand t) s = false) :
    exec (initCommand t) s = .refused .noSuchUnit := by
  cases t with
  | uart => exact runCmd_noSuchUnit (bind_error (uartUnit_absent h))
  | i2c => exact runCmd_noSuchUnit (bind_error (i2cUnit_absent h))

/-- MGR_INIT_ALL asks for a unit only where a driver is registered (R83). -/
theorem guardPasses_mgrInitAll (t : DriverType) (s : State) :
    guardPasses (.mgrInitAll t) s = (decide (managerOf t s = .empty) || guardPasses (initCommand t) s) := by
  cases t <;> rfl

/-- MGR_INIT_ALL of an empty manager (R83). -/
theorem exec_mgrInitAll_empty (h : managerOf t s = .empty) : exec (.mgrInitAll t) s = .next (s.completed 1) :=
  runCmd_ok (by rw [getState_bind, h]; rfl)

/-- MGR_INIT_ALL with a driver registered (R83). -/
theorem exec_mgrInitAll_registered (h : managerOf t s = .registered) :
    exec (.mgrInitAll t) s = exec (initCommand t) s := by
  rw [exec_initCommand]
  simp only [exec, execMgrInitAll, runCmd, getState_bind, h]

/-- MGR_INIT_ALL whose guard fails: a driver is registered, and its initialise command is refused. -/
theorem exec_mgrInitAll_absent (h : guardPasses (.mgrInitAll t) s = false) :
    exec (.mgrInitAll t) s = .refused .noSuchUnit := by
  rw [guardPasses_mgrInitAll, Bool.or_eq_false_iff] at h
  obtain ⟨hne, hunit⟩ := h
  cases hm : managerOf t s with
  | empty => exact absurd hm (of_decide_eq_false hne)
  | registered => exact (exec_mgrInitAll_registered hm).trans (exec_initCommand_absent hunit)

end Managers

/-! ## The statements -/

/-- Settles O15: the lines of MGR_INIT_ALL are those of the driver's initialise command, or its completion alone. -/
theorem initAllFollowsTheManager : Obligations.InitAllFollowsTheManager :=
  fun _ => ⟨fun h => exec_mgrInitAll_empty (t := .uart) h, fun h => exec_mgrInitAll_empty (t := .i2c) h,
    fun h => exec_mgrInitAll_registered (t := .uart) h, fun h => exec_mgrInitAll_registered (t := .i2c) h⟩

/-- Settles O14: the guard finds the live unit, and what is left is one change of the state and the completion. -/
theorem registerAndBindComplete : Obligations.RegisterAndBindComplete := by
  refine fun s => ⟨fun u hu => ⟨?_, exec_consoleBind_live hu⟩, fun u hu => ?_⟩
  · exact exec_mgrRegister_live (t := .uart) (Option.isSome_of_eq_some hu)
  · exact exec_mgrRegister_live (t := .i2c) (Option.isSome_of_eq_some hu)

/-- Settles O13, by the guard at the head of each command: none, a pin's, the UART's, the I2C's or a driver type's. -/
theorem absentUnitIsRefused : Obligations.AbsentUnitIsRefused := by
  intro i s h
  cases i
  case regRead | regWrite | gpioNew | uartNew | uartResolveClk | uartReadBytes | i2cNew | irqDispatch => cases h
  case gpioInit | gpioSet | gpioClr | gpioSample | gpioEdge | gpioRelease => exact runCmd_noSuchUnit (pinUnit_absent h)
  case consoleBind | uartBaudDiv | uartLineCtl | uartFlush | uartWriteChar | uartWriteBytes | uartCharsWritten | uartRelease =>
    exact runCmd_noSuchUnit (uartUnit_absent h)
  case i2cSetDiv | i2cSetAddr | i2cSetDir | i2cWrite | i2cRead | i2cRelease =>
    exact runCmd_noSuchUnit (i2cUnit_absent h)
  case uartInit => exact exec_initCommand_absent (t := .uart) h
  case i2cInit => exact exec_initCommand_absent (t := .i2c) h
  case mgrRegister => exact runCmd_noSuchUnit (requireDriver_absent h)
  case mgrInitAll => exact exec_mgrInitAll_absent h

end Sys2Proof.Machine

/-!
Proofs of the statements about GPIO (42_gpio.md). First what its operations do: the banking, the function-select field, the bit tests,
the lines of its commands, and where the default tables place its registers. Then, for R98 and R142, once for all commands, which fatal
conditions lines raise that name only registers their tables let them access; then the statements.
-/

namespace Sys2Proof.Machine

/-! ## Banking and the function-select field (R89, R90, R92) -/

theorem bankReg_eq (k : BankKind) (pin : Byte) :
    bankReg k pin = .gpio (if pin.toNat < 32 then (bankPair k).1 else (bankPair k).2) := rfl

theorem bankBit_of_low {pin : Byte} (h : pin.toNat < 32) : bankBit pin = pin.toNat := if_pos h

theorem bankBit_of_high {pin : Byte} (h : ¬ pin.toNat < 32) : bankBit pin = pin.toNat - 32 := if_neg h

/-- The six function-select registers in the order of R24. -/
theorem fselBank_getElem {n : Nat} (h : n < 6) :
    [GpioReg.fsel0, .fsel1, .fsel2, .fsel3, .fsel4, .fsel5][n]? = some (fselBank n) := by
  interval_cases n <;> rfl

/-- Different banks have different registers. -/
theorem fselBank_injOn {m n : Nat} (hm : m < 6) (hn : n < 6) (h : fselBank m = fselBank n) : m = n := by
  have hlist : [GpioReg.fsel0, .fsel1, .fsel2, .fsel3, .fsel4, .fsel5].Nodup := by decide
  exact (List.getElem?_inj hm hlist).1 (by rw [fselBank_getElem hm, fselBank_getElem hn, h])

/-- A pin's field ends at bit 29 at the latest. -/
theorem fselShift_le (pin : Byte) : fselShift pin ≤ 27 := by
  unfold fselShift
  omega

/-- The bits of a field of three. -/
theorem getLsbD_field3 (shift k : Nat) :
    (0b111#32 <<< shift).getLsbD k = decide (k < 32 ∧ shift ≤ k ∧ k < shift + 3) := by
  have hones : 0b111#32 = (BitVec.allOnes 3).setWidth 32 := rfl
  rw [hones, BitVec.getLsbD_shiftLeft, BitVec.getLsbD_setWidth, BitVec.getLsbD_allOnes, Bool.eq_iff_iff]
  simp only [Bool.and_eq_true, Bool.not_eq_true', decide_eq_true_eq, decide_eq_false_iff_not]
  omega

theorem getLsbD_fselMask (pin : Byte) (k : Nat) :
    (fselMask pin).getLsbD k = decide (k < 32 ∧ fselShift pin ≤ k ∧ k < fselShift pin + 3) := getLsbD_field3 _ k

/-- Two words with no common bit. -/
theorem and_eq_zero_of_disjoint {v w : Word} (h : ∀ k, v.getLsbD k = true → w.getLsbD k = false) : v &&& w = 0#32 := by
  refine BitVec.eq_of_getLsbD_eq fun k _ => ?_
  rw [BitVec.getLsbD_and, BitVec.getLsbD_zero]
  cases hv : v.getLsbD k
  · rfl
  · exact h k hv

/-- Two fields, one ending where the other begins or before, share no bit. -/
theorem fselMask_disjoint {p q : Byte} (h : fselShift p + 3 ≤ fselShift q ∨ fselShift q + 3 ≤ fselShift p) :
    fselMask p &&& fselMask q = 0#32 := by
  refine and_eq_zero_of_disjoint fun k hk => ?_
  rw [getLsbD_fselMask, decide_eq_true_eq] at hk
  rw [getLsbD_fselMask, decide_eq_false_iff_not]
  omega

/-- The word that GPIO_INIT forms, inside the field. -/
theorem getLsbD_insertField3_inside (old : Word) (code : BitVec 3) {shift j : Nat} (hs : shift + 3 ≤ 32) (hj : j < 3) :
    (insertField3 old shift code).getLsbD (shift + j) = code.getLsbD j := by
  have hmask : (0b111#32 <<< shift).getLsbD (shift + j) = true := by
    rw [getLsbD_field3]
    exact decide_eq_true (by omega)
  have h32 : shift + j < 32 := by omega
  have hle : ¬ shift + j < shift := by omega
  have hj32 : j < 32 := by omega
  rw [insertField3, BitVec.getLsbD_or, BitVec.getLsbD_and, BitVec.getLsbD_not, hmask, BitVec.getLsbD_shiftLeft,
    BitVec.getLsbD_setWidth, Nat.add_sub_cancel_left]
  simp [h32, hle, hj32]

/-- The word that GPIO_INIT forms, outside the field. -/
theorem getLsbD_insertField3_outside (old : Word) (code : BitVec 3) {shift k : Nat} (hk : k < shift ∨ shift + 3 ≤ k) :
    (insertField3 old shift code).getLsbD k = old.getLsbD k := by
  have hmask : (0b111#32 <<< shift).getLsbD k = false := by
    rw [getLsbD_field3]
    exact decide_eq_false (by omega)
  have hcode : ((code.setWidth 32 : Word) <<< shift).getLsbD k = false := by
    rw [BitVec.getLsbD_shiftLeft]
    rcases hk with hk | hk
    · rw [decide_eq_true hk, Bool.not_true, Bool.and_false, Bool.false_and]
    · rw [BitVec.getLsbD_setWidth, BitVec.getLsbD_of_ge code _ (by omega), Bool.and_false, Bool.and_false]
  rw [insertField3, BitVec.getLsbD_or, BitVec.getLsbD_and, BitVec.getLsbD_not, hmask, hcode, Bool.or_false]
  by_cases h32 : k < 32
  · rw [decide_eq_true h32, Bool.not_false, Bool.and_true, Bool.and_true]
  · rw [BitVec.getLsbD_of_ge old k (by omega), Bool.false_and]

/-! ## The bit tests (R95, R96) -/

/-- The level of the owned bit, by the test of the word. -/
theorem sampledLevel_eq (w mask : Word) : sampledLevel w mask = if w &&& mask ≠ 0#32 then .high else .low := by
  unfold sampledLevel testMask
  by_cases h : w &&& mask ≠ 0#32
  · rw [if_pos h, if_pos (decide_eq_true h)]
  · rw [if_neg h, if_neg (by rw [decide_eq_true_eq]; exact h)]

/-- The number that GPIO_SAMPLE returns is the test of the owned bit. -/
theorem levelIsHigh_sampledLevel (w mask : Word) : levelIsHigh (sampledLevel w mask) = testMask w mask := by
  unfold sampledLevel
  cases testMask w mask <;> rfl

/-! ## The lines of the GPIO commands -/

section GpioLines
variable {s : State} {α : Type}

/-- A conditional line whose condition fails, before others. -/
theorem whenever_skip {b : Bool} {c : Cmd Unit} {f : Unit → Cmd α} (h : b = false) : (whenever b c >>= f) s = f () s := by
  rw [h, whenever_false, bind_ok (pure_apply () s)]

/-- A conditional line whose condition holds and that stops, before others. -/
theorem whenever_stop {b : Bool} {c : Cmd Unit} {f : Unit → Cmd α} {t : State} {e : Stop} (h : b = true)
    (hc : c s = .error e t) : (whenever b c >>= f) s = .error e t := by
  rw [h, whenever_true, bind_error hc]

/-- `RegRead` of a register the tables lack (R98). -/
theorem regRead_unmapped {r : Reg} (h : portOf s.params r = none) : regRead r s = .error (.fatal .unmappedRegister) s := by
  rcases regRead_cases r s with ⟨d, hd, _⟩ | ⟨d, hd, _⟩ | ⟨_, hread⟩
  · cases h.symm.trans hd
  · cases h.symm.trans hd
  · exact hread

/-- `RegWrite` of a register the tables lack (R98). -/
theorem regWrite_unmapped {r : Reg} (h : portOf s.params r = none) (v : Word) :
    regWrite r v s = .error (.fatal .unmappedRegister) s := by
  rcases regWrite_cases r v s with ⟨d, hd, _⟩ | ⟨d, hd, _⟩ | ⟨_, hwrite⟩
  · cases h.symm.trans hd
  · cases h.symm.trans hd
  · exact hwrite

theorem getPort_unmapped {r : Reg} (h : portOf s.params r = none) : getPort r s = .error (.fatal .unmappedRegister) s := by
  rw [getPort, getState_bind, h]
  rfl

/-- One register that the tables lack fails the check of R98. -/
theorem requireMapped_unmapped {rs : List Reg} {r : Reg} (hr : r ∈ rs) (h : portOf s.params r = none) :
    requireMapped rs s = .error (.fatal .unmappedRegister) s := by
  induction rs with
  | nil => cases hr
  | cons q qs ih =>
    rcases List.mem_cons.1 hr with rfl | hr
    · exact bind_error (getPort_unmapped h)
    · cases hq : portOf s.params q with
      | none => exact bind_error (getPort_unmapped hq)
      | some d =>
        have hget : getPort q s = .ok d s := by rw [getPort, getState_bind, hq]; rfl
        exact bind_eq hget (ih hr)

theorem mapped_of_writableAt {r : Reg} {a : Word} (h : s.writableAt r a) : (portOf s.params r).isSome := by
  obtain ⟨_, hport, _⟩ := h
  exact Option.isSome_of_eq_some hport

theorem mapped_of_readableAt {r : Reg} {a : Word} (h : s.readableAt r a) : (portOf s.params r).isSome := by
  obtain ⟨_, hport, _⟩ := h
  exact Option.isSome_of_eq_some hport

variable {pin : Byte} {u : PinUnit}

/-- What GPIO_SET, GPIO_CLR and GPIO_RELEASE share, on a register that may be written (R93, R94, R97). -/
theorem runCmd_pulsePin {k : BankKind} {a : Word} (hu : s.livePin pin = some u) (ha : s.writableAt (bankReg k pin) a)
    (after : PinFsm) :
    runCmd (pulsePin k after pin) s =
      .next (((s.afterEvents [.wr a (bankMask pin)]).setPin pin { u with fsm := after }).completed 1) :=
  runCmd_ok (bind_eq (pinUnit_ok hu) (bind_eq (regWrite_ok ha) rfl))

/-- The same on a register the tables lack (R98). -/
theorem runCmd_pulsePin_unmapped {k : BankKind} (hu : s.livePin pin = some u)
    (h : portOf s.params (bankReg k pin) = none) (after : PinFsm) :
    runCmd (pulsePin k after pin) s = .next (takeFatal .unmappedRegister s) :=
  runCmd_fatal (bind_eq (pinUnit_ok hu) (bind_error (regWrite_unmapped h _)))

end GpioLines

/-! ## The registers of the default table (R24) -/

/-- The permission that R24 gives both registers of a kind. -/
def bankPerm : BankKind → Perm
  | .set | .clr => .writeOnly
  | .lev => .readOnly
  | .eds => .readWrite

theorem bankPair_default (k : BankKind) :
    (∃ o, GpioTable.default.desc (bankPair k).1 = some ⟨o, bankPerm k⟩) ∧
    (∃ o, GpioTable.default.desc (bankPair k).2 = some ⟨o, bankPerm k⟩) := by
  cases k <;> exact ⟨⟨_, rfl⟩, ⟨_, rfl⟩⟩

theorem fselBank_default (n : Nat) : ∃ o, GpioTable.default.desc (fselBank n) = some ⟨o, .readWrite⟩ := by
  unfold fselBank
  split <;> exact ⟨_, rfl⟩

/-- The default table maps the register of every kind, with the permission of the kind. -/
theorem portOf_bankReg_default {p : Params} (hp : p.gpio = .default) (k : BankKind) (pin : Byte) :
    ∃ a, portOf p (bankReg k pin) = some ⟨a, bankPerm k⟩ := by
  obtain ⟨⟨o₁, hlow⟩, o₂, hhigh⟩ := bankPair_default k
  rw [bankReg_eq]
  split
  · exact ⟨_, portOf_gpio (hp ▸ hlow)⟩
  · exact ⟨_, portOf_gpio (hp ▸ hhigh)⟩

/-- The default table maps the function-select register of every pin. -/
theorem portOf_fselReg_default {p : Params} (hp : p.gpio = .default) (pin : Byte) :
    ∃ a, portOf p (fselReg pin) = some ⟨a, .readWrite⟩ := by
  obtain ⟨o, ho⟩ := fselBank_default (pin.toNat / 10)
  exact ⟨_, portOf_gpio (hp ▸ ho)⟩

/-! ## The accesses that the tables let pass (R76, R77) -/

/-- The tables let a read of the register pass. -/
def MayRead (p : Params) (r : Reg) : Prop := ∃ d, portOf p r = some d ∧ d.perm ≠ .writeOnly

/-- The tables let a write of the register pass. -/
def MayWrite (p : Params) (r : Reg) : Prop := ∃ d, portOf p r = some d ∧ d.perm ≠ .readOnly

/-- A register of the tables has a port (R69). -/
theorem portOf_isSome_of_hasReg {p : Params} {r : Reg} (h : p.hasReg r = true) : (portOf p r).isSome := by
  cases r with
  | gpio g => exact Option.isSome_map.trans h
  | uart u => rfl
  | i2c i => rfl
  | pend k =>
    obtain ⟨hk, _⟩ := of_decide_eq_true h
    rw [portOf_pend (List.getElem?_eq_getElem hk)]
    rfl
  | secstat => rfl

section DefaultAccess
variable {p : Params} (hp : defaultTables p)
include hp

theorem mayRead_uart (r : UartReg) : MayRead p (.uart r) := by
  obtain ⟨_, huart, _⟩ := hp
  refine ⟨_, portOf_uart r, ?_⟩
  rw [huart]
  cases r <;> decide

/-- `FR` is the one UART register that R30 lets no command write. -/
theorem mayWrite_uart {r : UartReg} (hr : r ≠ .fr) : MayWrite p (.uart r) := by
  obtain ⟨_, huart, _⟩ := hp
  refine ⟨_, portOf_uart r, ?_⟩
  rw [huart]
  cases r with
  | fr => exact absurd rfl hr
  | _ => decide

theorem i2c_readWrite (r : I2cReg) : (p.i2c.desc r).perm = .readWrite := by
  obtain ⟨_, _, hi2c, _⟩ := hp
  rw [hi2c]
  cases r <;> rfl

theorem mayRead_i2c (r : I2cReg) : MayRead p (.i2c r) := ⟨_, portOf_i2c r, by rw [i2c_readWrite hp]; exact Perm.noConfusion⟩

theorem mayWrite_i2c (r : I2cReg) : MayWrite p (.i2c r) := ⟨_, portOf_i2c r, by rw [i2c_readWrite hp]; exact Perm.noConfusion⟩

theorem mayRead_pend {k : Nat} {b : IrqBank} (hb : p.irqBanks[k]? = some b) : MayRead p (.pend k) := by
  obtain ⟨_, _, _, _, hbanks⟩ := hp
  exact ⟨_, portOf_pend hb, by rw [hbanks b (List.mem_of_getElem? hb)]; exact Perm.noConfusion⟩

theorem mayRead_secstat : MayRead p .secstat := by
  obtain ⟨_, _, _, hsecstat, _⟩ := hp
  exact ⟨_, portOf_secstat, by rw [hsecstat]; decide⟩

theorem mayRead_bankReg {k : BankKind} (hk : bankPerm k ≠ .writeOnly) (pin : Byte) : MayRead p (bankReg k pin) := by
  obtain ⟨hgpio, _⟩ := hp
  obtain ⟨_, ha⟩ := portOf_bankReg_default hgpio k pin
  exact ⟨_, ha, hk⟩

theorem mayWrite_bankReg {k : BankKind} (hk : bankPerm k ≠ .readOnly) (pin : Byte) : MayWrite p (bankReg k pin) := by
  obtain ⟨hgpio, _⟩ := hp
  obtain ⟨_, ha⟩ := portOf_bankReg_default hgpio k pin
  exact ⟨_, ha, hk⟩

theorem mayRead_fselReg (pin : Byte) : MayRead p (fselReg pin) := by
  obtain ⟨hgpio, _⟩ := hp
  obtain ⟨_, ha⟩ := portOf_fselReg_default hgpio pin
  exact ⟨_, ha, Perm.noConfusion⟩

theorem mayWrite_fselReg (pin : Byte) : MayWrite p (fselReg pin) := by
  obtain ⟨hgpio, _⟩ := hp
  obtain ⟨_, ha⟩ := portOf_fselReg_default hgpio pin
  exact ⟨_, ha, Perm.noConfusion⟩

end DefaultAccess

/-! ## Which fatal conditions lines raise (R98, R142) -/

/-- A run with parameters `p` that is not halted stands in `s`. -/
structure Running (p : Params) (s : State) : Prop where
  params : s.params = p
  halt : s.halt = none

/-- What is known after lines that raise only conditions of `codes`. -/
def RaisedIn {α : Type} (p : Params) (codes : FatalCode → Prop) : EStateM.Result Stop State α → Prop
  | .ok _ t => Running p t
  | .error .poll t => Running p t
  | .error (.fatal code) _ => codes code
  | .error (.refuse _) _ => True

/-- In a run with parameters `p`, the lines raise only conditions of `codes`. -/
def RaisesOnly {α : Type} (p : Params) (codes : FatalCode → Prop) (c : Cmd α) : Prop :=
  ∀ s, Running p s → RaisedIn p codes (c s)

/-- The conditions that no register access raises (R76, R77, R98). -/
abbrev NotOfAccess (code : FatalCode) : Prop := code ≠ .unmappedRegister ∧ code ≠ .permissionViolation

namespace RaisesOnly
variable {p : Params} {codes : FatalCode → Prop} {α β : Type}

theorem bind {c : Cmd α} {f : α → Cmd β} (hc : RaisesOnly p codes c) (hf : ∀ a, RaisesOnly p codes (f a)) :
    RaisesOnly p codes (c >>= f) := by
  intro s hs
  have h := hc s hs
  match hcs : c s with
  | .ok a t =>
    rw [hcs] at h
    rw [bind_ok hcs]
    exact hf a t h
  | .error .poll t =>
    rw [hcs] at h
    rw [bind_error hcs]
    exact h
  | .error (.fatal code) t =>
    rw [hcs] at h
    rw [bind_error hcs]
    exact h
  | .error (.refuse why) t =>
    rw [bind_error hcs]
    trivial

theorem pure (a : α) : RaisesOnly p codes (pure a : Cmd α) := fun _ hs => hs

/-- A look at the state sees the parameters of the run. -/
theorem look {f : State → Cmd α} (hf : ∀ s, s.params = p → RaisesOnly p codes (f s)) :
    RaisesOnly p codes (getState >>= f) := fun s hs => hf s hs.params s hs

theorem update {g : State → State} (hparams : ∀ s, (g s).params = s.params) (hhalt : ∀ s, (g s).halt = s.halt) :
    RaisesOnly p codes (update g) := fun s hs => ⟨(hparams s).trans hs.params, (hhalt s).trans hs.halt⟩

theorem raise {code : FatalCode} (h : codes code) : RaisesOnly p codes (raiseFatal code : Cmd α) := fun _ _ => h
theorem refuse (why : RefuseWhy) : RaisesOnly p codes (refuse why : Cmd α) := fun _ _ => trivial
theorem wait (pr : Progress) : RaisesOnly p codes (pollAgain pr : Cmd α) := fun _ hs => ⟨hs.params, hs.halt⟩

theorem complete (n : Nat) : RaisesOnly p codes (complete n) := update (fun _ => rfl) fun _ => rfl
theorem emit (v : OutValue) : RaisesOnly p codes (emitOut v) := update (fun _ => rfl) fun _ => rfl
theorem putUart (u : UartUnit) : RaisesOnly p codes (putUart u) := update (fun _ => rfl) fun _ => rfl
theorem putI2c (u : I2cUnit) : RaisesOnly p codes (putI2c u) := update (fun _ => rfl) fun _ => rfl
theorem updateUart (f : UartUnit → UartUnit) : RaisesOnly p codes (updateUart f) := update (fun _ => rfl) fun _ => rfl
theorem updateI2c (f : I2cUnit → I2cUnit) : RaisesOnly p codes (updateI2c f) := update (fun _ => rfl) fun _ => rfl
theorem setI2cFsm (st : I2cFsm) : RaisesOnly p codes (setI2cFsm st) := updateI2c _
theorem putPin (pin : Byte) (u : PinUnit) : RaisesOnly p codes (putPin pin u) :=
  update (fun s => setPin_params s pin u) fun s => setPin_halt s pin u

theorem register (ty : DriverType) : RaisesOnly p codes (Machine.update (setRegistered ty)) := by
  cases ty
  · exact update (fun _ => rfl) fun _ => rfl
  · exact update (fun _ => rfl) fun _ => rfl

theorem ite {q : Prop} [Decidable q] {c d : Cmd α} (hc : RaisesOnly p codes c) (hd : RaisesOnly p codes d) :
    RaisesOnly p codes (if q then c else d) := by
  split
  · exact hc
  · exact hd

theorem whenever {b : Bool} {c : Cmd Unit} (hc : RaisesOnly p codes c) : RaisesOnly p codes (whenever b c) :=
  ite hc (pure ())

theorem requireUnit (u : Option α) : RaisesOnly p codes (requireUnit u) := by
  cases u
  · exact refuse _
  · exact pure _

theorem pinUnit (pin : Byte) : RaisesOnly p codes (pinUnit pin) := look fun _ _ => requireUnit _
theorem uartUnit : RaisesOnly p codes uartUnit := look fun _ _ => requireUnit _
theorem i2cUnit : RaisesOnly p codes i2cUnit := look fun _ _ => requireUnit _

theorem requireDriver (ty : DriverType) : RaisesOnly p codes (requireDriver ty) := by
  cases ty
  · exact bind uartUnit fun _ => pure _
  · exact bind i2cUnit fun _ => pure _

theorem resolveClock : RaisesOnly p codes resolveClock := by
  intro s hs
  rcases resolveClock_cases s with ⟨_, _, h⟩ | ⟨_, _, _, h⟩ | ⟨_, _, h⟩ <;> rw [h]
  · exact hs
  · exact ⟨hs.params, hs.halt⟩
  · exact ⟨hs.params, hs.halt⟩

theorem clockHz : RaisesOnly p codes clockHz := by
  refine look fun s _ => ?_
  cases s.uclk
  · exact refuse _
  · exact pure _

theorem emitAll (vs : List OutValue) : RaisesOnly p codes (emitAll vs) := by
  induction vs with
  | nil => exact pure _
  | cons v vs ih => exact bind (emit v) fun _ => ih

theorem finishRead (n : Nat) : RaisesOnly p codes (finishRead n) :=
  bind i2cUnit fun _ => bind (emit _) fun _ => bind (setI2cFsm _) fun _ => complete _

/-! ### Register accesses -/

theorem read {r : Reg} (h : MayRead p r) : RaisesOnly p codes (regRead r) := by
  intro s hs
  obtain ⟨d, hd, hperm⟩ := h
  rw [regRead_ok ⟨d.perm, hs.params ▸ hd, hperm⟩]
  exact ⟨hs.params, hs.halt⟩

theorem write {r : Reg} (h : MayWrite p r) (v : Word) : RaisesOnly p codes (regWrite r v) := by
  intro s hs
  obtain ⟨d, hd, hperm⟩ := h
  rw [regWrite_ok ⟨d.perm, hs.params ▸ hd, hperm⟩]
  exact ⟨hs.params, hs.halt⟩

/-- A read of a register of the tables finds a port (R76). -/
theorem read_mapped {r : Reg} (h : (portOf p r).isSome) : RaisesOnly p (· ≠ .unmappedRegister) (regRead r) := by
  intro s hs
  rw [← hs.params] at h
  rcases regRead_cases r s with ⟨d, _, _, hr⟩ | ⟨_, _, _, hr⟩ | ⟨hnone, _⟩
  · rw [hr]
    exact ⟨hs.params, hs.halt⟩
  · rw [hr]
    exact FatalCode.noConfusion
  · rw [hnone] at h
    cases h

/-- A write of a register of the tables finds a port (R77). -/
theorem write_mapped {r : Reg} (h : (portOf p r).isSome) (v : Word) :
    RaisesOnly p (· ≠ .unmappedRegister) (regWrite r v) := by
  intro s hs
  rw [← hs.params] at h
  rcases regWrite_cases r v s with ⟨d, _, _, hr⟩ | ⟨_, _, _, hr⟩ | ⟨hnone, _⟩
  · rw [hr]
    exact ⟨hs.params, hs.halt⟩
  · rw [hr]
    exact FatalCode.noConfusion
  · rw [hnone] at h
    cases h

theorem requireMapped {rs : List Reg} (h : ∀ r ∈ rs, (portOf p r).isSome) : RaisesOnly p codes (requireMapped rs) := by
  intro s hs
  rw [requireMapped_ok fun r hr => hs.params ▸ h r hr]
  exact hs

/-- A register that passes the encoding check stands in the tables (R69, log 13). -/
theorem encodable {r : Reg} {f : Unit → Cmd α} (hf : (portOf p r).isSome → RaisesOnly p codes (f ())) :
    RaisesOnly p codes (requireEncodable r >>= f) := by
  intro s hs
  cases hr : s.params.hasReg r with
  | true =>
    rw [bind_ok (requireEncodable_ok hr)]
    exact hf (portOf_isSome_of_hasReg (hs.params ▸ hr)) s hs
  | false =>
    have hrefused : Machine.requireEncodable r s = .error (.refuse .reservedEncoding) s := by
      rw [Machine.requireEncodable, getState_bind, hr]
      rfl
    rw [bind_error hrefused]
    trivial

/-- The halt record after a command whose lines raise only conditions of `codes`. -/
theorem halt_code {c : Cmd Unit} (hc : RaisesOnly p codes c) {s t : State} (hs : Running p s) (h : runCmd c s = .next t)
    {r : HaltRecord} (hr : t.halt = some r) : codes r.code := by
  have hrun := hc s hs
  rcases runCmd_next_cases h with hcs | ⟨code, u, hcs, rfl⟩ | hcs <;> rw [hcs] at hrun
  · cases hrun.halt.symm.trans hr
  · rw [takeFatal_halt] at hr
    injection hr with hr
    rw [← hr]
    exact hrun
  · cases hrun.halt.symm.trans hr

/-! ### UART -/

theorem baudDiv (clock target : Word) : RaisesOnly p NotOfAccess (baudDiv clock target) :=
  ite (refuse _) (ite (raise (by decide)) (ite (pure _) (raise (by decide))))

section Tables
variable (hp : defaultTables p)
include hp

theorem drainReads (k : Nat) : RaisesOnly p codes (drainReads k) := by
  induction k with
  | zero => exact pure _
  | succ k ih => exact bind (read (mayRead_uart hp _)) fun _ => ih

theorem toggleFifo : RaisesOnly p codes toggleFifo :=
  look fun _ _ => bind (read (mayRead_uart hp _)) fun _ =>
    bind (write (mayWrite_uart hp (by decide)) _) fun _ => write (mayWrite_uart hp (by decide)) _

theorem flush : RaisesOnly p codes flush :=
  look fun _ _ => bind (read (mayRead_uart hp _)) fun _ => bind (whenever (toggleFifo hp)) fun _ =>
    whenever (drainReads hp _)

theorem applyLineControl (u : UartUnit) (parity : Option Parity) (wlen : Option WordLength) (stop : Option StopBits) :
    RaisesOnly p codes (applyLineControl u parity wlen stop) :=
  look fun _ _ => bind (putUart _) fun _ => bind (read (mayRead_uart hp _)) fun _ =>
    write (mayWrite_uart hp (by decide)) _

theorem pollTransmit (sent : Nat) : RaisesOnly p codes (pollTransmit sent) :=
  look fun _ _ => whenever (bind (read (mayRead_uart hp _)) fun _ => whenever (wait _))

theorem transmitAll (sent : Nat) (xs : List Byte) : RaisesOnly p codes (transmitAll sent xs) := by
  induction xs generalizing sent with
  | nil => exact pure _
  | cons x xs ih =>
    refine bind ?_ fun _ => ih _
    exact bind (pollTransmit hp sent) fun _ => bind (write (mayWrite_uart hp (by decide)) _) fun _ => updateUart _

theorem writeUnits (units : List Byte) (len : Nat) : RaisesOnly p codes (writeUnits units len) :=
  bind uartUnit fun _ => look fun _ _ => bind (transmitAll hp _ _) fun _ => complete _

theorem uartInitBody : RaisesOnly p NotOfAccess uartInitBody :=
  bind uartUnit fun _ => bind resolveClock fun _ => look fun _ _ => bind (write (mayWrite_uart hp (by decide)) _) fun _ =>
    bind clockHz fun _ => bind (baudDiv _ _) fun _ => bind (write (mayWrite_uart hp (by decide)) _) fun _ =>
      bind (write (mayWrite_uart hp (by decide)) _) fun _ => bind (flush hp) fun _ => applyLineControl hp _ _ _ _

/-! ### I2C -/

theorem setDiv (u : I2cUnit) : RaisesOnly p codes (setDiv u) :=
  look fun _ _ => bind (whenever (refuse _)) fun _ => write (mayWrite_i2c hp _) _

theorem setAddress (addr : Byte) : RaisesOnly p NotOfAccess (setAddress addr) :=
  bind (whenever (raise (by decide))) fun _ => bind (updateI2c _) fun _ => write (mayWrite_i2c hp _) _

theorem setDirection (d : Direction) : RaisesOnly p codes (setDirection d) :=
  look fun _ _ => bind (updateI2c _) fun _ => bind (read (mayRead_i2c hp _)) fun _ => write (mayWrite_i2c hp _) _

theorem setLength (n : BitVec 16) : RaisesOnly p codes (setLength n) :=
  bind (updateI2c _) fun _ => bind (write (mayWrite_i2c hp _) _) fun _ => setI2cFsm _

theorem clearFifo : RaisesOnly p codes clearFifo :=
  look fun _ _ => bind (read (mayRead_i2c hp _)) fun _ => write (mayWrite_i2c hp _) _

theorem clearStatus : RaisesOnly p codes clearStatus := look fun _ _ => write (mayWrite_i2c hp _) _

theorem startTransfer : RaisesOnly p NotOfAccess startTransfer :=
  look fun _ _ => bind (read (mayRead_i2c hp _)) fun _ => bind (whenever (raise (by decide))) fun _ =>
    bind (write (mayWrite_i2c hp _) _) fun _ => setI2cFsm _

theorem pushFifo (bs : List Byte) : RaisesOnly p codes (pushFifo bs) := by
  induction bs with
  | nil => exact pure _
  | cons b bs ih => exact bind (write (mayWrite_i2c hp _) _) fun _ => ih

theorem writeSlave (addr : Byte) (bs : List Byte) : RaisesOnly p NotOfAccess (writeSlave addr bs) :=
  bind (setDirection hp _) fun _ => bind (setAddress hp _) fun _ => bind (setLength hp _) fun _ =>
    bind (clearFifo hp) fun _ => bind (pushFifo hp _) fun _ => bind (clearStatus hp) fun _ => startTransfer hp

theorem i2cInitBody : RaisesOnly p NotOfAccess i2cInitBody :=
  bind i2cUnit fun _ => look fun _ _ => bind (read (mayRead_i2c hp _)) fun _ => bind (write (mayWrite_i2c hp _) _) fun _ =>
    bind (setDiv hp _) fun _ => bind (write (mayWrite_i2c hp _) _) fun _ => bind (writeSlave hp _ _) fun _ => setI2cFsm _

theorem readSetup (addr : Byte) (n : BitVec 16) : RaisesOnly p NotOfAccess (readSetup addr n) :=
  look fun _ _ => bind (whenever (refuse _)) fun _ => bind (setDirection hp _) fun _ => bind (setAddress hp _) fun _ =>
    bind (setLength hp _) fun _ => bind (clearFifo hp) fun _ => startTransfer hp

theorem pollReceive (got : Nat) : RaisesOnly p codes (pollReceive got) :=
  look fun _ _ => whenever (bind (read (mayRead_i2c hp _)) fun _ => whenever (wait _))

theorem receiveAll (got k : Nat) : RaisesOnly p codes (receiveAll got k) := by
  induction k generalizing got with
  | zero => exact pure _
  | succ k ih =>
    refine bind ?_ fun _ => ih _
    exact bind (pollReceive hp got) fun _ => bind (read (mayRead_i2c hp _)) fun _ => updateI2c _

theorem readTransfer (addr : Byte) (n : BitVec 16) (pr : Progress) : RaisesOnly p NotOfAccess (readTransfer addr n pr) := by
  have start : RaisesOnly p NotOfAccess (readFromStart addr n) := bind (readSetup hp addr n) fun _ => receiveAll hp _ _
  cases pr with
  | idle => exact start
  | uartTx k => exact start
  | i2cRx got => exact receiveAll hp _ _

theorem driverInitBody (ty : DriverType) : RaisesOnly p NotOfAccess (driverInitBody ty) := by
  cases ty
  · exact uartInitBody hp
  · exact i2cInitBody hp

/-! ### IRQ -/

theorem classifyFamily (k : Nat) : RaisesOnly p codes (classifyFamily k) := by
  refine look fun s _ => ?_
  cases familyOf s.params.irqFamilyBit k
  · exact pure _
  · exact bind (read (mayRead_secstat hp)) fun _ => emitAll _

theorem classifyBit (label k : Nat) : RaisesOnly p codes (classifyBit label k) := by
  refine look fun s _ => ite (classifyFamily hp k) ?_
  cases knownName s.params.irqKnown label k
  · exact pure _
  · exact emit _

theorem classifyBits (label : Nat) (w : Word) (ks : List Nat) : RaisesOnly p codes (classifyBits label w ks) := by
  induction ks with
  | nil => exact pure _
  | cons k ks ih => exact bind (whenever (classifyBit hp label k)) fun _ => ih

/-- The banks from number `n` on: each reads its own pending word. -/
theorem dispatchBanks {n : Nat} {bs : List IrqBank} (h : p.irqBanks.drop n = bs) :
    RaisesOnly p codes (dispatchBanks n bs) := by
  induction bs generalizing n with
  | nil => exact pure _
  | cons b bs ih =>
    have hb : p.irqBanks[n]? = some b := by rw [← List.head?_drop, h, List.head?_cons]
    have hrest : p.irqBanks.drop (n + 1) = bs := by rw [← List.tail_drop, h, List.tail_cons]
    exact bind (read (mayRead_pend hp hb)) fun _ => bind (whenever (classifyBits hp _ _ _)) fun _ => ih hrest

/-! ### GPIO -/

/-- What GPIO_SET, GPIO_CLR and GPIO_RELEASE share (R93, R94, R97). -/
theorem pulsePin {k : BankKind} (hk : bankPerm k ≠ .readOnly) (after : PinFsm) (pin : Byte) :
    RaisesOnly p codes (pulsePin k after pin) :=
  bind (pinUnit pin) fun _ => bind (write (mayWrite_bankReg hp hk pin) _) fun _ => bind (putPin _ _) fun _ => complete _

/-- GPIO_INIT names three registers, which all stand in the table (R92, R98). -/
theorem requireMapped_gpioInit (k : BankKind) (pin : Byte) :
    RaisesOnly p codes (Machine.requireMapped [bankReg k pin, fselReg pin, bankReg .lev pin]) := by
  obtain ⟨hgpio, _⟩ := hp
  obtain ⟨_, hk⟩ := portOf_bankReg_default hgpio k pin
  obtain ⟨_, hsel⟩ := portOf_fselReg_default hgpio pin
  obtain ⟨_, hlev⟩ := portOf_bankReg_default hgpio .lev pin
  refine requireMapped ?_
  simp [hk, hsel, hlev]

end Tables

end RaisesOnly

/-! ## Every command (R98, R142) -/

/-- A raw access names a register of the tables, so it finds a port. -/
theorem exec_raw_raises {i : Instr} (hi : isRawAccess i = true) (p : Params) :
    ∃ c, (∀ s, exec i s = runCmd c s) ∧ RaisesOnly p (· ≠ .unmappedRegister) c := by
  cases i with
  | regRead r =>
    exact ⟨_, fun _ => rfl, .encodable fun hr => .bind (.read_mapped hr) fun _ => .bind (.emit _) fun _ => .complete 1⟩
  | regWrite r v => exact ⟨_, fun _ => rfl, .encodable fun hr => .bind (.write_mapped hr v) fun _ => .complete 1⟩
  | _ => cases hi

/-- Every other command names only registers whose default permission lets its accesses pass. -/
theorem exec_raises {i : Instr} (hi : isRawAccess i = false) {p : Params} (hp : defaultTables p) :
    ∃ c, (∀ s, exec i s = runCmd c s) ∧ RaisesOnly p NotOfAccess c := by
  have fin : RaisesOnly p NotOfAccess (complete 1) := .complete 1
  cases i with
  | regRead r => cases hi
  | regWrite r v => cases hi
  | mgrRegister ty =>
    exact ⟨_, fun _ => rfl, .bind (.requireDriver ty) fun _ => .bind (.register ty) fun _ => fin⟩
  | mgrInitAll ty =>
    refine ⟨_, fun _ => rfl, .look fun s _ => ?_⟩
    cases managerOf ty s
    · exact fin
    · exact .bind (.driverInitBody hp ty) fun _ => fin
  | consoleBind =>
    exact ⟨_, fun _ => rfl, .bind .uartUnit fun _ => .bind (.update (fun _ => rfl) fun _ => rfl) fun _ => fin⟩
  | gpioNew pin f pull level =>
    exact ⟨_, fun _ => rfl, .bind (.whenever (.raise (by decide))) fun _ => .look fun _ _ =>
      .bind (.whenever (.refuse _)) fun _ => .bind (.putPin _ _) fun _ => fin⟩
  | gpioInit pin =>
    have assert (l : Level) : bankPerm (assertKind l) ≠ .readOnly := by cases l <;> decide
    exact ⟨_, fun _ => rfl, .bind (.pinUnit pin) fun u => .look fun _ _ => .bind (.requireMapped_gpioInit hp _ pin) fun _ =>
      .bind (.write (mayWrite_bankReg hp (assert u.level) pin) _) fun _ => .bind (.read (mayRead_fselReg hp pin)) fun _ =>
      .bind (.write (mayWrite_fselReg hp pin) _) fun _ => .bind (.read (mayRead_bankReg hp (by decide) pin)) fun _ =>
      .bind (.putPin _ _) fun _ => fin⟩
  | gpioSet pin => exact ⟨_, fun _ => rfl, .pulsePin hp (by decide) _ _⟩
  | gpioClr pin => exact ⟨_, fun _ => rfl, .pulsePin hp (by decide) _ _⟩
  | gpioSample pin =>
    exact ⟨_, fun _ => rfl, .bind (.pinUnit pin) fun _ => .bind (.read (mayRead_bankReg hp (by decide) pin)) fun _ =>
      .bind (.putPin _ _) fun _ => .bind (.emit _) fun _ => fin⟩
  | gpioEdge pin =>
    exact ⟨_, fun _ => rfl, .bind (.pinUnit pin) fun _ => .bind (.read (mayRead_bankReg hp (by decide) pin)) fun _ =>
      .bind (.emit _) fun _ => fin⟩
  | gpioRelease pin => exact ⟨_, fun _ => rfl, .pulsePin hp (by decide) _ _⟩
  | uartNew parity wlen stop baud =>
    exact ⟨_, fun _ => rfl, .look fun _ _ => .bind (.whenever (.refuse _)) fun _ => .bind (.putUart _) fun _ => fin⟩
  | uartResolveClk => exact ⟨_, fun _ => rfl, .bind .resolveClock fun _ => fin⟩
  | uartBaudDiv target =>
    exact ⟨_, fun _ => rfl,
      .bind .uartUnit fun _ => .bind .clockHz fun _ => .bind (.baudDiv _ _) fun _ => .bind (.emit _) fun _ => fin⟩
  | uartLineCtl parity wlen stop =>
    exact ⟨_, fun _ => rfl, .bind .uartUnit fun _ => .bind (.applyLineControl hp _ _ _ _) fun _ => fin⟩
  | uartFlush => exact ⟨_, fun _ => rfl, .bind .uartUnit fun _ => .bind (.flush hp) fun _ => fin⟩
  | uartWriteChar b => exact ⟨_, fun _ => rfl, .writeUnits hp _ _⟩
  | uartWriteBytes bs => exact ⟨_, fun _ => rfl, .writeUnits hp _ _⟩
  | uartInit => exact ⟨_, fun _ => rfl, .bind (.uartInitBody hp) fun _ => fin⟩
  | uartCharsWritten => exact ⟨_, fun _ => rfl, .bind .uartUnit fun _ => .bind (.emit _) fun _ => fin⟩
  | uartReadBytes rest => exact ⟨_, fun _ => rfl, .refuse _⟩
  | uartRelease => exact ⟨_, fun _ => rfl, .bind .uartUnit fun _ => .bind (.putUart _) fun _ => fin⟩
  | i2cNew timeout clock =>
    exact ⟨_, fun _ => rfl, .look fun _ _ => .bind (.whenever (.refuse _)) fun _ => .bind (.putI2c _) fun _ => fin⟩
  | i2cSetDiv => exact ⟨_, fun _ => rfl, .bind .i2cUnit fun _ => .bind (.setDiv hp _) fun _ => fin⟩
  | i2cSetAddr addr =>
    exact ⟨_, fun _ => rfl, .bind .i2cUnit fun _ => .bind (.setAddress hp _) fun _ => .bind (.setI2cFsm _) fun _ => fin⟩
  | i2cSetDir dir =>
    exact ⟨_, fun _ => rfl, .bind .i2cUnit fun _ => .bind (.setDirection hp _) fun _ => .bind (.setI2cFsm _) fun _ => fin⟩
  | i2cWrite addr bs =>
    exact ⟨_, fun _ => rfl,
      .bind .i2cUnit fun _ => .bind (.writeSlave hp _ _) fun _ => .bind (.setI2cFsm _) fun _ => .complete _⟩
  | i2cRead addr n =>
    exact ⟨_, fun _ => rfl,
      .bind .i2cUnit fun _ => .look fun _ _ => .bind (.readTransfer hp _ _ _) fun _ => .finishRead _⟩
  | i2cInit => exact ⟨_, fun _ => rfl, .bind (.i2cInitBody hp) fun _ => fin⟩
  | i2cRelease => exact ⟨_, fun _ => rfl, .bind .i2cUnit fun _ => .bind (.putI2c _) fun _ => fin⟩
  | irqDispatch =>
    exact ⟨_, fun _ => rfl, .look fun s hs => .bind (.dispatchBanks hp (by rw [hs]; rfl)) fun _ => fin⟩

/-! ## The statements -/

/-- Settles O16: a pin's field lies at its place in the bank, and two pins of one bank stand at different places. -/
theorem functionSelectBanking : Obligations.FunctionSelectBanking := by
  refine ⟨fun pin hpin => ⟨?_, rfl, fselShift_le pin, rfl, ?_⟩, fun p q hp hq hreg hne => ?_⟩
  · rw [fselBank_getElem (by omega)]
    rfl
  · have hshift := fselShift_le pin
    have htop : ∀ k < 30, (0xC0000000#32).getLsbD k = false := by decide
    refine and_eq_zero_of_disjoint fun k hk => htop k ?_
    rw [getLsbD_fselMask, decide_eq_true_eq] at hk
    omega
  · have hbank : p.toNat / 10 = q.toNat / 10 := fselBank_injOn (by omega) (by omega) (Reg.gpio.inj hreg)
    have hpins : p.toNat ≠ q.toNat := fun h => hne (BitVec.eq_of_toNat_eq h)
    refine fselMask_disjoint ?_
    unfold fselShift
    omega

/-- Settles O17: the register and the bit by bank. -/
theorem lowAndHighBanks : Obligations.LowAndHighBanks := by
  refine fun pin hpin => ⟨bankReg_eq .set pin, bankReg_eq .clr pin, bankReg_eq .lev pin, bankReg_eq .eds pin, rfl, rfl, ?_⟩
  by_cases hlow : pin.toNat < 32
  · rw [bankBit_of_low hlow]
    omega
  · rw [bankBit_of_high hlow]
    omega

/-- Settles O18: the pin index is checked first, then whether the slot is free. -/
theorem gpioNewResult : Obligations.GpioNewResult := by
  intro s pin f pull level
  have hvalid (h : pin.toNat < 58) : decide (npin ≤ pin.toNat) = false := decide_eq_false (Nat.not_le.2 h)
  refine ⟨fun hlt hfree => ?_, fun hge => ?_, fun u hu => ?_⟩
  · refine runCmd_ok ((whenever_skip (hvalid hlt)).trans ?_)
    exact whenever_skip (congrArg Option.isSome hfree)
  · exact runCmd_fatal (whenever_stop (decide_eq_true hge) rfl)
  · refine runCmd_refuse (w := .unitExists) (t := s) ((whenever_skip (hvalid (livePin_lt hu))).trans ?_)
    exact whenever_stop (congrArg Option.isSome hu) rfl

/-- Settles O19: the four accesses in order, each read answered as named. -/
theorem gpioInitCompletes : Obligations.GpioInitCompletes := by
  refine ⟨by decide, fun s pin u aOut aSel aLev old lv hu hout hselR hselW hlev => ?_⟩
  intro new evs hans
  obtain ⟨hold, hlv, _⟩ := hans
  have hmapped : requireMapped [bankReg (assertKind u.level) pin, fselReg pin, bankReg .lev pin] s = .ok () s := by
    refine requireMapped_ok fun r hr => ?_
    rcases List.mem_cons.1 hr with rfl | hr
    · exact mapped_of_writableAt hout
    · rcases List.mem_cons.1 hr with rfl | hr
      · exact mapped_of_readableAt hselR
      · rw [List.mem_singleton.1 hr]
        exact mapped_of_readableAt hlev
  refine runCmd_ok (bind_eq (pinUnit_ok hu) (bind_eq (getState_apply s) (bind_eq hmapped ?_)))
  refine bind_eq (regWrite_ok hout) (bind_eq (regRead_answered hselR hold) (bind_eq (regWrite_ok hselW) ?_))
  refine bind_eq (regRead_answered hlev hlv) ?_
  rw [sampledLevel_eq]
  simp only [afterEvents_append]
  rfl

/-- Settles O20, bit by bit inside the field and outside it. -/
theorem functionFieldOnly : Obligations.FunctionFieldOnly := by
  intro old pin code _
  have hshift := fselShift_le pin
  refine ⟨BitVec.eq_of_getLsbD_eq fun j hj => ?_, fun k hk => getLsbD_insertField3_outside old code hk⟩
  rw [BitVec.getLsbD_extractLsb', decide_eq_true hj, Bool.true_and, getLsbD_insertField3_inside old code (by omega) hj]

/-- Settles O21: the three commands are one write and one FSM state. -/
theorem gpioPulsesComplete : Obligations.GpioPulsesComplete :=
  fun _ _ _ _ hu => ⟨fun ha => runCmd_pulsePin hu ha .driven,
    fun ha => ⟨runCmd_pulsePin hu ha .driven, runCmd_pulsePin hu ha .released⟩⟩

/-- Settles O22: one read, and what is stored and returned is the test of the owned bit. -/
theorem gpioTestsComplete : Obligations.GpioTestsComplete := by
  intro s pin u a hu w
  refine ⟨fun ha => runCmd_ok (bind_eq (pinUnit_ok hu) (bind_eq (regRead_ok ha) ?_)),
    fun ha => runCmd_ok (bind_eq (pinUnit_ok hu) (bind_eq (regRead_ok ha) rfl))⟩
  rw [levelIsHigh_sampledLevel, sampledLevel_eq]
  rfl

/-- Settles O23: the first access, or GPIO_INIT's check of its three registers, stops on the state as it was; the default table maps
every register of a pin. -/
theorem unmappedGpioRegister : Obligations.UnmappedGpioRegister := by
  intro s pin u hu
  refine ⟨fun h => runCmd_pulsePin_unmapped hu h .driven,
    fun h => ⟨runCmd_pulsePin_unmapped hu h .driven, runCmd_pulsePin_unmapped hu h .released⟩,
    fun h => runCmd_fatal (bind_eq (pinUnit_ok hu) (bind_error (regRead_unmapped h))),
    fun h => runCmd_fatal (bind_eq (pinUnit_ok hu) (bind_error (regRead_unmapped h))), fun h => ?_, fun hdef k => ?_⟩
  · have hlacks : requireMapped [bankReg (assertKind u.level) pin, fselReg pin, bankReg .lev pin] s =
        .error (.fatal .unmappedRegister) s := by
      rcases h with h | h | h
      · exact requireMapped_unmapped (by simp) h
      · exact requireMapped_unmapped (by simp) h
      · exact requireMapped_unmapped (by simp) h
    exact runCmd_fatal (bind_eq (pinUnit_ok hu) (bind_eq (getState_apply s) (bind_error hlacks)))
  · obtain ⟨a, ha⟩ := portOf_bankReg_default hdef k pin
    obtain ⟨b, hb⟩ := portOf_fselReg_default hdef pin
    exact ⟨by rw [ha]; exact Option.some_ne_none _, by rw [hb]; exact Option.some_ne_none _⟩

/-- Settles O60: a raw access finds a port, and every other command keeps to registers that the default tables let it access. -/
theorem defaultTablesPermitTheCommands : Obligations.DefaultTablesPermitTheCommands := by
  intro i s t h hp hs hexec hhalt
  have hrun : Running s.params s := ⟨rfl, hs⟩
  cases hi : isRawAccess i with
  | true =>
    obtain ⟨c, he, hc⟩ := exec_raw_raises hi s.params
    exact ⟨hc.halt_code hrun (he s ▸ hexec) hhalt, fun hne => by cases hne⟩
  | false =>
    obtain ⟨c, he, hc⟩ := exec_raises hi hp
    obtain ⟨hmapped, hpermitted⟩ := hc.halt_code hrun (he s ▸ hexec) hhalt
    exact ⟨hmapped, fun _ => hpermitted⟩

end Sys2Proof.Machine

/-!
Proofs of the statements about the UART (43_uart.md). First the divisor arithmetic, the clock, and the lines that the commands share:
the divisor step, line control, what UART_INIT does after the divisor, and the transmission of units; then the run that waits for ever,
and the statements.
-/

namespace Sys2Proof.Machine

/-! ## The divisor arithmetic (R103 to R105) -/

section Baud
variable {clock target : Nat}

/-- The check of R104, as a proposition. -/
theorem baudAccurate_iff : baudAccurate clock target = true ↔
    baudSixtyFourths clock target ≠ 0 ∧
      64 * ((4 * clock : Int) - target * baudSixtyFourths clock target).natAbs ≤ target * baudSixtyFourths clock target :=
  decide_eq_true_iff

/-- The check of R104 fails on a zero divisor or outside the bound. -/
theorem baudAccurate_eq_false_iff : baudAccurate clock target = false ↔
    baudSixtyFourths clock target = 0 ∨
      target * baudSixtyFourths clock target < 64 * ((4 * clock : Int) - target * baudSixtyFourths clock target).natAbs := by
  rw [← Bool.not_eq_true, baudAccurate_iff, not_and_or, not_not, not_le]

/-- Rounding to the nearest 64th leaves an error of at most half of one (R105). -/
theorem two_mul_baudError_le (ht : 0 < target) :
    2 * ((4 * clock : Int) - target * baudSixtyFourths clock target).natAbs ≤ target := by
  have hinteger : 16 * (target * baudInteger clock target) + clock % (16 * target) = clock := by
    rw [← Nat.mul_assoc]
    exact Nat.div_add_mod clock (16 * target)
  have hfraction : 32 * (target * baudFraction clock target) +
      (128 * (clock % (16 * target)) + 16 * target) % (2 * (16 * target)) = 128 * (clock % (16 * target)) + 16 * target := by
    have h := Nat.div_add_mod (128 * (clock % (16 * target)) + 16 * target) (2 * (16 * target))
    rwa [← baudFraction, show 2 * (16 * target) * baudFraction clock target = 32 * (target * baudFraction clock target) by ring]
      at h
  have hrest := Nat.mod_lt (128 * (clock % (16 * target)) + 16 * target) (y := 2 * (16 * target)) (by omega)
  have hdivisor : target * baudSixtyFourths clock target =
      64 * (target * baudInteger clock target) + target * baudFraction clock target := by
    rw [baudSixtyFourths, Nat.mul_add, Nat.mul_left_comm]
  rw [← Int.natCast_mul, hdivisor]
  omega

/-- From 32 64ths on, half a 64th is within the bound of R104. -/
theorem baudAccurate_of_le (ht : 0 < target) (h : 32 ≤ baudSixtyFourths clock target) : baudAccurate clock target = true := by
  have herror := two_mul_baudError_le (clock := clock) ht
  have hbound : target * 32 ≤ target * baudSixtyFourths clock target := Nat.mul_le_mul_left target h
  exact baudAccurate_iff.2 ⟨by omega, by omega⟩

end Baud

/-! ## The clock (R106, R110) -/

section Clock
variable {s : State}

theorem clockHz_resolved {hz : Word} (h : s.uclk = .resolved hz) : clockHz s = .ok hz s := by
  rw [clockHz, getState_bind, h]
  rfl

theorem clockHz_unresolved (h : s.uclk = .unresolved) : clockHz s = .error (.refuse .clockUnresolved) s := by
  rw [clockHz, getState_bind, h]
  rfl

theorem withClock_resolved {hz : Word} (h : s.uclk = .resolved hz) : s.withClock = s := by
  unfold State.withClock
  rw [h]

theorem withClock_fact {hz : Word} (h : s.uclk = .unresolved) (hf : s.clkFact = some hz) :
    s.withClock = { s with uclk := .resolved hz } := by
  unfold State.withClock
  rw [h, hf]

theorem withClock_default (h : s.uclk = .unresolved) (hf : s.clkFact = none) :
    s.withClock = { s with uclk := .resolved uartDefaultClock, diag := s.diag ++ [.clockDefaulted] } := by
  unfold State.withClock
  rw [h, hf]

/-- Resolving the clock changes nothing but the clock and the notes (R110). -/
theorem withClock_eq (s : State) : s.withClock = { s with uclk := .resolved s.clockRate, diag := s.withClock.diag } := by
  match s with
  | { uclk := .resolved _, .. } => rfl
  | { uclk := .unresolved, clkFact := some _, .. } => rfl
  | { uclk := .unresolved, clkFact := none, .. } => rfl

@[simp] theorem withClock_uclk (s : State) : s.withClock.uclk = .resolved s.clockRate := by rw [withClock_eq]
@[simp] theorem withClock_uart (s : State) : s.withClock.uart = s.uart := by rw [withClock_eq]
@[simp] theorem withClock_env (s : State) : s.withClock.env = s.env := by rw [withClock_eq]
@[simp] theorem withClock_params (s : State) : s.withClock.params = s.params := by rw [withClock_eq]

/-- The clock resolution never stops (R110). -/
theorem resolveClock_apply (s : State) : resolveClock s = .ok () s.withClock := by
  rcases resolveClock_cases s with ⟨hz, h, hr⟩ | ⟨hz, h, hf, hr⟩ | ⟨h, hf, hr⟩
  · rw [hr, withClock_resolved h]
  · rw [hr, withClock_fact h hf]
  · rw [hr, withClock_default h hf]

/-- UART_RESOLVE_CLK (R110). -/
theorem exec_uartResolveClk (s : State) : exec .uartResolveClk s = .next (s.withClock.completed 1) :=
  runCmd_ok (bind_ok (resolveClock_apply s))

end Clock

/-! ## The divisor step (R103, R104) -/

section Divisor
variable {clock target : Word} {s : State}

theorem baudDiv_zero (h : target = 0#32) : baudDiv clock target s = .error (.refuse .zeroBaud) s := by
  rw [baudDiv, if_pos h]
  rfl

theorem baudDiv_overflow (h0 : target ≠ 0#32) (hf : 63 < baudFraction clock.toNat target.toNat) :
    baudDiv clock target s = .error (.fatal .divisorOverflow) s := by
  rw [baudDiv, if_neg h0, if_pos hf]
  rfl

theorem baudDiv_unattainable (h0 : target ≠ 0#32) (hf : baudFraction clock.toNat target.toNat ≤ 63)
    (ha : baudAccurate clock.toNat target.toNat = false) :
    baudDiv clock target s = .error (.fatal .baudUnattainable) s := by
  rw [baudDiv, if_neg h0, if_neg (Nat.not_lt.2 hf), ha]
  rfl

theorem baudDiv_ok (h0 : target ≠ 0#32) (hf : baudFraction clock.toNat target.toNat ≤ 63)
    (ha : baudAccurate clock.toNat target.toNat = true) :
    baudDiv clock target s = .ok (baudInteger clock.toNat target.toNat, baudFraction clock.toNat target.toNat) s := by
  rw [baudDiv, if_neg h0, if_neg (Nat.not_lt.2 hf), ha]
  rfl

/-- A first line that ends well leaves the outcome to the rest. -/
theorem runCmd_bind_ok {α : Type} {c : Cmd α} {f : α → Cmd Unit} {t : State} {a : α} (h : c s = .ok a t) :
    runCmd (c >>= f) s = runCmd (f a) t := by
  unfold runCmd
  rw [bind_ok h]

/-- The lines of UART_BAUD_DIV before the divisor step change nothing (R106). -/
theorem exec_uartBaudDiv_resolved {u : UartUnit} (hu : s.liveUart = some u) (hclk : s.uclk = .resolved clock) :
    exec (.uartBaudDiv target) s =
      runCmd (baudDiv clock target >>= fun d => emitOut (.divisor d.1 d.2) >>= fun _ => complete 1) s :=
  (runCmd_bind_ok (uartUnit_ok hu)).trans (runCmd_bind_ok (clockHz_resolved hclk))

end Divisor

/-! ## Line control (R107, R108) -/

/-- The line-control step accesses `LCRH` alone: one read, one write, and the unit with the settings overridden. -/
theorem applyLineControl_lcrh {s : State} {u : UartUnit} {p : Option Parity} {w : Option WordLength} {st : Option StopBits}
    {a : Word} (hread : s.readableAt (.uart .lcrh) a) (hwrite : s.writableAt (.uart .lcrh) a) :
    applyLineControl u p w st s =
      .ok () (({ s with uart := some (withSettings u p w st) } : State).afterEvents [.rd a (envAnswer s.env a),
        .wr a (lcrhApply s.params.lcrh (envAnswer s.env a) (withSettings u p w st).parity
          (withSettings u p w st).wordLength (withSettings u p w st).stopBits)]) := by
  have hr := regRead_ok (s := { s with uart := some (withSettings u p w st) }) hread
  rw [applyLineControl, getState_bind, putUart_bind]
  refine bind_eq hr ?_
  refine (regWrite_ok (s := ({ s with uart := some (withSettings u p w st) } : State).afterEvents _) hwrite).trans ?_
  rw [afterEvents_append]
  rfl

/-! ## UART_INIT (R115) -/

/-- The state in which UART_INIT comes to the divisor step: the clock resolved, `CR` written. -/
def State.uartEnabled (s : State) : State :=
  s.withClock.afterEvents [.wr (uartAddr s.params .cr) s.params.uartCrEnable]

/-- UART_INIT from the divisor writes on. -/
def programDivisor (u : UartUnit) (d : Nat × Nat) : Cmd Unit := do
  regWrite (.uart .ibrd) (BitVec.ofNat 32 d.1)
  regWrite (.uart .fbrd) (BitVec.ofNat 32 d.2)
  flush
  applyLineControl u none none none

/-- The events of `programDivisor`: `l` the line-control word that flush reads, `l'` the one of the line settings. -/
def programEvents (p : Params) (u : UartUnit) (d : Nat × Nat) (fr l l' : Word) (ws : List Word) : List BusEvent :=
  [.wr (uartAddr p .ibrd) (BitVec.ofNat 32 d.1), .wr (uartAddr p .fbrd) (BitVec.ofNat 32 d.2)] ++
    flushEvents p (uartAddr p .fr) (uartAddr p .lcrh) (uartAddr p .dr) fr l ws ++
    [.rd (uartAddr p .lcrh) l', .wr (uartAddr p .lcrh) (lcrhApply p.lcrh l' u.parity u.wordLength u.stopBits)]

section Init
variable {s : State} {u : UartUnit}

@[simp] theorem uartEnabled_params (s : State) : s.uartEnabled.params = s.params := withClock_params s
@[simp] theorem uartEnabled_uart (s : State) : s.uartEnabled.uart = s.uart := withClock_uart s

theorem uartEnabled_env (s : State) :
    s.uartEnabled.env = envAfterWrite s.env (uartAddr s.params .cr) s.params.uartCrEnable :=
  congrArg (envAfterWrite · _ _) (withClock_env s)

/-- UART_INIT comes to the divisor step with the clock resolved and `CR` written. -/
theorem uartInitBody_eq (hu : s.liveUart = some u) (ho : uartOpen s.params) :
    uartInitBody s = (baudDiv s.clockRate u.baudRate >>= programDivisor u) s.uartEnabled := by
  have hcr : regWrite (.uart .cr) s.withClock.params.uartCrEnable s.withClock = .ok () s.uartEnabled := by
    have h := uartWrite_ok (s := s.withClock) (r := .cr) (v := s.withClock.params.uartCrEnable)
    rw [withClock_params] at h ⊢
    exact h (uartOpen_cr ho)
  refine bind_eq (uartUnit_ok hu) (bind_eq (resolveClock_apply s) (bind_eq (getState_apply _) (bind_eq hcr ?_)))
  exact bind_ok (clockHz_resolved (withClock_uclk s))

/-- A divisor step that stops, stops UART_INIT. -/
theorem uartInit_stops {e : Stop} (hu : s.liveUart = some u) (ho : uartOpen s.params)
    (h : baudDiv s.clockRate u.baudRate s.uartEnabled = .error e s.uartEnabled) :
    (do uartInitBody; complete 1 : Cmd Unit) s = .error e s.uartEnabled :=
  bind_error ((uartInitBody_eq hu ho).trans (bind_error h))

/-- The divisor writes, the flush and the stored line settings (R103, R109, R107). -/
theorem programDivisor_ok {d : Nat × Nat} {fr l l' : Word} {ws : List Word} (hu : s.uart = some u) (ho : uartOpen s.params)
    (hn : ws.length = s.params.uartFifoDepth + 1) (ha : answeredBy s.env (programEvents s.params u d fr l l' ws)) :
    programDivisor u d s = .ok () (s.afterEvents (programEvents s.params u d fr l l' ws)) := by
  obtain ⟨ha, hl, _⟩ := (answeredBy_append _ _ _).1 ha
  obtain ⟨_, hflush⟩ := (answeredBy_append _ _ _).1 ha
  rw [envRun_append] at hl
  refine bind_eq (uartWrite_ok (uartOpen_ibrd ho)) ?_
  refine bind_eq (uartWrite_ok (s := s.afterEvents _) (uartOpen_fbrd (s := s) ho)) ?_
  refine bind_eq (flush_ok (s := (s.afterEvents _).afterEvents _) ho hn hflush) ?_
  refine (applyLineControl_none_ok (s := ((s.afterEvents _).afterEvents _).afterEvents _) ho hu hl).trans ?_
  rw [programEvents, ← afterEvents_append, ← afterEvents_append, afterEvents_append s]
  rfl

end Init

/-! ## Transmission (R111 to R117) -/

section Transmit
variable {s : State} {u : UartUnit} {units : List Byte} {frs : List Word}

/-- The commands that transmit, where every poll finds room. -/
theorem runCmd_writeUnits {xs : List Byte} (len : Nat) (hu : s.liveUart = some u) (ho : uartOpen s.params)
    (hx : xs = units.drop (unitsSent s)) (hn : frs.length = xs.length) (hf : ∀ w ∈ frs, w &&& s.params.uartFrTxff = 0#32)
    (ha : answeredBy s.env
      (transmitEvents s.params.uartTxPoll (uartAddr s.params .fr) (uartAddr s.params .dr) xs frs)) :
    runCmd (writeUnits units len) s = .next (({ s.afterEvents
        (transmitEvents s.params.uartTxPoll (uartAddr s.params .fr) (uartAddr s.params .dr) xs frs) with
      uart := some { u with charsWritten := u.charsWritten + BitVec.ofNat 64 xs.length } } : State).completed len) := by
  subst hx
  exact runCmd_ok (bind_eq (uartUnit_ok hu) (bind_eq (getState_apply s)
    (bind_ok (transmitAll_ok ho (liveUart_some hu).1 hn hf ha))))

/-- The commands that transmit, up to a poll that finds the FIFO full. -/
theorem runCmd_writeUnits_full {xs ys : List Byte} {full : Word} (len : Nat) (hu : s.liveUart = some u)
    (ho : uartOpen s.params) (hp : s.params.uartTxPoll = true) (hx : xs ++ ys = units.drop (unitsSent s)) (hy : ys ≠ [])
    (hn : frs.length = xs.length) (hf : ∀ w ∈ frs, w &&& s.params.uartFrTxff = 0#32)
    (hfull : full &&& s.params.uartFrTxff ≠ 0#32)
    (ha : answeredBy s.env (transmitEvents true (uartAddr s.params .fr) (uartAddr s.params .dr) xs frs ++
      [.rd (uartAddr s.params .fr) full])) :
    runCmd (writeUnits units len) s = .next { s.afterEvents
        (transmitEvents true (uartAddr s.params .fr) (uartAddr s.params .dr) xs frs ++ [.rd (uartAddr s.params .fr) full]) with
      uart := some { u with charsWritten := u.charsWritten + BitVec.ofNat 64 xs.length }
      progress := .uartTx (unitsSent s + xs.length) } := by
  refine runCmd_poll (bind_eq (uartUnit_ok hu) (bind_eq (getState_apply s) (bind_error ?_)))
  rw [← hx]
  exact transmitAll_full ho (liveUart_some hu).1 hp hy hn hf hfull ha

end Transmit

/-! ## Steps and runs -/

section Runs
variable {s t : State}

/-- A step that finds a command executes it (R160). -/
theorem step_of_command {i : Instr} {len : Nat} (hhalt : s.halt = none) (hcp : s.cp < s.stream.length)
    (hd : decode s.params s.fetch = .command i len) : step s = exec i s := by
  unfold step
  rw [hhalt]
  dsimp only
  rw [if_neg (Nat.not_le.2 hcp), hd]

/-- Where there is a word to fetch, `CP` is within the stream. -/
theorem cp_lt_of_fetch {w : CmdWord} {rest : List CmdWord} (h : s.fetch = w :: rest) : s.cp < s.stream.length := by
  refine Nat.lt_of_not_le fun hend => ?_
  rw [State.fetch, List.drop_eq_nil_of_le hend] at h
  cases h

/-- A run whose first step answers a next state goes on from there. -/
theorem run_succ_of_next {M : Host.Core} {s t : M.State} (h : M.step s = .next t) (k : Nat) :
    M.run (k + 1) s = M.run k t := by
  rw [Host.Core.run, h]

/-- A run at a UART_WRITE_CHAR of which nothing is sent, and whose store answers `FR` with `w`, the FIFO-full bit set (R54, R111). -/
structure WaitsForRoom (b : Byte) (w : Word) (s : State) : Prop where
  halt : s.halt = none
  cp : s.cp < s.stream.length
  command : decode s.params s.fetch = .command (.uartWriteChar b) 1
  nothingSent : unitsSent s = 0
  live : s.liveUart.isSome
  regs : uartOpen s.params
  polls : s.params.uartTxPoll = true
  store : ∃ m, s.env = .backingStore m ∧ w = readWord m (uartAddr s.params .fr)
  full : w &&& s.params.uartFrTxff ≠ 0#32

/-- The state after `k` poll reads of `FR` answered as `w`, before the first unit (log 5). -/
def State.afterPolls (s : State) (w : Word) (k : Nat) : State :=
  { s with trace := s.trace ++ List.replicate k (.rd (uartAddr s.params .fr) w), progress := .uartTx 0 }

theorem afterPolls_add (s : State) (w : Word) (j k : Nat) : (s.afterPolls w j).afterPolls w k = s.afterPolls w (j + k) := by
  simp [State.afterPolls, ← List.replicate_append_replicate]

variable {b : Byte} {w : Word}

/-- Polling alone leaves the run waiting. -/
theorem waitsForRoom_afterPolls (h : WaitsForRoom b w s) (k : Nat) : WaitsForRoom b w (s.afterPolls w k) :=
  { h with nothingSent := rfl }

theorem unitsOf_ne_nil (b : Byte) : unitsOf b ≠ [] := by
  unfold unitsOf
  split
  · exact List.cons_ne_nil _ _
  · exact List.cons_ne_nil _ _

/-- Each step of a waiting run is one poll read (R167). -/
theorem step_of_waitsForRoom (h : WaitsForRoom b w s) : step s = .next (s.afterPolls w 1) := by
  obtain ⟨u, hu⟩ := Option.isSome_iff_exists.1 h.live
  obtain ⟨m, henv, hw⟩ := h.store
  have hunits : [] ++ unitsOf b = (unitsOf b).drop (unitsSent s) := by rw [h.nothingSent]; rfl
  have hanswered : answeredBy s.env [.rd (uartAddr s.params .fr) w] := by rw [henv]; exact ⟨hw, trivial⟩
  rw [step_of_command h.halt h.cp h.command]
  refine (runCmd_writeUnits_full (frs := []) 1 hu h.regs h.polls hunits (unitsOf_ne_nil b) rfl (by simp) h.full
    hanswered).trans (congrArg _ ?_)
  have huart : s.uart = some { u with charsWritten := u.charsWritten + BitVec.ofNat 64 0 } := by
    rw [(liveUart_some hu).1]
    simp
  have hsame : envRun s.env [.rd (uartAddr s.params .fr) w] = s.env := by rw [henv]; rfl
  simp only [State.afterEvents, State.afterPolls, transmitEvents, List.nil_append, List.length_nil, ← huart, hsame,
    h.nothingSent, List.replicate_one]

/-- A waiting run of any length polls, and no more (R167). -/
theorem run_of_waitsForRoom (h : WaitsForRoom b w s) (k : Nat) : core.run (k + 1) s = .next (s.afterPolls w (k + 1)) := by
  induction k generalizing s with
  | zero => exact run_succ_of_next (step_of_waitsForRoom h) 0
  | succ k ih =>
    refine (run_succ_of_next (M := core) (step_of_waitsForRoom h) (k + 1)).trans ((ih (waitsForRoom_afterPolls h 1)).trans ?_)
    rw [afterPolls_add, Nat.add_comm 1]

end Runs

/-! ## The statements -/

/-- Settles O24, by whether a unit is live. -/
theorem unitConstruction : Obligations.UnitConstruction := by
  refine fun s => ⟨fun parity wlen stop baud hnone => ?_, fun timeout clock hnone => ?_, fun u parity wlen stop baud hu => ?_,
    fun u timeout clock hu => ?_⟩
  · exact runCmd_ok (whenever_skip (s := s) (congrArg Option.isSome hnone))
  · exact runCmd_ok (whenever_skip (s := s) (congrArg Option.isSome hnone))
  · exact runCmd_refuse (w := .unitExists) (t := s) (whenever_stop (s := s) (congrArg Option.isSome hu) rfl)
  · exact runCmd_refuse (w := .unitExists) (t := s) (whenever_stop (s := s) (congrArg Option.isSome hu) rfl)

/-- Settles O25: the three states of the clock and the fact. -/
theorem clockResolution : Obligations.ClockResolution := by
  intro s
  rw [exec_uartResolveClk]
  refine ⟨fun hz h => ?_, fun hz h hf => ?_, fun h hf => ?_⟩
  · rw [withClock_resolved h]
  · rw [withClock_fact h hf]
  · rw [withClock_default h hf]
    rfl

/-- Settles O26: the statement's arithmetic is the check of R104. -/
theorem baudDivCompletes : Obligations.BaudDivCompletes := by
  intro s u hz target hu hclk h0 d ibrd fbrd n hf hn herror
  rw [exec_uartBaudDiv_resolved hu hclk]
  exact runCmd_ok (bind_ok (baudDiv_ok h0 hf (baudAccurate_iff.2 ⟨hn, herror⟩)))

/-- Settles O27, by the checks in their order. -/
theorem baudDivStops : Obligations.BaudDivStops := by
  refine fun s u target hu => ⟨fun hclk => ?_, fun hz hclk => ?_⟩
  · exact runCmd_refuse (w := .clockUnresolved) (t := s) (bind_eq (uartUnit_ok hu) (bind_error (clockHz_unresolved hclk)))
  · rw [exec_uartBaudDiv_resolved hu hclk]
    refine ⟨fun h0 => ?_, fun h0 hf => ?_, fun h0 hf hbad => ?_⟩
    · exact runCmd_refuse (w := .zeroBaud) (t := s) (bind_error (baudDiv_zero h0))
    · exact runCmd_fatal (bind_error (baudDiv_overflow h0 hf))
    · exact runCmd_fatal (bind_error (baudDiv_unattainable h0 hf (baudAccurate_eq_false_iff.2 hbad)))

/-- Settles O28: an integer part of 1 is 64 64ths. -/
theorem largeDivisorsAreAccurate : Obligations.LargeDivisorsAreAccurate := by
  refine fun clock target ht _ => ⟨baudAccurate_of_le ht, fun hone => ?_⟩
  have hlarge : 64 ≤ baudSixtyFourths clock target := by
    unfold baudSixtyFourths
    omega
  exact ⟨hlarge, baudAccurate_of_le ht (by omega)⟩

/-- Settles O30: the guard finds the unit, and the line-control step is one read-modify-write of `LCRH`. -/
theorem lineCtlCompletes : Obligations.LineCtlCompletes := by
  intro s u p w st a hu hread hwrite u' l
  exact runCmd_ok (bind_eq (uartUnit_ok hu) (bind_ok (applyLineControl_lcrh hread hwrite)))

/-- Settles O31: the guard finds the unit, and flush ends well. -/
theorem flushCompletes : Obligations.FlushCompletes :=
  fun _ _ _ _ _ hu ho hn ha => runCmd_ok (bind_eq (uartUnit_ok hu) (bind_ok (flush_ok ho hn ha)))

/-- Settles O32: both commands transmit the units that are left. -/
theorem transmitCompletes : Obligations.TransmitCompletes :=
  fun _ _ _ _ hu ho hn hf ha => ⟨fun _ hx => runCmd_writeUnits 1 hu ho hx hn hf ha,
    fun bytes hx => runCmd_writeUnits (1 + payloadWords bytes.length) hu ho hx hn hf ha⟩

/-- Settles O33: both commands transmit the units that are left, up to the full FIFO. -/
theorem transmitWaits : Obligations.TransmitWaits :=
  fun _ _ _ _ _ _ hu ho hp hleft hn hf hfull ha =>
    ⟨fun _ hx => runCmd_writeUnits_full 1 hu ho hp hx hleft hn hf hfull ha,
      fun bytes hx => runCmd_writeUnits_full (1 + payloadWords bytes.length) hu ho hp hx hleft hn hf hfull ha⟩

/-- Settles O34: the run waits for room, and a read of the store changes nothing that it waits on. -/
theorem fullFifoPollsForever : Obligations.FullFifoPollsForever := by
  intro s u b m w hhalt hcp hd hidle hu ho hp henv hw hfull k
  have hwaits : WaitsForRoom b w s :=
    { halt := hhalt
      cp := hcp
      command := hd
      nothingSent := by rw [unitsSent, hidle]
      live := Option.isSome_of_eq_some hu
      regs := ho
      polls := hp
      store := ⟨m, henv, hw.symm⟩
      full := hfull }
  exact run_of_waitsForRoom hwaits k

/-- Settles O35: the divisor step answers the pair, and the lines after it end well. -/
theorem uartInitCompletes : Obligations.UartInitCompletes := by
  intro s u fr l l' ws hu ho hn h0 hf hacc p evs ha
  have hanswered : answeredBy s.uartEnabled.env (programEvents s.uartEnabled.params u
      (baudInteger s.clockRate.toNat u.baudRate.toNat, baudFraction s.clockRate.toNat u.baudRate.toNat) fr l l' ws) := by
    rw [uartEnabled_env, uartEnabled_params]
    exact ha
  have hprogram := programDivisor_ok ((uartEnabled_uart s).trans (liveUart_some hu).1) (by rwa [uartEnabled_params])
    (by rwa [uartEnabled_params]) hanswered
  refine runCmd_ok (bind_eq ((uartInitBody_eq hu ho).trans (bind_eq (baudDiv_ok h0 hf hacc) hprogram)) ?_)
  rw [uartEnabled_params, State.uartEnabled, afterEvents_append]
  rfl

/-- Settles O36: the divisor step stops on the state with the clock resolved and `CR` written. -/
theorem uartInitStopsAtTheDivisor : Obligations.UartInitStopsAtTheDivisor := by
  refine fun s u hu ho => ⟨fun h0 => ?_, fun h0 hf => ?_, fun h0 hf hacc => ?_⟩
  · exact runCmd_refuse (w := .zeroBaud) (uartInit_stops hu ho (baudDiv_zero h0))
  · exact runCmd_fatal (uartInit_stops hu ho (baudDiv_overflow h0 hf))
  · exact runCmd_fatal (uartInit_stops hu ho (baudDiv_unattainable h0 hf hacc))

/-- Settles O37: after the guard there is one result, or one change of the unit, and the completion. -/
theorem uartCounterAndRelease : Obligations.UartCounterAndRelease :=
  fun _ _ hu => ⟨runCmd_ok (bind_ok (uartUnit_ok hu)), runCmd_ok (bind_ok (uartUnit_ok hu))⟩

/-- Settles O38: the row of opcode `0x39` answers the command that is refused. -/
theorem uartReadBytesIsRefused : Obligations.UartReadBytesIsRefused := by
  refine ⟨fun rest s => rfl, fun s w rest hhalt hfetch hop => ?_⟩
  have hd : decode s.params s.fetch = .command (.uartReadBytes (aField w ++ bField w ++ cField w)) 1 := by
    rw [hfetch, decode, hop]
    rfl
  rw [step_of_command hhalt (cp_lt_of_fetch hfetch) hd]
  rfl

end Sys2Proof.Machine

/-!
Proofs of the statements about I2C (44_i2c.md). First what the shared lines do: the divisor step, the setup of a transfer up to where
it stops, the lines of I2C_READ around its drain, and the lines of I2C_INIT before the probe; then the statements.
-/

namespace Sys2Proof.Machine

/-! ## The divisor step (R123) -/

section I2cDivisor
variable {s : State} {u : I2cUnit}

theorem setDiv_zero (h0 : u.clockRateHz = 0#32) : setDiv u s = .error (.refuse .zeroClock) s :=
  whenever_stop (decide_eq_true h0) rfl

theorem setDiv_ok (ho : i2cOpen s.params) (h0 : u.clockRateHz ≠ 0#32) :
    setDiv u s = .ok () (s.afterEvents
      [.wr (i2cAddr s.params .div) (i2cDivisor s.params.i2cCoreClockHz u.clockRateHz.toNat)]) :=
  (whenever_skip (decide_eq_false h0)).trans (i2cWrite_ok (i2cOpen_div ho))

end I2cDivisor

/-! ## The setup of a transfer (R124 to R130) -/

/-- The unit after the setup of a transfer (R125, R124, R126). -/
def I2cUnit.setUp (u : I2cUnit) (d : Direction) (addr : Byte) (n : BitVec 16) : I2cUnit :=
  { u with transferDirection := d, slaveAddress := addr.setWidth 7, dataLength := n, fsm := .configured }

/-- The state after the setup of a transfer, `c1` and `c2` the control words read. -/
def State.i2cSetUp (s : State) (u : I2cUnit) (d : Direction) (addr : Byte) (n : BitVec 16) (c1 c2 : Word) : State :=
  { s with i2c := some (u.setUp d addr n) }.afterEvents (i2cSetupEvents s.params d addr n c1 c2)

/-- The state after the direction step alone, `c` the control word read (R125). -/
def State.i2cDirected (s : State) (u : I2cUnit) (d : Direction) (c : Word) : State :=
  { s with i2c := some { u with transferDirection := d } }.afterEvents
    [.rd (i2cAddr s.params .c) c, .wr (i2cAddr s.params .c) (withDirection s.params.i2cCRead c d)]

section Transfer
variable {s : State} {u : I2cUnit} {d : Direction} {addr : Byte} {n : BitVec 16} {c1 c2 c3 : Word} {bytes : List Byte}

/-- The setup of a 7-bit address hands its state to the lines after it. -/
theorem setup_then (rest : Cmd Unit) (hu : s.i2c = some u) (ho : i2cOpen s.params) (h7 : addr.getLsbD 7 = false)
    (ha : answeredBy s.env (i2cSetupEvents s.params d addr n c1 c2)) :
    (do setDirection d; setAddress addr; setLength n; clearFifo; rest : Cmd Unit) s = rest (s.i2cSetUp u d addr n c1 c2) := by
  refine Eq.trans ?_ (bind_ok (f := fun _ => rest) (setup_ok ho hu h7 ha))
  simp only [bind_assoc]

/-- The setup of an address with its eighth bit set stops after the direction step (R124). -/
theorem setup_badAddress (rest : Cmd Unit) (hu : s.i2c = some u) (ho : i2cOpen s.params) (h7 : addr.getLsbD 7 = true)
    (hc : c1 = envAnswer s.env (i2cAddr s.params .c)) :
    (do setDirection d; setAddress addr; rest : Cmd Unit) s = .error (.fatal .i2cAddress) (s.i2cDirected u d c1) :=
  bind_eq (setDirection_ok ho hu hc) (bind_error (setAddress_fatal h7))

/-- `write_slave` to an address with its eighth bit set (R124, R130). -/
theorem writeSlave_badAddress (hu : s.i2c = some u) (ho : i2cOpen s.params) (h7 : addr.getLsbD 7 = true)
    (hc : c1 = envAnswer s.env (i2cAddr s.params .c)) :
    writeSlave addr bytes s = .error (.fatal .i2cAddress) (s.i2cDirected u .write c1) := setup_badAddress _ hu ho h7 hc

/-- The events of `write_slave` whose start finds the enable bit clear (R129, R130). -/
def writeSlaveStopEvents (p : Params) (addr : Byte) (bytes : List Byte) (c1 c2 c3 : Word) : List BusEvent :=
  i2cSetupEvents p .write addr (BitVec.ofNat 16 bytes.length) c1 c2 ++
    bytes.map (fun b => .wr (i2cAddr p .fifo) (b.setWidth 32)) ++
    [.wr (i2cAddr p .s) p.i2cSClearMask, .rd (i2cAddr p .c) c3]

/-- `write_slave` whose start finds the enable bit clear (R129, R130). -/
theorem writeSlave_notEnabled (hu : s.i2c = some u) (ho : i2cOpen s.params) (h7 : addr.getLsbD 7 = false)
    (he : c3 &&& s.params.i2cCI2cen = 0#32) (ha : answeredBy s.env (writeSlaveStopEvents s.params addr bytes c1 c2 c3)) :
    writeSlave addr bytes s = .error (.fatal .i2cNotEnabled)
      ({ s with i2c := some (u.setUp .write addr (BitVec.ofNat 16 bytes.length)) }.afterEvents
        (writeSlaveStopEvents s.params addr bytes c1 c2 c3)) := by
  obtain ⟨ha, hc3, -⟩ := (answeredBy_append _ _ _).1 ha
  obtain ⟨hsetup, -⟩ := (answeredBy_append _ _ _).1 ha
  rw [envRun_append] at hc3
  refine (setup_then _ hu ho h7 hsetup).trans ?_
  refine bind_eq (pushFifo_ok (s := s.i2cSetUp ..) ho bytes) ?_
  refine bind_eq (clearStatus_ok (s := (s.i2cSetUp ..).afterEvents _) ho) ?_
  refine (startTransfer_fatal (s := ((s.i2cSetUp ..).afterEvents _).afterEvents _) ho hc3 he).trans ?_
  rw [writeSlaveStopEvents, ← afterEvents_append, ← afterEvents_append, afterEvents_append _ [_]]
  rfl

end Transfer

/-! ## I2C_READ (R131) -/

section Read
variable {s : State} {u : I2cUnit} {addr : Byte} {n : BitVec 16} {c1 c2 c3 : Word}

/-- A read longer than the buffer is refused first of all (R131). -/
theorem readSetup_tooLong (h : s.params.i2cRxbufSize < n.toNat) :
    readSetup addr n s = .error (.refuse .rxBufferTooSmall) s := whenever_stop (decide_eq_true h) rfl

/-- The lines of a read that fits the buffer, after that check. -/
theorem readSetup_fits (h : n.toNat ≤ s.params.i2cRxbufSize) :
    readSetup addr n s = (do setDirection .read; setAddress addr; setLength n; clearFifo; startTransfer : Cmd Unit) s :=
  whenever_skip (decide_eq_false (Nat.not_lt.2 h))

theorem readSetup_badAddress (hu : s.i2c = some u) (ho : i2cOpen s.params) (hn : n.toNat ≤ s.params.i2cRxbufSize)
    (h7 : addr.getLsbD 7 = true) (hc : c1 = envAnswer s.env (i2cAddr s.params .c)) :
    readSetup addr n s = .error (.fatal .i2cAddress) (s.i2cDirected u .read c1) :=
  (readSetup_fits hn).trans (setup_badAddress _ hu ho h7 hc)

theorem readSetup_notEnabled (hu : s.i2c = some u) (ho : i2cOpen s.params) (hn : n.toNat ≤ s.params.i2cRxbufSize)
    (h7 : addr.getLsbD 7 = false) (he : c3 &&& s.params.i2cCI2cen = 0#32)
    (ha : answeredBy s.env (i2cSetupEvents s.params .read addr n c1 c2 ++ [.rd (i2cAddr s.params .c) c3])) :
    readSetup addr n s = .error (.fatal .i2cNotEnabled) ({ s with i2c := some (u.setUp .read addr n) }.afterEvents
      (i2cSetupEvents s.params .read addr n c1 c2 ++ [BusEvent.rd (i2cAddr s.params .c) c3])) := by
  obtain ⟨hsetup, hc3, -⟩ := (answeredBy_append _ _ _).1 ha
  refine (readSetup_fits hn).trans ((setup_then _ hu ho h7 hsetup).trans ?_)
  refine (startTransfer_fatal (s := s.i2cSetUp ..) ho hc3 he).trans ?_
  rw [← afterEvents_append]
  rfl

/-- The state after the setup and the start of a read (R131). -/
def State.i2cReading (s : State) (u : I2cUnit) (addr : Byte) (n : BitVec 16) (c1 c2 c3 : Word) : State :=
  { s with i2c := some { u.setUp .read addr n with fsm := .transferring } }.afterEvents
    (i2cSetupEvents s.params .read addr n c1 c2 ++ i2cStartEvents s.params c3)

theorem readSetup_ok (hu : s.i2c = some u) (ho : i2cOpen s.params) (hn : n.toNat ≤ s.params.i2cRxbufSize)
    (h7 : addr.getLsbD 7 = false) (he : c3 &&& s.params.i2cCI2cen ≠ 0#32)
    (ha : answeredBy s.env (i2cSetupEvents s.params .read addr n c1 c2 ++ i2cStartEvents s.params c3)) :
    readSetup addr n s = .ok () (s.i2cReading u addr n c1 c2 c3) := by
  obtain ⟨hsetup, hc3, -⟩ := (answeredBy_append _ _ _).1 ha
  refine (readSetup_fits hn).trans ((setup_then _ hu ho h7 hsetup).trans ?_)
  refine (startTransfer_ok (s := s.i2cSetUp ..) ho rfl hc3 he).trans ?_
  rw [State.i2cReading, ← afterEvents_append]
  rfl

/-- A read that has received nothing starts at its first line (R131). -/
theorem exec_i2cRead_first (hu : s.liveI2c = some u) (hidle : s.progress = .idle) :
    exec (.i2cRead addr n) s = runCmd (readFromStart addr n >>= fun _ => finishRead n.toNat) s := by
  refine (runCmd_bind_ok (i2cUnit_ok hu)).trans ((runCmd_bind_ok (getState_apply s)).trans ?_)
  rw [hidle]
  rfl

/-- A read that has received `got` bytes goes on with its drain (log 5). -/
theorem exec_i2cRead_resumed {got : Nat} (hu : s.liveI2c = some u) (hgot : s.progress = .i2cRx got) :
    exec (.i2cRead addr n) s = runCmd (receiveAll got (n.toNat - got) >>= fun _ => finishRead n.toNat) s := by
  refine (runCmd_bind_ok (i2cUnit_ok hu)).trans ((runCmd_bind_ok (getState_apply s)).trans ?_)
  rw [hgot]
  rfl

/-- The last lines of a read (R131). -/
theorem finishRead_ok {k : Nat} (hu : s.i2c = some u) (hlive : u.released = false) :
    finishRead k s =
      .ok () (({ s with i2c := some { u with fsm := .idle } }.withOut (.bytes (u.rxbuf.take k))).completed 1) := by
  have hunit : s.liveI2c = some u := by simp [State.liveI2c, hu, hlive]
  refine bind_eq (i2cUnit_ok hunit) ?_
  rw [emitOut_bind, setI2cFsm, updateI2c_bind, withOut_i2c, hu]
  rfl

/-- What a whole transfer leaves in a buffer that it fits (R131). -/
theorem receivedInto_start {buf : List Byte} {ws : List Word} (h : ws.length ≤ buf.length) :
    receivedInto buf 0 ws = ws.map (fun w => w.setWidth 8) ++ buf.drop ws.length := receivedInto_eq ws [] buf h

end Read

/-! ## I2C_INIT (R132) -/

/-- The events of the enable step, `c` the control word read (R132). -/
def i2cEnableEvents (p : Params) (c : Word) : List BusEvent :=
  [.rd (i2cAddr p .c) c, .wr (i2cAddr p .c) (c ||| p.i2cCI2cen)]

/-- The events of I2C_INIT before the probe: enable, divisor, timeout (R132). -/
def i2cInitEvents (p : Params) (u : I2cUnit) (c : Word) : List BusEvent :=
  i2cEnableEvents p c ++ [.wr (i2cAddr p .div) (i2cDivisor p.i2cCoreClockHz u.clockRateHz.toNat),
    .wr (i2cAddr p .clkt) (u.timeoutTicks.setWidth 32)]

/-- I2C_INIT after its enable step. -/
def i2cAfterEnable (u : I2cUnit) (p : Params) : Cmd Unit := do
  setDiv u
  regWrite (.i2c .clkt) (u.timeoutTicks.setWidth 32)
  writeSlave p.i2cProbeAddr p.i2cProbeBytes
  setI2cFsm .idle

section I2cInit
variable {s : State} {u : I2cUnit} {c : Word}

/-- The enable step (R132). -/
theorem i2cInitBody_enable (hu : s.liveI2c = some u) (ho : i2cOpen s.params)
    (hc : c = envAnswer s.env (i2cAddr s.params .c)) :
    i2cInitBody s = i2cAfterEnable u s.params (s.afterEvents (i2cEnableEvents s.params c)) := by
  refine bind_eq (i2cUnit_ok hu) (bind_eq (getState_apply s) (bind_eq (readC_ok ho hc) ?_))
  refine bind_eq (writeC_ok (s := s.afterEvents _) ho) ?_
  rw [afterEvents_append]
  rfl

/-- I2C_INIT comes to the probe after its four events. -/
theorem i2cInitBody_probe (hu : s.liveI2c = some u) (ho : i2cOpen s.params) (h0 : u.clockRateHz ≠ 0#32)
    (hc : c = envAnswer s.env (i2cAddr s.params .c)) :
    i2cInitBody s = (writeSlave s.params.i2cProbeAddr s.params.i2cProbeBytes >>= fun _ => setI2cFsm .idle)
      (s.afterEvents (i2cInitEvents s.params u c)) := by
  refine (i2cInitBody_enable hu ho hc).trans ?_
  refine bind_eq (setDiv_ok (s := s.afterEvents _) ho h0) ?_
  refine bind_eq (i2cWrite_ok (s := (s.afterEvents _).afterEvents _) (i2cOpen_clkt (s := s) ho)) ?_
  rw [afterEvents_append, afterEvents_append]
  rfl

end I2cInit

/-! ## The statements -/

/-- Settles O39: after the guard each command is one sub-step, the state of the sequencer, and the completion. -/
theorem i2cStepsComplete : Obligations.I2cStepsComplete := by
  intro s u hu ho p c
  obtain ⟨hi2c, -⟩ := liveI2c_some hu
  refine ⟨fun h0 => ?_, fun addr h7 => ?_, fun dir => ?_, runCmd_ok (bind_ok (i2cUnit_ok hu))⟩
  · exact runCmd_ok (bind_eq (i2cUnit_ok hu) (bind_ok (setDiv_ok ho h0)))
  · exact runCmd_ok (bind_eq (i2cUnit_ok hu) (bind_ok (setAddress_ok ho hi2c h7)))
  · refine runCmd_ok (bind_eq (i2cUnit_ok hu) (bind_eq (setDirection_ok ho hi2c rfl) ?_))
    cases dir <;> rfl

/-- Settles O40: `write_slave` ends well, and the sequencer is idle after it. -/
theorem i2cWriteCompletes : Obligations.I2cWriteCompletes := by
  intro s u addr bytes c1 c2 c3 hu ho h7 he evs ha
  obtain ⟨hi2c, -⟩ := liveI2c_some hu
  refine ⟨?_, runCmd_ok (bind_eq (i2cUnit_ok hu) (bind_ok (writeSlave_ok ho hi2c h7 he ha)))⟩
  simp only [evs, writeSlaveEvents, i2cSetupEvents, i2cStartEvents, List.length_append, List.length_map, List.length_cons,
    List.length_nil]
  omega

/-- Settles O41: the address step stops, at once or after the direction step. -/
theorem i2cAddressIsFatal : Obligations.I2cAddressIsFatal := by
  intro s u addr hu ho h7 a c
  obtain ⟨hi2c, -⟩ := liveI2c_some hu
  refine ⟨?_, fun bytes => ?_, fun n hidle hn => ?_⟩
  · exact runCmd_fatal (bind_eq (i2cUnit_ok hu) (bind_error (setAddress_fatal h7)))
  · exact runCmd_fatal (bind_eq (i2cUnit_ok hu) (bind_error (writeSlave_badAddress hi2c ho h7 rfl)))
  · rw [exec_i2cRead_first hu hidle]
    exact runCmd_fatal (bind_error (bind_error (readSetup_badAddress hi2c ho hn h7 rfl)))

/-- Settles O42: the start stops after its read, in the write and in the read. -/
theorem i2cNotEnabledIsFatal : Obligations.I2cNotEnabledIsFatal := by
  intro s u addr c1 c2 c3 hu ho h7 he
  obtain ⟨hi2c, -⟩ := liveI2c_some hu
  refine ⟨?write, ?read⟩
  case write =>
    intro bytes n evs ha
    exact runCmd_fatal (bind_eq (i2cUnit_ok hu) (bind_error (writeSlave_notEnabled hi2c ho h7 he ha)))
  case read =>
    intro n hidle hn evs ha
    rw [exec_i2cRead_first hu hidle]
    exact runCmd_fatal (bind_error (bind_error (readSetup_notEnabled hi2c ho hn h7 he ha)))

/-- Settles O43: setup and start, the drain of all bytes, and the result. -/
theorem i2cReadCompletes : Obligations.I2cReadCompletes := by
  intro s u addr n c1 c2 c3 ws sts hu ho hsized hidle h7 hn he hws hsts hs bytes evs ha
  obtain ⟨hi2c, hlive⟩ := liveI2c_some hu
  obtain ⟨hstart, hdrain⟩ := (answeredBy_append _ _ _).1 ha
  have hbuf : receivedInto u.rxbuf 0 ws = bytes ++ u.rxbuf.drop n.toNat := by
    rw [← hws]
    exact receivedInto_start (by rw [hws, hsized u hi2c]; exact hn)
  have htake : (bytes ++ u.rxbuf.drop n.toNat).take n.toNat = bytes :=
    List.take_left' (by rw [List.length_map, hws])
  have hreceive := receiveAll_ok (s := s.i2cReading u addr n c1 c2 c3) (got := 0) ho rfl (hsts.trans hws.symm) hs hdrain
  rw [hws] at hreceive
  rw [exec_i2cRead_first hu hidle]
  refine runCmd_ok (bind_eq (bind_eq (readSetup_ok hi2c ho hn h7 he hstart) hreceive) ?_)
  refine (finishRead_ok (u := { u.setUp .read addr n with fsm := .transferring, rxbuf := receivedInto u.rxbuf 0 ws }) rfl
    hlive).trans ?_
  simp only [I2cUnit.setUp, hbuf, htake, State.i2cReading, afterEvents_append]
  rfl

/-- Settles O44: the drain stops at the empty poll, after the setup or in a resumed step. -/
theorem i2cReadWaits : Obligations.I2cReadWaits := by
  intro s u addr n ws sts empty hu ho hp hsts hs hempty drain
  obtain ⟨hi2c, -⟩ := liveI2c_some hu
  refine ⟨?first, ?resumed⟩
  case first =>
    intro c1 c2 c3 hidle h7 hn hlt he evs ha
    obtain ⟨hstart, hdrain⟩ := (answeredBy_append _ _ _).1 ha
    have hreceive := receiveAll_empty (s := s.i2cReading u addr n c1 c2 c3) (got := 0) ho rfl hp hlt hsts hs hempty hdrain
    rw [exec_i2cRead_first hu hidle]
    refine (runCmd_poll (bind_error (bind_eq (readSetup_ok hi2c ho hn h7 he hstart) hreceive))).trans ?_
    rw [Nat.zero_add, State.i2cReading, afterEvents_append]
    rfl
  case resumed =>
    intro got hgot hlt ha
    rw [exec_i2cRead_resumed hu hgot]
    exact runCmd_poll (bind_error (receiveAll_empty ho hi2c hp (by omega) hsts hs hempty ha))

/-- Settles O45: the drain of the rest ends well, and the result is taken from the buffer. -/
theorem i2cReadResumes : Obligations.I2cReadResumes := by
  intro s u addr n got ws sts hu ho hgot hleft hsts hs evs buf ha
  obtain ⟨hi2c, hlive⟩ := liveI2c_some hu
  have hreceive := receiveAll_ok (got := got) ho hi2c hsts hs ha
  rw [exec_i2cRead_resumed hu hgot, ← hleft, Nat.add_sub_cancel_left]
  exact runCmd_ok (bind_eq hreceive (finishRead_ok (u := { u with rxbuf := buf }) rfl hlive))

/-- Settles O46: the check of the length and the divisor step refuse. -/
theorem i2cRefusals : Obligations.I2cRefusals := by
  intro s u hu ho a c
  refine ⟨fun addr n hidle hlong => ?_, fun h0 => ⟨?_, ?_⟩⟩
  · rw [exec_i2cRead_first hu hidle]
    exact runCmd_refuse (w := .rxBufferTooSmall) (bind_error (bind_error (readSetup_tooLong hlong)))
  · exact runCmd_refuse (w := .zeroClock) (bind_eq (i2cUnit_ok hu) (bind_error (setDiv_zero h0)))
  · exact runCmd_refuse (w := .zeroClock) (bind_error ((i2cInitBody_enable hu ho rfl).trans (bind_error (setDiv_zero h0))))

/-- Settles O47: the probe is a `write_slave` after the four events. -/
theorem i2cInitCompletes : Obligations.I2cInitCompletes := by
  intro s u c0 c1 c2 c3 hu ho h0 h7 he p evs ha
  obtain ⟨hi2c, -⟩ := liveI2c_some hu
  obtain ⟨⟨hc0, -⟩, hprobe⟩ := (answeredBy_append _ _ _).1 ha
  have hslave := writeSlave_ok (s := s.afterEvents (i2cInitEvents s.params u c0)) ho hi2c h7 he hprobe
  refine runCmd_ok (bind_eq ((i2cInitBody_probe hu ho h0 hc0).trans (bind_ok hslave)) ?_)
  rw [afterEvents_append]
  rfl

/-- Settles O48: the probe stops at its address step, or at its start. -/
theorem i2cInitFatals : Obligations.I2cInitFatals := by
  intro s u c0 c1 hu ho h0 p pre
  obtain ⟨hi2c, -⟩ := liveI2c_some hu
  refine ⟨?address, ?start⟩
  case address =>
    intro h7 evs ha
    obtain ⟨⟨hc0, -⟩, hc1, -⟩ := (answeredBy_append _ _ _).1 ha
    have hstop := writeSlave_badAddress (s := s.afterEvents (i2cInitEvents s.params u c0)) (bytes := p.i2cProbeBytes)
      hi2c ho h7 hc1
    refine (runCmd_fatal (bind_error ((i2cInitBody_probe hu ho h0 hc0).trans (bind_error hstop)))).trans ?_
    rw [State.i2cDirected, afterEvents_withI2c, afterEvents_append]
    rfl
  case start =>
    intro c2 c3 h7 he n evs ha
    have hevs : evs = pre ++ writeSlaveStopEvents p p.i2cProbeAddr p.i2cProbeBytes c1 c2 c3 := by
      simp only [evs, writeSlaveStopEvents, List.append_assoc, n]
    rw [hevs] at ha ⊢
    obtain ⟨⟨hc0, -⟩, hprobe⟩ := (answeredBy_append _ _ _).1 ha
    have hstop := writeSlave_notEnabled (s := s.afterEvents (i2cInitEvents s.params u c0)) hi2c ho h7 he hprobe
    refine (runCmd_fatal (bind_error ((i2cInitBody_probe hu ho h0 hc0).trans (bind_error hstop)))).trans ?_
    rw [afterEvents_withI2c, afterEvents_append]
    rfl

end Sys2Proof.Machine

/-!
Proofs of the statements about IRQ_DISPATCH (45_irq_dispatch.md). First what a line of the dispatch does when the environment answers
as named: the reads it makes and the results it appends (`Dispatches`), composed line by line; then the statement.
-/

namespace Sys2Proof.Machine

/-! ## Lines that read and return results, and change nothing else -/

/-- With the parameters `p`, and where the environment answers `evs`, the lines `c` end well: they make exactly the bus events
`evs`, append exactly the results `vs`, and leave everything else as it is (R139, R140). -/
def Dispatches (p : Params) (c : Cmd Unit) (evs : List BusEvent) (vs : List OutValue) : Prop :=
  ∀ s : State, s.params = p → answeredBy s.env evs → c s = .ok () ((s.afterEvents evs).withOuts vs)

/-- The bits of `ks` that are set in `w` and are family bits, with their family. -/
def familyBitsAmong (p : Params) (w : Word) (ks : List Nat) : List (Nat × IrqFamily) :=
  (ks.filter fun k => w.getLsbD k).filterMap fun k => (familyOf p.irqFamilyBit k).map fun f => (k, f)

/-- The records of the bits of `ks` that are set in a word of an ordinary bank (R137). -/
def knownRecordsAmong (p : Params) (label : Nat) (w : Word) (ks : List Nat) : List OutValue :=
  (ks.filter fun k => w.getLsbD k).filterMap fun k =>
    (knownName p.irqKnown label k).map fun name => .irq label k (.known name)

theorem familyBitsAmong_all (p : Params) (w : Word) : familyBitsAmong p w (List.range 32) = familyBits p w := rfl

theorem knownRecordsAmong_all (p : Params) (label : Nat) (w : Word) :
    knownRecordsAmong p label w (List.range 32) = knownRecords p label w := rfl

section FamilyBits
variable {p : Params} {w : Word} {k : Nat} (ks : List Nat)

theorem familyBitsAmong_clear (hk : w.getLsbD k = false) : familyBitsAmong p w (k :: ks) = familyBitsAmong p w ks := by
  simp [familyBitsAmong, hk]

theorem familyBitsAmong_noFamily (hf : familyOf p.irqFamilyBit k = none) :
    familyBitsAmong p w (k :: ks) = familyBitsAmong p w ks := by
  cases hk : w.getLsbD k <;> simp [familyBitsAmong, hk, hf]

theorem familyBitsAmong_family {f : IrqFamily} (hk : w.getLsbD k = true) (hf : familyOf p.irqFamilyBit k = some f) :
    familyBitsAmong p w (k :: ks) = (k, f) :: familyBitsAmong p w ks := by
  simp [familyBitsAmong, hk, hf]

theorem knownRecordsAmong_clear {label : Nat} (hk : w.getLsbD k = false) :
    knownRecordsAmong p label w (k :: ks) = knownRecordsAmong p label w ks := by
  simp [knownRecordsAmong, hk]

theorem knownRecordsAmong_set {label : Nat} (hk : w.getLsbD k = true) :
    knownRecordsAmong p label w (k :: ks) =
      ((knownName p.irqKnown label k).map fun name => OutValue.irq label k (.known name)).toList ++
        knownRecordsAmong p label w ks := by
  cases hn : knownName p.irqKnown label k <;> simp [knownRecordsAmong, hk, hn]

end FamilyBits

namespace Dispatches

section
variable {p : Params} {c c' : Cmd Unit} {evs evs' : List BusEvent} {vs vs' : List OutValue}

/-- Lines in order: their reads in order, their results in order. -/
theorem seq (h : Dispatches p c evs vs) (h' : Dispatches p c' evs' vs') :
    Dispatches p (c >>= fun _ => c') (evs ++ evs') (vs ++ vs') := by
  intro s hp ha
  obtain ⟨ha, ha'⟩ := (answeredBy_append _ _ _).1 ha
  have hrest := h' ((s.afterEvents evs).withOuts vs) hp ha'
  rw [bind_ok (h s hp ha), hrest, withOuts_afterEvents, afterEvents_append, withOuts_append]

/-- A line that does nothing. -/
theorem skip (p : Params) : Dispatches p (pure ()) [] [] := fun s _ _ => by
  rw [afterEvents_nil, withOuts_nil, pure_apply]

/-- A line that looks at the state, of which the dispatch uses the parameters only. -/
theorem look {f : State → Cmd Unit} (h : ∀ s : State, s.params = p → Dispatches p (f s) evs vs) :
    Dispatches p (getState >>= f) evs vs := fun s hp ha => h s hp s hp ha

/-- A permitted read, and what its answer leads to (R76). -/
theorem read {r : Reg} {d : Port} {w : Word} {f : Word → Cmd Unit} (hd : portOf p r = some d) (hperm : d.perm ≠ .writeOnly)
    (h : Dispatches p (f w) evs vs) : Dispatches p (regRead r >>= f) (.rd d.addr w :: evs) vs := by
  rintro s rfl ⟨hw, ha⟩
  rw [bind_ok (regRead_answered ⟨d.perm, hd, hperm⟩ hw), h (s.afterEvents [.rd d.addr w]) rfl ha, afterEvents_append]
  rfl

theorem emitAll (p : Params) (vs : List OutValue) : Dispatches p (emitAll vs) [] vs := fun s _ _ => by
  rw [afterEvents_nil, emitAll_ok]

/-! ## Classification (R137, R138) -/

/-- A pending bit of no family: no read, no record. -/
theorem classifyFamily_none {k : Nat} (hf : familyOf p.irqFamilyBit k = none) : Dispatches p (classifyFamily k) [] [] := by
  refine look fun s hs => ?_
  simp only [hs, hf]
  exact skip p

/-- A pending family bit: one status read, one record per selected sub-variant. -/
theorem classifyFamily_some {k : Nat} {f : IrqFamily} (hperm : p.secstatPerm ≠ .writeOnly)
    (hf : familyOf p.irqFamilyBit k = some f) (status : Word) :
    Dispatches p (classifyFamily k) [.rd secstatAddr status] (familyRecords p k f status) := by
  refine look fun s hs => ?_
  simp only [hs, hf]
  exact read (d := ⟨secstatAddr, p.secstatPerm⟩) rfl hperm (emitAll p _)

theorem classifyBit_summary {k : Nat} (h : Dispatches p (classifyFamily k) evs vs) :
    Dispatches p (classifyBit irqSummaryBank k) evs vs := by
  refine look fun s _ => ?_
  rw [if_pos rfl]
  exact h

/-- A pending bit of an ordinary bank: its record, if it is known. -/
theorem classifyBit_known {label : Nat} (hl : label ≠ irqSummaryBank) (k : Nat) :
    Dispatches p (classifyBit label k) []
      ((knownName p.irqKnown label k).map fun name => OutValue.irq label k (.known name)).toList := by
  refine look fun s hs => ?_
  rw [if_neg hl, hs]
  cases knownName p.irqKnown label k with
  | none => exact skip p
  | some name => exact emitAll p [_]

theorem classifyBits_clear {label k : Nat} {w : Word} {ks : List Nat} (hk : w.getLsbD k = false)
    (h : Dispatches p (classifyBits label w ks) evs vs) : Dispatches p (classifyBits label w (k :: ks)) evs vs := by
  rw [classifyBits, hk]
  exact seq (skip p) h

theorem classifyBits_set {label k : Nat} {w : Word} {ks : List Nat} (hk : w.getLsbD k = true)
    (hbit : Dispatches p (classifyBit label k) evs vs) (h : Dispatches p (classifyBits label w ks) evs' vs') :
    Dispatches p (classifyBits label w (k :: ks)) (evs ++ evs') (vs ++ vs') := by
  rw [classifyBits, hk]
  exact seq hbit h

/-- The bits of a summary bank, `ws` the status words of its pending family bits in order. -/
theorem classifyBits_summary (hperm : p.secstatPerm ≠ .writeOnly) (w : Word) (ks : List Nat) {ws : List Word}
    (hn : ws.length = (familyBitsAmong p w ks).length) :
    Dispatches p (classifyBits irqSummaryBank w ks)
      (((familyBitsAmong p w ks).zip ws).map fun x => .rd secstatAddr x.2)
      (((familyBitsAmong p w ks).zip ws).flatMap fun x => familyRecords p x.1.1 x.1.2 x.2) := by
  induction ks generalizing ws with
  | nil => exact skip p
  | cons k ks ih =>
    cases hk : w.getLsbD k with
    | false =>
      rw [familyBitsAmong_clear ks hk] at hn ⊢
      exact classifyBits_clear hk (ih hn)
    | true =>
      cases hf : familyOf p.irqFamilyBit k with
      | none =>
        rw [familyBitsAmong_noFamily ks hf] at hn ⊢
        exact classifyBits_set hk (classifyBit_summary (classifyFamily_none hf)) (ih hn)
      | some f =>
        rw [familyBitsAmong_family ks hk hf] at hn ⊢
        obtain ⟨status, ws, rfl⟩ := List.exists_cons_of_length_eq_add_one hn
        exact classifyBits_set hk (classifyBit_summary (classifyFamily_some hperm hf status)) (ih (Nat.succ.inj hn))

/-- The bits of an ordinary bank. -/
theorem classifyBits_known {label : Nat} (hl : label ≠ irqSummaryBank) (w : Word) (ks : List Nat) :
    Dispatches p (classifyBits label w ks) [] (knownRecordsAmong p label w ks) := by
  induction ks with
  | nil => exact skip p
  | cons k ks ih =>
    cases hk : w.getLsbD k with
    | false =>
      rw [knownRecordsAmong_clear ks hk]
      exact classifyBits_clear hk ih
    | true =>
      rw [knownRecordsAmong_set ks hk]
      exact classifyBits_set hk (classifyBit_known hl k) ih

/-! ## Banks (R136) -/

/-- A word of 0 has no bit to classify. -/
theorem classifyBits_zero (label : Nat) (ks : List Nat) (s : State) : classifyBits label 0#32 ks s = .ok () s := by
  induction ks with
  | nil => rfl
  | cons k ks ih => rw [classifyBits, BitVec.getLsbD_zero]; exact ih

/-- Skipping a word of 0 is classifying it. -/
theorem whenever_ne_zero {label : Nat} {w : Word} (h : Dispatches p (classify label w) evs vs) :
    Dispatches p (whenever (w ≠ 0#32) (classify label w)) evs vs := by
  by_cases hw : w = 0#32
  · subst hw
    intro s hp ha
    rw [← h s hp ha]
    exact (classifyBits_zero label _ s).symm
  · rw [decide_eq_true hw]
    exact h

/-- One bank: its pending word, then what the word leads to. -/
theorem bank {b : IrqBank} {a : BankAnswer} {i : Nat} {rest : Cmd Unit} (hb : p.irqBanks[i]? = some b)
    (hperm : b.perm ≠ .writeOnly) (hstat : p.secstatPerm ≠ .writeOnly) (hfit : bankAnswerFits p b a)
    (h : Dispatches p rest evs vs) :
    Dispatches p (do let w ← regRead (.pend i); whenever (w ≠ 0#32) (classify b.label w); rest)
      (bankEvents p b a ++ evs) (bankRecords p b a ++ vs) := by
  have hd : portOf p (.pend i) = some ⟨b.address, b.perm⟩ := by rw [portOf, hb, Option.map_some]
  refine read hd hperm (seq (whenever_ne_zero ?_) h)
  unfold bankRecords
  by_cases hl : b.label = irqSummaryBank
  · rw [if_pos hl, if_pos hl, hl]
    exact classifyBits_summary hstat a.pending (List.range 32) (hfit hl)
  · rw [if_neg hl, if_neg hl]
    exact classifyBits_known hl a.pending (List.range 32)

/-- The banks from number `i` on, each with its answer. -/
theorem dispatchBanks {i : Nat} {bs : List IrqBank} {as : List BankAnswer} (hbs : p.irqBanks.drop i = bs)
    (hn : as.length = bs.length) (hperm : ∀ b ∈ bs, b.perm ≠ .writeOnly) (hstat : p.secstatPerm ≠ .writeOnly)
    (hfit : ∀ x ∈ bs.zip as, bankAnswerFits p x.1 x.2) :
    Dispatches p (dispatchBanks i bs) ((bs.zip as).flatMap fun x => bankEvents p x.1 x.2)
      ((bs.zip as).flatMap fun x => bankRecords p x.1 x.2) := by
  induction bs generalizing i as with
  | nil => exact skip p
  | cons b bs ih =>
    obtain ⟨a, as, rfl⟩ := List.exists_cons_of_length_eq_add_one hn
    have hb : p.irqBanks[i]? = some b := by rw [← List.head?_drop, hbs, List.head?_cons]
    have hrest : p.irqBanks.drop (i + 1) = bs := by rw [← List.tail_drop, hbs, List.tail_cons]
    obtain ⟨hperm, hperms⟩ := List.forall_mem_cons.1 hperm
    obtain ⟨hfit, hfits⟩ := List.forall_mem_cons.1 hfit
    exact bank hb hperm hstat hfit (ih hrest (Nat.succ.inj hn) hperms hfits)

end

end Dispatches

/-! ## The statement -/

/-- Settles O49: the banks in list order, then the completion. -/
theorem irqDispatchCompletes : Obligations.IrqDispatchCompletes := by
  intro s as hn hperm hstat hfit evs records ha
  have hbanks := Dispatches.dispatchBanks (i := 0) rfl hn hperm hstat hfit s rfl ha
  exact runCmd_ok (bind_ok hbanks)

end Sys2Proof.Machine

/-!
Proofs of the statements about reset and the step (70_reset_and_hazards.md). First the cases of a step that executes nothing, beside
`step_of_command`; then the statement.
-/

namespace Sys2Proof.Machine

/-! ## Steps that execute nothing (R160) -/

section StepCases
variable {s : State}

/-- A halted machine takes no step. -/
theorem step_of_halted {h : HaltRecord} (hhalt : s.halt = some h) : step s = .fault (.halted h) := by
  unfold step
  rw [hhalt]

/-- At the end of the stream there is no step. -/
theorem step_of_end (hhalt : s.halt = none) (hend : s.stream.length ≤ s.cp) : step s = .fault .completed := by
  unfold step
  rw [hhalt]
  exact if_pos hend

/-- A step that finds a reserved word refuses it, whatever the reason (R67). -/
theorem step_of_reserved {why : ReservedWhy} (hhalt : s.halt = none) (hcp : s.cp < s.stream.length)
    (hd : decode s.params s.fetch = .reserved why) : step s = .refused .reservedEncoding := by
  unfold step
  rw [hhalt]
  dsimp only
  rw [if_neg (Nat.not_le.2 hcp), hd]

end StepCases

/-! ## The statement -/

/-- Settles O5: one rule per case of the step relation; the words from `CP` on are the fetch. -/
theorem stepRunsTheDecodedCommand : Obligations.StepRunsTheDecodedCommand :=
  fun _ => ⟨fun _ => step_of_halted, step_of_end, fun _ _ => step_of_command, fun _ => step_of_reserved⟩

end Sys2Proof.Machine
